-- ==== Sys2Proof/Word.lean ====
section
/-! DEFINITION. The word types of the block (spec rules R8, R10, R20, R24): every general register,
address, fetch cursor and instruction is 32 bits wide, a register number is a 5-bit field. Arithmetic
on them is that of `BitVec`, which is modulo `2^32` as rule R10 asks. -/

namespace Sys2Proof

/-- A 32-bit value: register contents, address, cursor, instruction (R8: XLEN = ILEN = 32). -/
abbrev Word := BitVec 32

/-- One byte of data memory. -/
abbrev Byte := BitVec 8

/-- A register number, the 5-bit field of rule R91 (0 to 31, rule R20). -/
abbrev Reg := BitVec 5

/-- A constant shift amount, the 5-bit field `shamt` of rule R91. -/
abbrev Shamt := BitVec 5

/-- The immediate field `imm16` of rule R91, not yet extended. -/
abbrev Imm16 := BitVec 16

/-- The jump field `index26` of rule R91. -/
abbrev Index26 := BitVec 26

end Sys2Proof
end

