-- ==== Sys2Proof/Syntax.lean ====
section
/-! DEFINITION. The instruction set (spec rules R3, R97, R98): 34 instructions and the catch-all
`unsupported`, one constructor for each row of the opcode table. A constructor holds the fields the
instruction uses, in the assembler order of rule R102; the fields rule R99 ignores are not held. -/

namespace Sys2Proof

/-- The instructions. Register-register forms are `rd rs rt`, shifts `rd rt shamt`, immediate forms
`rt rs imm16`, loads and stores `rt rs imm16` for `rt, imm(rs)`, branches `rs rt imm16`. -/
inductive Instr where
  -- R-type shifts by a constant (R151 to R153)
  | sll (rd rt : Reg) (shamt : Shamt)
  | srl (rd rt : Reg) (shamt : Shamt)
  | sra (rd rt : Reg) (shamt : Shamt)
  -- jump register (R206)
  | jr (rs : Reg)
  -- R-type three-register operations (R141 to R150)
  | add (rd rs rt : Reg)
  | addu (rd rs rt : Reg)
  | sub (rd rs rt : Reg)
  | subu (rd rs rt : Reg)
  | and (rd rs rt : Reg)
  | or (rd rs rt : Reg)
  | xor (rd rs rt : Reg)
  | nor (rd rs rt : Reg)
  | slt (rd rs rt : Reg)
  | sltu (rd rs rt : Reg)
  -- jumps (R204, R205)
  | j (index26 : Index26)
  | jal (index26 : Index26)
  -- conditional branches (R202, R203)
  | beq (rs rt : Reg) (imm16 : Imm16)
  | bne (rs rt : Reg) (imm16 : Imm16)
  -- immediate ALU operations (R161 to R168)
  | addi (rt rs : Reg) (imm16 : Imm16)
  | addiu (rt rs : Reg) (imm16 : Imm16)
  | slti (rt rs : Reg) (imm16 : Imm16)
  | sltiu (rt rs : Reg) (imm16 : Imm16)
  | andi (rt rs : Reg) (imm16 : Imm16)
  | ori (rt rs : Reg) (imm16 : Imm16)
  | xori (rt rs : Reg) (imm16 : Imm16)
  | lui (rt : Reg) (imm16 : Imm16)
  -- loads (R182 to R186)
  | lb (rt rs : Reg) (imm16 : Imm16)
  | lh (rt rs : Reg) (imm16 : Imm16)
  | lw (rt rs : Reg) (imm16 : Imm16)
  | lbu (rt rs : Reg) (imm16 : Imm16)
  | lhu (rt rs : Reg) (imm16 : Imm16)
  -- stores (R188 to R190)
  | sb (rt rs : Reg) (imm16 : Imm16)
  | sh (rt rs : Reg) (imm16 : Imm16)
  | sw (rt rs : Reg) (imm16 : Imm16)
  -- every word that selects none of the above (R220); it keeps the word it stands for
  | unsupported (word : Word)
  deriving DecidableEq, Repr

end Sys2Proof
end

