-- ==== Sys2Proof/WellFormed.lean ====
section
/-! DEFINITION. Which terms of `Instr` stand for a word of the machine. Every field has exactly the
width of its encoding, so the one thing left to check is the catch-all: `unsupported w` stands for a
word only when `w` selects none of the 34 instructions (spec rules R97, R98, R100). The two lists are
written out here from those rules' tables, apart from the decoder's own match. -/

namespace Sys2Proof

/-- The opcodes other than 0 that name an instruction (rule R97). -/
def supportedOpcodes : List (BitVec 6) :=
  [0x02#6, 0x03#6, 0x04#6, 0x05#6,
   0x08#6, 0x09#6, 0x0A#6, 0x0B#6, 0x0C#6, 0x0D#6, 0x0E#6, 0x0F#6,
   0x20#6, 0x21#6, 0x23#6, 0x24#6, 0x25#6, 0x28#6, 0x29#6, 0x2B#6]

/-- The functions that name an instruction under opcode 0 (rule R98). -/
def supportedFuncts : List (BitVec 6) :=
  [0x00#6, 0x02#6, 0x03#6, 0x08#6,
   0x20#6, 0x21#6, 0x22#6, 0x23#6, 0x24#6, 0x25#6, 0x26#6, 0x27#6, 0x2A#6, 0x2B#6]

/-- A word selects an instruction when rules R97 and R98 have a row for its opcode and function. -/
def selectsInstruction (w : Word) : Bool :=
  if w.extractLsb' 26 6 = 0#6 then supportedFuncts.contains (w.extractLsb' 0 6)
  else supportedOpcodes.contains (w.extractLsb' 26 6)

/-- Well-formed instructions: the ones a word of the machine decodes to. -/
def Instr.wf : Instr → Bool
  | .unsupported w => !selectsInstruction w
  | .sll .. | .srl .. | .sra .. | .jr .. | .add .. | .addu .. | .sub .. | .subu .. | .and .. | .or ..
  | .xor .. | .nor .. | .slt .. | .sltu .. | .j .. | .jal .. | .beq .. | .bne .. | .addi ..
  | .addiu .. | .slti .. | .sltiu .. | .andi .. | .ori .. | .xori .. | .lui .. | .lb .. | .lh ..
  | .lw .. | .lbu .. | .lhu .. | .sb .. | .sh .. | .sw .. => true

end Sys2Proof
end

