-- ==== Sys2Proof/Decode.lean ====
section
/-! DEFINITION. From words to instructions and back (spec rules R90 to R101, R120). Decoding is total:
a word that selects no instruction decodes to `unsupported` (R100). The only refusals are those of the
submission boundary, for something that is not a 32-bit word (R44, R336). -/

namespace Sys2Proof

/-! ### Fields (rule R91) -/

/-- `w[31:26]`. -/
def opField (w : Word) : BitVec 6 := w.extractLsb' 26 6

/-- `w[25:21]`. -/
def rsField (w : Word) : Reg := w.extractLsb' 21 5

/-- `w[20:16]`. -/
def rtField (w : Word) : Reg := w.extractLsb' 16 5

/-- `w[15:11]`. -/
def rdField (w : Word) : Reg := w.extractLsb' 11 5

/-- `w[10:6]`. -/
def shamtField (w : Word) : Shamt := w.extractLsb' 6 5

/-- `w[5:0]`. -/
def functField (w : Word) : BitVec 6 := w.extractLsb' 0 6

/-- `w[15:0]`. -/
def imm16Field (w : Word) : Imm16 := w.extractLsb' 0 16

/-- `w[25:0]`. -/
def index26Field (w : Word) : Index26 := w.extractLsb' 0 26

/-! ### Decoding -/

/-- The R-type rows of rule R98, selected by `funct` alone (rule R99). -/
def decodeRType (w : Word) : Instr :=
  let rs := rsField w
  let rt := rtField w
  let rd := rdField w
  match (functField w).toNat with
  | 0x00 => .sll rd rt (shamtField w)
  | 0x02 => .srl rd rt (shamtField w)
  | 0x03 => .sra rd rt (shamtField w)
  | 0x08 => .jr rs
  | 0x20 => .add rd rs rt
  | 0x21 => .addu rd rs rt
  | 0x22 => .sub rd rs rt
  | 0x23 => .subu rd rs rt
  | 0x24 => .and rd rs rt
  | 0x25 => .or rd rs rt
  | 0x26 => .xor rd rs rt
  | 0x27 => .nor rd rs rt
  | 0x2A => .slt rd rs rt
  | 0x2B => .sltu rd rs rt
  | _ => .unsupported w

/-- The operation and its operands: the rows of rules R97 and R98. Every word decodes (R120). -/
def decodeWord (w : Word) : Instr :=
  let rs := rsField w
  let rt := rtField w
  let imm := imm16Field w
  match (opField w).toNat with
  | 0x00 => decodeRType w
  | 0x02 => .j (index26Field w)
  | 0x03 => .jal (index26Field w)
  | 0x04 => .beq rs rt imm
  | 0x05 => .bne rs rt imm
  | 0x08 => .addi rt rs imm
  | 0x09 => .addiu rt rs imm
  | 0x0A => .slti rt rs imm
  | 0x0B => .sltiu rt rs imm
  | 0x0C => .andi rt rs imm
  | 0x0D => .ori rt rs imm
  | 0x0E => .xori rt rs imm
  | 0x0F => .lui rt imm
  | 0x20 => .lb rt rs imm
  | 0x21 => .lh rt rs imm
  | 0x23 => .lw rt rs imm
  | 0x24 => .lbu rt rs imm
  | 0x25 => .lhu rt rs imm
  | 0x28 => .sb rt rs imm
  | 0x29 => .sh rt rs imm
  | 0x2B => .sw rt rs imm
  | _ => .unsupported w

/-- Why something offered as an instruction is turned away before it reaches the core (R44, R336). -/
inductive DecodeError where
  /-- Raised by `decode`: the encoding is not exactly 32 bits long. Safe: the spec rejects it too. -/
  | wrongLength (nbits : Nat)
  /-- Raised by `decode`: the number does not fit in 32 bits. Safe: no such instruction exists. -/
  | tooLarge (value : Nat)
  deriving DecidableEq, Repr

/-- An encoding of `nbits` bits at the submission boundary: exactly one 32-bit word is accepted. -/
def decode (nbits value : Nat) : Except DecodeError Instr :=
  if nbits ≠ 32 then .error (.wrongLength nbits)
  else if 2 ^ 32 ≤ value then .error (.tooLarge value)
  else .ok (decodeWord (BitVec.ofNat 32 value))

/-- The host's question about a row of the opcode table. The table's bit 0 is bit 0 of the word; bits
above `nbits` are 0, so the word offered is always one of 32 bits. -/
def decodeTableWord (nbits w : Nat) : Option Instr :=
  (decode 32 (w % 2 ^ nbits)).toOption

/-! ### Encoding (rules R92 to R94, R97, R98)

Fields that rule R99 ignores are written as zero. -/

/-- R format: `op = 0 | rs | rt | rd | shamt | funct`. -/
def encodeR (rs rt rd : Reg) (shamt : Shamt) (funct : BitVec 6) : Word :=
  0#6 ++ rs ++ rt ++ rd ++ shamt ++ funct

/-- I format: `op | rs | rt | imm16`. -/
def encodeI (op : BitVec 6) (rs rt : Reg) (imm : Imm16) : Word :=
  op ++ rs ++ rt ++ imm

/-- J format: `op | index26`. -/
def encodeJ (op : BitVec 6) (index : Index26) : Word :=
  op ++ index

/-- The word of an instruction. -/
def encode : Instr → Word
  | .sll rd rt shamt => encodeR 0 rt rd shamt 0x00#6
  | .srl rd rt shamt => encodeR 0 rt rd shamt 0x02#6
  | .sra rd rt shamt => encodeR 0 rt rd shamt 0x03#6
  | .jr rs => encodeR rs 0 0 0 0x08#6
  | .add rd rs rt => encodeR rs rt rd 0 0x20#6
  | .addu rd rs rt => encodeR rs rt rd 0 0x21#6
  | .sub rd rs rt => encodeR rs rt rd 0 0x22#6
  | .subu rd rs rt => encodeR rs rt rd 0 0x23#6
  | .and rd rs rt => encodeR rs rt rd 0 0x24#6
  | .or rd rs rt => encodeR rs rt rd 0 0x25#6
  | .xor rd rs rt => encodeR rs rt rd 0 0x26#6
  | .nor rd rs rt => encodeR rs rt rd 0 0x27#6
  | .slt rd rs rt => encodeR rs rt rd 0 0x2A#6
  | .sltu rd rs rt => encodeR rs rt rd 0 0x2B#6
  | .j index => encodeJ 0x02#6 index
  | .jal index => encodeJ 0x03#6 index
  | .beq rs rt imm => encodeI 0x04#6 rs rt imm
  | .bne rs rt imm => encodeI 0x05#6 rs rt imm
  | .addi rt rs imm => encodeI 0x08#6 rs rt imm
  | .addiu rt rs imm => encodeI 0x09#6 rs rt imm
  | .slti rt rs imm => encodeI 0x0A#6 rs rt imm
  | .sltiu rt rs imm => encodeI 0x0B#6 rs rt imm
  | .andi rt rs imm => encodeI 0x0C#6 rs rt imm
  | .ori rt rs imm => encodeI 0x0D#6 rs rt imm
  | .xori rt rs imm => encodeI 0x0E#6 rs rt imm
  | .lui rt imm => encodeI 0x0F#6 0 rt imm
  | .lb rt rs imm => encodeI 0x20#6 rs rt imm
  | .lh rt rs imm => encodeI 0x21#6 rs rt imm
  | .lw rt rs imm => encodeI 0x23#6 rs rt imm
  | .lbu rt rs imm => encodeI 0x24#6 rs rt imm
  | .lhu rt rs imm => encodeI 0x25#6 rs rt imm
  | .sb rt rs imm => encodeI 0x28#6 rs rt imm
  | .sh rt rs imm => encodeI 0x29#6 rs rt imm
  | .sw rt rs imm => encodeI 0x2B#6 rs rt imm
  | .unsupported w => w

end Sys2Proof
end

