-- ==== Sys2Proof/Machine/Operands.lean ====
section
/-! DEFINITION. Immediates, targets and extensions: every operand form of the instruction set (spec
rules R96, R128, R180, R182 to R186) and the register sets of an instruction (rules R123 to R127). -/

namespace Sys2Proof.Machine

/-! ### Immediates (rule R96) -/

/-- `imm = sext_32(w[15:0])`. -/
def signImm (imm16 : Imm16) : Word := imm16.signExtend 32

/-- `zimm = zext_32(w[15:0])`, used by the logical forms (R165 to R167, R169). -/
def zeroImm (imm16 : Imm16) : Word := imm16.setWidth 32

/-- `upper = w[15:0] ‖ 0x0000`, used by `lui` (R168). -/
def upperImm (imm16 : Imm16) : Word := imm16 ++ 0#16

/-! ### Addresses of control transfer (rules R96, R128) -/

/-- The address of the next instruction in program order, and the link value of `jal`. -/
def nextAddress (pc : Word) : Word := pc + 4#32

/-- The target of a conditional branch: `pc + 4 + (imm << 2)` modulo `2^32`. -/
def branchTarget (pc : Word) (imm16 : Imm16) : Word := nextAddress pc + (signImm imm16 <<< 2)

/-- The target of `j` and `jal`: `(pc + 4)[31:28] ‖ index26 ‖ 00`. -/
def jumpTarget (pc : Word) (index : Index26) : Word :=
  (nextAddress pc).extractLsb' 28 4 ++ index ++ 0#2

/-- Base plus displacement, the one addressing mode (R180). -/
def effectiveAddress (base : Word) (imm16 : Imm16) : Word := base + signImm imm16

/-! ### Access widths and the extension of loaded values (rules R66, R68, R182 to R186) -/

/-- The width of a data access (R68). -/
inductive Width where
  | byte
  | half
  | word
  deriving DecidableEq, Repr

/-- The number `n` of bytes of rules R66 and R67. -/
def Width.bytes : Width → Nat
  | .byte => 1
  | .half => 2
  | .word => 4

/-- What a load does with the low `8n` bits it read: sign extension or zero extension to 32 bits. -/
def extendLoaded (w : Width) (signed : Bool) (v : Word) : Word :=
  match w, signed with
  | .byte, true => (v.setWidth 8).signExtend 32
  | .byte, false => (v.setWidth 8).setWidth 32
  | .half, true => (v.setWidth 16).signExtend 32
  | .half, false => (v.setWidth 16).setWidth 32
  | .word, _ => v

/-! ### Register sets (rules R123 to R127) -/

/-- A destination field: the register, or `none` when the field is 0 (R126). -/
def destField (r : Reg) : Option Reg := if r = 0#5 then none else some r

/-- A read set: the register numbers of the listed fields, without register 0 and without repeats
(R126, R127). -/
def readSet (fields : List Reg) : List Reg :=
  fields.foldr (fun r acc => if r = 0#5 ∨ r ∈ acc then acc else r :: acc) []

/-- The register fields an instruction takes operands from, register 0 included (R127). -/
def sourceFields : Instr → List Reg
  | .sll _ rt _ | .srl _ rt _ | .sra _ rt _ => [rt]
  | .jr rs => [rs]
  | .add _ rs rt | .addu _ rs rt | .sub _ rs rt | .subu _ rs rt | .and _ rs rt | .or _ rs rt
  | .xor _ rs rt | .nor _ rs rt | .slt _ rs rt | .sltu _ rs rt => [rs, rt]
  | .j _ | .jal _ => []
  | .beq rs rt _ | .bne rs rt _ => [rs, rt]
  | .addi _ rs _ | .addiu _ rs _ | .slti _ rs _ | .sltiu _ rs _ | .andi _ rs _ | .ori _ rs _
  | .xori _ rs _ => [rs]
  | .lui _ _ => []
  | .lb _ rs _ | .lh _ rs _ | .lw _ rs _ | .lbu _ rs _ | .lhu _ rs _ => [rs]
  | .sb rt rs _ | .sh rt rs _ | .sw rt rs _ => [rs, rt]
  | .unsupported _ => []

/-- The register an instruction writes, or none (R127): `rd`, `rt`, or 31 for `jal`. -/
def destination : Instr → Option Reg
  | .sll rd _ _ | .srl rd _ _ | .sra rd _ _ => destField rd
  | .jr _ => none
  | .add rd _ _ | .addu rd _ _ | .sub rd _ _ | .subu rd _ _ | .and rd _ _ | .or rd _ _
  | .xor rd _ _ | .nor rd _ _ | .slt rd _ _ | .sltu rd _ _ => destField rd
  | .j _ => none
  | .jal _ => some 31#5
  | .beq _ _ _ | .bne _ _ _ => none
  | .addi rt _ _ | .addiu rt _ _ | .slti rt _ _ | .sltiu rt _ _ | .andi rt _ _ | .ori rt _ _
  | .xori rt _ _ | .lui rt _ => destField rt
  | .lb rt _ _ | .lh rt _ _ | .lw rt _ _ | .lbu rt _ _ | .lhu rt _ _ => destField rt
  | .sb _ _ _ | .sh _ _ _ | .sw _ _ _ => none
  | .unsupported _ => none

/-- The static branch or jump target, if it is known at decode (R128). -/
def staticTarget (pc : Word) : Instr → Option Word
  | .j index | .jal index => some (jumpTarget pc index)
  | .beq _ _ imm | .bne _ _ imm => some (branchTarget pc imm)
  | .sll .. | .srl .. | .sra .. | .jr .. | .add .. | .addu .. | .sub .. | .subu .. | .and .. | .or ..
  | .xor .. | .nor .. | .slt .. | .sltu .. | .addi .. | .addiu .. | .slti .. | .sltiu .. | .andi ..
  | .ori .. | .xori .. | .lui .. | .lb .. | .lh .. | .lw .. | .lbu .. | .lhu .. | .sb .. | .sh ..
  | .sw .. | .unsupported .. => none

end Sys2Proof.Machine
end

