-- ==== Sys2Proof/Machine/Descriptor.lean ====
section
/-! DEFINITION. The decode unit: the decoded descriptor of a word (spec rules R120 to R130). -/

namespace Sys2Proof.Machine

/-- The closed variant of rule R122. -/
inductive Kind where
  | rAlu
  | iAluImmediate
  | load
  | store
  | conditionalBranch
  | jump
  | jumpRegister
  | unsupported
  deriving DecidableEq, Repr

/-- The kind of an instruction (R122). -/
def kindOf : Instr → Kind
  | .sll .. | .srl .. | .sra .. | .add .. | .addu .. | .sub .. | .subu .. | .and .. | .or .. | .xor ..
  | .nor .. | .slt .. | .sltu .. => .rAlu
  | .addi .. | .addiu .. | .slti .. | .sltiu .. | .andi .. | .ori .. | .xori .. | .lui .. =>
    .iAluImmediate
  | .lb .. | .lh .. | .lw .. | .lbu .. | .lhu .. => .load
  | .sb .. | .sh .. | .sw .. => .store
  | .beq .. | .bne .. => .conditionalBranch
  | .j .. | .jal .. => .jump
  | .jr .. => .jumpRegister
  | .unsupported .. => .unsupported

/-- The decoded descriptor (R121). Its `mnemonic` is the constructor of `instr`; the program index is
carried through unchanged (R120). -/
structure Descriptor where
  instr : Instr
  idx : Nat
  kind : Kind
  /-- The raw fields `word[25:21]`, `word[20:16]`, `word[15:11]`, whatever the kind. -/
  rs : Reg
  rt : Reg
  rd : Reg
  shamt : Shamt
  /-- `sext_32(word[15:0])`, for every word. -/
  imm : Word
  /-- Register numbers 1 to 31 (R126, R127). -/
  reads : List Reg
  /-- A register number 1 to 31, or none (R126, R127). -/
  dest : Option Reg
  target : Option Word
  deriving DecidableEq, Repr

/-- `decode(word, pc, idx)` of rule R130. It has no side effect and cannot fail (R120). -/
def decodeUnit (word pc : Word) (idx : Nat) : Descriptor :=
  let i := decodeWord word
  { instr := i
    idx := idx
    kind := kindOf i
    rs := rsField word
    rt := rtField word
    rd := rdField word
    shamt := shamtField word
    imm := signImm (imm16Field word)
    reads := readSet (sourceFields i)
    dest := destination i
    target := staticTarget pc i }

/-- `is-load` (R121). -/
def Descriptor.isLoad (d : Descriptor) : Bool := d.kind == .load

/-- `is-store` (R121). -/
def Descriptor.isStore (d : Descriptor) : Bool := d.kind == .store

/-- `is-branch` (R121). -/
def Descriptor.isBranch (d : Descriptor) : Bool := d.kind == .conditionalBranch

/-- `is-jump` (R121): `j`, `jal` and `jr`. -/
def Descriptor.isJump (d : Descriptor) : Bool := d.kind == .jump || d.kind == .jumpRegister

end Sys2Proof.Machine
end

