-- ==== Sys2Proof/Config.lean ====
section
/-! DEFINITION. What is fixed for one block (the parameters of rule R8) and what the host configures
(the configuration inputs of rule R32), each with the default or power-on value the spec gives. The
spec leaves no value undefined that an instruction can produce, so there is no free value here. The
constants of rule R8 that no block changes (five stages, a lookback of 2, no penalty for a jump, no
stall for a WAW hazard) are in the rules that use them (Pipeline.lean, Hazard.lean). -/

namespace Sys2Proof

/-- Number of general registers (NREGS, rules R8 and R20). -/
abbrev numRegs : Nat := 32

/-- Byte order of the data memory (BYTE_ORDER, rule R62). -/
inductive ByteOrder where
  | little
  | big
  deriving DecidableEq, Repr

/-- The parameters a model takes as an argument (rule R8). They are fixed for a block: no tick and no
command writes them. `N` of rule R8 is the length of the instruction store. -/
structure Params where
  /-- PROGRAM_BASE: byte address of program entry 0, a multiple of 4. -/
  programBase : Word
  /-- MEM_WORDS: number of 32-bit words of data memory. -/
  memWords : Nat
  /-- SP_REG: register number of the stack pointer. -/
  spReg : Reg
  /-- SP_INIT: reset value of the stack pointer. -/
  spInit : Word
  /-- BYTE_ORDER. -/
  byteOrder : ByteOrder
  /-- MISPREDICT_PENALTY: the value a misprediction loads into `mispStall`. -/
  mispredictPenalty : Nat
  deriving DecidableEq, Repr

/-- The defaults of rule R8. -/
def Params.default : Params :=
  { programBase := 0x00400000#32
    memWords := 1024
    spReg := 29#5
    spInit := 0x00000FFC#32
    byteOrder := .little
    mispredictPenalty := 2 }

/-- What rule R8 asks of the parameters: the program base is a multiple of 4. -/
abbrev Params.wf (p : Params) : Prop :=
  p.programBase.toNat % 4 = 0

/-- `branchPredictionMode` (rules R32, R261). -/
inductive PredictionMode where
  | none
  | staticTaken
  | staticNotTaken
  | stateMachine
  deriving DecidableEq, Repr

/-- `stateMachineInitialPrediction` (rules R32, R264). -/
inductive InitialPrediction where
  | taken
  | notTaken
  deriving DecidableEq, Repr

/-- `missThreshold`: an integer of at least 1 (rule R32). -/
abbrev MissThreshold := { n : Nat // 1 ≤ n }

/-- The configuration inputs of rule R32. -/
structure Configuration where
  forwardingEnabled : Bool
  stallsEnabled : Bool
  branchPredictionMode : PredictionMode
  stateMachineInitialPrediction : InitialPrediction
  /-- Held and reported, read by no rule (R268). -/
  missThreshold : MissThreshold
  deriving DecidableEq, Repr

/-- The power-on configuration of rules R32 and R362. -/
def Configuration.powerOn : Configuration :=
  { forwardingEnabled := false
    stallsEnabled := true
    branchPredictionMode := .none
    stateMachineInitialPrediction := .notTaken
    missThreshold := ⟨1, Nat.le_refl 1⟩ }

end Sys2Proof
end

