-- ==== Sys2Proof/Machine/State.lean ====
section
/-! DEFINITION. The state of the block (spec rules R20 to R49) and its value after reset. Data only:
the register file, the data memory, the fetch cursor, the five stage slots, the two stall counters,
the predictor counter, the miss counter, the cycle counter and the mode; beside them the inputs a tick
reads and never writes (the instruction store, the configuration, the parameters). -/

namespace Sys2Proof.Machine

/-- Why a step could stop with a fault. It has no constructor: the hardware raises nothing (R330), every
condition that traps elsewhere has a silent substitute (R331), and a model must not add a fault state
for a violated invariant (R335). Nothing raises a fault, which is safe: the spec names none. -/
inductive Fault where
  deriving DecidableEq, Repr

/-- Why `exec` could refuse an instruction. -/
inductive Refusal where
  /-- Raised by an arm of `exec` that has no meaning yet, with the table's mnemonic. Safe: the model
  stops where the hardware goes on. No arm raises it. -/
  | notModelled (mnemonic : String)
  deriving DecidableEq, Repr

/-- Data memory as bytes by address, strictly rising, a byte that is 0 not listed: an unlisted byte
reads 0, the reset contents of rule R41. -/
abbrev Memory := List Host.Cell

/-- The canonical form of a memory. -/
abbrev Memory.wf (m : Memory) : Prop :=
  m.Pairwise (fun p q => p.1 < q.1) ∧ ∀ c ∈ m, c.2 ≠ 0#8

/-- The run states of rule R30. -/
inductive Mode where
  | running
  | paused
  | finished
  deriving DecidableEq, Repr

/-- The 2-bit saturating counter of rule R35, its four states by name. -/
inductive BpCounter where
  | stronglyNotTaken
  | weaklyNotTaken
  | weaklyTaken
  | stronglyTaken
  deriving DecidableEq, Repr

/-- The stages of the pipeline (R36). -/
inductive Stage where
  | IF
  | ID
  | EX
  | MEM
  | WB
  deriving DecidableEq, Repr

/-- A latch record (R37). The descriptor is a function of `word`, `pc` and `idx` and is recomputed where
it is used, as R37 allows. A field no stage has written yet is zero and is read by no rule (R38). -/
structure Latch where
  /-- Program index. -/
  idx : Nat
  /-- The instruction's own address. -/
  pc : Word
  /-- Raw bits. -/
  word : Word
  /-- Stall count, written on entry to ID. -/
  stall : Nat := 0
  /-- `x[rs]` and `x[rt]`, written on leaving ID. -/
  opA : Word := 0#32
  opB : Word := 0#32
  /-- Predicted outcome and target, written on leaving ID (conditional branches). -/
  predTaken : Bool := false
  predTarget : Word := 0#32
  /-- ALU result, effective address or link value, written on leaving EX. -/
  result : Word := 0#32
  /-- Data of a store, written on leaving EX. -/
  storeVal : Word := 0#32
  /-- Branch outcome, written on leaving EX. -/
  taken : Bool := false
  /-- What WB commits, written on leaving MEM. -/
  wbValue : Word := 0#32
  deriving DecidableEq, Repr

/-- The state. `params`, `cfg` and `prog` are inputs of the tick (R8, R32, R40); the rest is what rule
R49 lists. -/
structure State where
  /-- The parameters of rule R8. -/
  params : Params
  /-- The configuration inputs of rule R32. -/
  cfg : Configuration
  /-- The instruction store (R40); its length is `N`. -/
  prog : List Word
  /-- The register file (R20); cell 0 is never read or written (R21). -/
  regs : Vector Word numRegs
  /-- The data memory (R41), by byte address. -/
  mem : Memory
  /-- The fetch cursor (R24). -/
  cursor : Word
  /-- The pipeline latch array (R36). -/
  slotIF : Option Latch
  slotID : Option Latch
  slotEX : Option Latch
  slotMEM : Option Latch
  slotWB : Option Latch
  /-- The data-stall counter (R33). -/
  dataStall : Nat
  /-- The misprediction-stall counter (R34). -/
  mispStall : Nat
  /-- The predictor counter (R35). -/
  bpCounter : BpCounter
  /-- The branch-miss count (R39). -/
  missCount : Nat
  /-- The cycle number (R31). -/
  cycle : Nat
  /-- The run state (R30). -/
  mode : Mode
  deriving DecidableEq, Repr

/-- The predictor counter after reset (R264). -/
def initialCounter : InitialPrediction → BpCounter
  | .notTaken => .stronglyNotTaken
  | .taken => .stronglyTaken

/-- The register file after reset (R49): zero, but the stack pointer. -/
def resetRegs (p : Params) : Vector Word numRegs :=
  (Vector.replicate numRegs 0#32).set p.spReg.toNat p.spInit p.spReg.isLt

/-- `reset_state(cfg, program)` of rule R360, with the mode the command leaves. -/
def State.initial (p : Params) (cfg : Configuration) (prog : List Word) (mode : Mode) : State :=
  { params := p
    cfg := cfg
    prog := prog
    regs := resetRegs p
    mem := []
    cursor := p.programBase
    slotIF := none
    slotID := none
    slotEX := none
    slotMEM := none
    slotWB := none
    dataStall := 0
    mispStall := 0
    bpCounter := initialCounter cfg.stateMachineInitialPrediction
    missCount := 0
    cycle := 0
    mode := mode }

/-- The state after reset and at power-on (R49, R362): no program, paused, the power-on configuration,
the default parameters of rule R8. -/
def State.reset : State := State.initial Params.default Configuration.powerOn [] .paused

end Sys2Proof.Machine
end

