-- ==== Sys2Proof/Machine/Ops.lean ====
section
/-! DEFINITION. The named operations over registers, data memory, the cursor and the latch array (spec
rules R11, R21, R27, R62 to R67, R296). There is no operation for taking an exception and none for
returning from one: the hardware has neither (R330, R333). -/

namespace Sys2Proof.Machine

/-! ### The register file (R20, R21) -/

/-- `x[r]`: register 0 reads 0 in every state (R21). -/
def State.readReg (s : State) (r : Reg) : Word :=
  if r = 0#5 then 0#32 else s.regs[r.toNat]'r.isLt

/-- `x[r] <- v`: no effect when `r = 0` (R11, R21). -/
def State.writeReg (s : State) (r : Reg) (v : Word) : State :=
  if r = 0#5 then s else { s with regs := s.regs.set r.toNat v r.isLt }

/-- Write to a destination that may be none (R286). -/
def State.writeDest (s : State) (dest : Option Reg) (v : Word) : State :=
  match dest with
  | none => s
  | some r => s.writeReg r v

/-! ### Bytes of the data memory (R41)

`readByte` and `writeByte` are the only access to the list; a write keeps its canonical form. -/

/-- The byte at an address; a byte that is not listed is 0 (R41). -/
def Memory.readByte : Memory → Nat → Byte
  | [], _ => 0#8
  | (k, c) :: t, a => if a = k then c else Memory.readByte t a

/-- The memory with one byte replaced. -/
def Memory.writeByte : Memory → Nat → Byte → Memory
  | [], a, b => if b = 0#8 then [] else [(a, b)]
  | (k, c) :: t, a, b =>
    if a < k then (if b = 0#8 then (k, c) :: t else (a, b) :: (k, c) :: t)
    else if a = k then (if b = 0#8 then t else (a, b) :: t)
    else (k, c) :: Memory.writeByte t a b

/-- Where the byte with bits `8j+7 .. 8j` of an `n`-byte value lies, as an offset from the value's
lowest address (R62). -/
def laneOffset (order : ByteOrder) (n j : Nat) : Nat :=
  match order with
  | .little => j
  | .big => n - 1 - j

/-- The address with its low `log2(n)` bits cleared (R64). -/
def alignedAddr (w : Width) (addr : Word) : Word :=
  match w with
  | .byte => addr
  | .half => addr &&& 0xFFFFFFFE#32
  | .word => addr &&& 0xFFFFFFFC#32

/-- Whether the aligned address lies in the data memory (R65). -/
def inBounds (memWords : Nat) (w : Width) (addr : Word) : Bool :=
  decide ((alignedAddr w addr).toNat / 4 < memWords)

/-- The byte with bits `8j+7 .. 8j` of the `n`-byte value at address `a`. -/
def Memory.lane (m : Memory) (order : ByteOrder) (n a j : Nat) : Byte :=
  m.readByte (a + laneOffset order n j)

/-- The `8n`-bit value at the aligned address `a`, zero-extended to 32 bits. -/
def Memory.readValue (m : Memory) (order : ByteOrder) (w : Width) (a : Nat) : Word :=
  match w with
  | .byte => (m.lane order 1 a 0).setWidth 32
  | .half => (m.lane order 2 a 1 ++ m.lane order 2 a 0).setWidth 32
  | .word => m.lane order 4 a 3 ++ m.lane order 4 a 2 ++ m.lane order 4 a 1 ++ m.lane order 4 a 0

/-- Store the byte with bits `8j+7 .. 8j` of `v`. -/
def Memory.putLane (m : Memory) (order : ByteOrder) (n a j : Nat) (v : Word) : Memory :=
  m.writeByte (a + laneOffset order n j) (v.extractLsb' (8 * j) 8)

/-- Store the low `8n` bits of `v` at the aligned address `a`. -/
def Memory.writeValue (m : Memory) (order : ByteOrder) (w : Width) (a : Nat) (v : Word) : Memory :=
  match w with
  | .byte => m.putLane order 1 a 0 v
  | .half => (m.putLane order 2 a 0 v).putLane order 2 a 1 v
  | .word =>
    (((m.putLane order 4 a 0 v).putLane order 4 a 1 v).putLane order 4 a 2 v).putLane order 4 a 3 v

/-- The word `mem[k]` of rule R41. -/
def State.memWord (s : State) (k : Nat) : Word :=
  s.mem.readValue s.params.byteOrder .word (4 * k)

/-- `MemRead(addr, n)` of rule R66, its `8n` bits zero-extended: 0 when out of bounds (R65). -/
def State.memRead (s : State) (w : Width) (addr : Word) : Word :=
  if inBounds s.params.memWords w addr then
    s.mem.readValue s.params.byteOrder w (alignedAddr w addr).toNat
  else 0#32

/-- `MemWrite(addr, n, v)` of rule R67, `v` the low `8n` bits: dropped when out of bounds (R65). -/
def State.memWrite (s : State) (w : Width) (addr v : Word) : State :=
  if inBounds s.params.memWords w addr then
    { s with mem := s.mem.writeValue s.params.byteOrder w (alignedAddr w addr).toNat v }
  else s

/-! ### The instruction store and the cursor (R27, R40) -/

/-- `N`, the number of instructions of the program. -/
def State.programLength (s : State) : Nat := s.prog.length

/-- The byte address of program entry `k`. -/
def State.entryAddress (s : State) (k : Nat) : Word :=
  s.params.programBase + BitVec.ofNat 32 (4 * k)

/-- `index_of(a)` (R27): the program entry whose address is `a`, if there is one. -/
def State.indexOf (s : State) (a : Word) : Option Nat :=
  let base := s.params.programBase.toNat
  if base ≤ a.toNat ∧ (a.toNat - base) % 4 = 0 ∧ (a.toNat - base) / 4 < s.programLength then
    some ((a.toNat - base) / 4)
  else none

/-- `past_end(a)` (R27), on natural numbers. -/
def State.pastEnd (s : State) (a : Word) : Bool :=
  decide (s.programLength = 0 ∨
    s.params.programBase.toNat + 4 * (s.programLength - 1) < a.toNat)

/-! ### The latch array (R36, R37, R296) -/

/-- The decoded descriptor of a latch record (R37). -/
def Latch.desc (L : Latch) : Descriptor := decodeUnit L.word L.pc L.idx

/-- The instruction a latch record carries. -/
def Latch.instr (L : Latch) : Instr := decodeWord L.word

/-- The content of a stage slot. -/
def State.slot (s : State) : Stage → Option Latch
  | .IF => s.slotIF
  | .ID => s.slotID
  | .EX => s.slotEX
  | .MEM => s.slotMEM
  | .WB => s.slotWB

/-- Whether a slot holds a record of program entry `k`. -/
def holds (slot : Option Latch) (k : Nat) : Bool :=
  match slot with
  | none => false
  | some L => L.idx == k

/-- `flush()` (R296). -/
def State.flush (s : State) : State :=
  { s with slotIF := none, slotID := none, dataStall := 0 }

/-- No instruction occupies any stage (R298). -/
def State.empty (s : State) : Bool :=
  s.slotIF.isNone && s.slotID.isNone && s.slotEX.isNone && s.slotMEM.isNone && s.slotWB.isNone

end Sys2Proof.Machine
end

