-- ==== Sys2Proof/Machine/Hazard.lean ====
section
/-! DEFINITION. hazard_detector, forwarding_resolver and register_forwarding_mux (spec rules R230 to
R248). Only the stall count and the mux influence execution; the records are for the snapshot (R242). -/

namespace Sys2Proof.Machine

/-- The classification of rule R240. -/
inductive HazardType where
  | none
  | raw
  | waw
  | control
  deriving DecidableEq, Repr

/-- A forwarding record (R243): producer and consumer index, producer and consumer stage, register. -/
structure ForwardingRecord where
  producer : Nat
  consumer : Nat
  producerStage : Stage
  consumerStage : Stage
  register : Reg
  deriving DecidableEq, Repr

/-- A hazard record (R240) with its forwarding records (R243), without the free-text rationale. -/
structure HazardRecord where
  type : HazardType
  canForward : Bool
  stall : Nat
  records : List ForwardingRecord
  deriving DecidableEq, Repr

/-- The record of an instruction without a hazard, and of every instruction when stalling is off
(R236). -/
def HazardRecord.clear : HazardRecord :=
  { type := .none, canForward := false, stall := 0, records := [] }

/-- `desc(k)` of rule R231, for a program entry that exists. -/
def State.descAt (s : State) (k : Nat) : Option Descriptor :=
  match s.prog[k]? with
  | none => none
  | some w => some (decodeUnit w (s.entryAddress k) k)

/-- The stall count a RAW pair needs: the policy table of rule R234. -/
def stallNeed (forwarding : Bool) (producerIsLoad : Bool) (d : Nat) : Nat :=
  if forwarding then (if producerIsLoad ∧ d = 1 then 1 else 0) else 3 - d

/-- The stage a forwarded value comes from (R243): EX for a producer at distance 1 that is not a load,
MEM otherwise. -/
def producerStage (producerIsLoad : Bool) (d : Nat) : Stage :=
  if d = 1 ∧ !producerIsLoad then .EX else .MEM

/-- What one preceding instruction contributes (the loop body of rule R231). -/
structure Finding where
  raw : Bool
  waw : Bool
  need : Nat
  records : List ForwardingRecord
  deriving DecidableEq, Repr

/-- Nothing found: no such instruction, or one without a destination. -/
def Finding.nothing : Finding := { raw := false, waw := false, need := 0, records := [] }

/-- The loop body of rule R231 for the producer `P` at distance `d` before the consumer `C`. -/
def examine (forwarding : Bool) (C P : Descriptor) (d : Nat) : Finding :=
  match P.dest with
  | none => Finding.nothing
  | some r =>
    let raw := decide (r ∈ C.reads)
    { raw := raw
      waw := decide (C.dest = some r)
      need := if raw then stallNeed forwarding P.isLoad d else 0
      records :=
        if raw && forwarding then
          [{ producer := P.idx, consumer := C.idx, producerStage := producerStage P.isLoad d,
             consumerStage := .EX, register := r }]
        else [] }

/-- The finding for the instruction `d` places before entry `i`, if there is one (R233). -/
def State.findingAt (s : State) (C : Descriptor) (i d : Nat) : Finding :=
  if i < d then Finding.nothing
  else
    match s.descAt (i - d) with
    | none => Finding.nothing
    | some P => examine s.cfg.forwardingEnabled C P d

/-- The kinds rule R239 classifies CONTROL when nothing else was found. -/
def Kind.isControl (k : Kind) : Bool :=
  k == .conditionalBranch || k == .jump || k == .jumpRegister

/-- `hazard(i, cfg)` of rule R231: a function of the instruction store and two configuration bits that
never looks at the pipeline (R230). An index outside the program has no hazard. -/
def State.hazard (s : State) (i : Nat) : HazardRecord :=
  if s.cfg.stallsEnabled then
    match s.descAt i with
    | none => HazardRecord.clear
    | some C =>
      let f1 := s.findingAt C i 1
      let f2 := s.findingAt C i 2
      let raw := f1.raw || f2.raw
      { type :=
          if raw then .raw
          else if f1.waw || f2.waw then .waw
          else if C.kind.isControl then .control
          else .none
        canForward := raw && s.cfg.forwardingEnabled
        stall := max f1.need f2.need
        records := f1.records ++ f2.records }
  else HazardRecord.clear

/-- `fwd(r, v, P1, P2, cfg)` of rule R246: `P1` and `P2` are the occupants of MEM and WB at the start of
the tick, the nearer producer has priority, a load in `P1` has no value yet. -/
def forward (enabled : Bool) (r : Reg) (v : Word) (P1 P2 : Option Latch) : Word :=
  if enabled = false ∨ r = 0#5 then v
  else
    match P1 with
    | some L1 =>
      if L1.desc.dest = some r ∧ L1.desc.isLoad = false then L1.result
      else
        match P2 with
        | some L2 => if L2.desc.dest = some r then L2.wbValue else v
        | none => v
    | none =>
      match P2 with
      | some L2 => if L2.desc.dest = some r then L2.wbValue else v
      | none => v

end Sys2Proof.Machine
end

