-- ==== Sys2Proof/Machine/Predictor.lean ====
section
/-! DEFINITION. branch_predictor (spec rules R260 to R269): one global counter, four modes. -/

namespace Sys2Proof.Machine

/-- The encoding 0 to 3 of rule R35. -/
def BpCounter.toNat : BpCounter → Nat
  | .stronglyNotTaken => 0
  | .weaklyNotTaken => 1
  | .weaklyTaken => 2
  | .stronglyTaken => 3

/-- `update(c, taken)` of rule R263: one state toward the outcome, saturating (R265). -/
def BpCounter.update (c : BpCounter) (taken : Bool) : BpCounter :=
  match c, taken with
  | .stronglyNotTaken, true => .weaklyNotTaken
  | .weaklyNotTaken, true => .weaklyTaken
  | .weaklyTaken, true => .stronglyTaken
  | .stronglyTaken, true => .stronglyTaken
  | .stronglyNotTaken, false => .stronglyNotTaken
  | .weaklyNotTaken, false => .stronglyNotTaken
  | .weaklyTaken, false => .weaklyNotTaken
  | .stronglyTaken, false => .weaklyTaken

/-- `predict(cfg, bpCounter)` of rule R261. -/
def predict (mode : PredictionMode) (c : BpCounter) : Bool :=
  match mode with
  | .none => false
  | .staticNotTaken => false
  | .staticTaken => true
  | .stateMachine => decide (2 ≤ c.toNat)

/-- `bpCounter` on resolution (R261): it moves only in `state-machine` mode. -/
def counterAfter (mode : PredictionMode) (c : BpCounter) (taken : Bool) : BpCounter :=
  match mode with
  | .none => c
  | .staticNotTaken => c
  | .staticTaken => c
  | .stateMachine => c.update taken

/-- `mispredicted(L, taken, actualTarget)` of rule R266. -/
def mispredicted (predTaken : Bool) (predTarget : Word) (taken : Bool) (actualTarget : Word) : Bool :=
  predTaken != taken || (predTaken && predTarget != actualTarget)

end Sys2Proof.Machine
end

