-- ==== Sys2Proof/Machine/Flags.lean ====
section
/-! DEFINITION. Comparisons. The hardware has no flags of any kind (spec rule R28): no condition code,
carry, overflow or status bit is written by any instruction. What other machines take from flags is
here a comparison whose result goes to a general register (R149, R150, R163, R164) or to the branch
test (R202, R203). -/

namespace Sys2Proof.Machine

/-- The 32-bit value 1 or 0 of a set-on-comparison instruction (R149). -/
def truthWord (b : Bool) : Word := if b then 1#32 else 0#32

/-- `s(a) < s(b)`: two's-complement comparison, exact (R149). -/
def lessSigned (a b : Word) : Bool := decide (a.toInt < b.toInt)

/-- `u(a) < u(b)`: unsigned comparison (R150). -/
def lessUnsigned (a b : Word) : Bool := decide (a.toNat < b.toNat)

/-- All 32 bits equal (R202). -/
def sameWord (a b : Word) : Bool := decide (a = b)

end Sys2Proof.Machine
end

