-- ==== Sys2Proof/Machine/Template.lean ====
section
/-! DEFINITION. The shape every instruction rule has (spec rules R12, R140, R160, R181, R187, R202 to
R206, R220): what EX computes from the delivered operands, what MEM does with it, what WB writes. The
pipeline runs the three parts in three ticks (Pipeline.lean); the sequential meaning of an instruction
(rules R12, R201, R372) runs them at once on the register file's own values. Both use the one rule that
each family file gives an instruction. -/

namespace Sys2Proof.Machine

/-- How an instruction steers the cursor (R201). -/
inductive Steer where
  /-- The next instruction is at `pc + 4`. -/
  | fallThrough
  /-- A conditional branch, its condition and its static target. -/
  | branch (taken : Bool) (target : Word)
  /-- An unconditional transfer. -/
  | jump (target : Word)
  deriving DecidableEq, Repr

/-- What EX computes (R289): `L.result`, `L.storeVal` (stores only), and the steering. -/
structure ExOut where
  result : Word
  storeVal : Option Word
  steer : Steer
  deriving DecidableEq, Repr

/-- What MEM does (R288). -/
inductive MemWork where
  /-- `L.wbValue <- L.result`, no access. -/
  | pass
  /-- `L.wbValue <- extend(MemRead(L.result, n))`. -/
  | load (w : Width) (signed : Bool)
  /-- `MemWrite(L.result, n, L.storeVal)`, and `L.wbValue <- L.result`. -/
  | store (w : Width)
  deriving DecidableEq, Repr

/-- The rule of one instruction, its fields already fixed. -/
structure StageRule where
  /-- EX, from the instruction's own address and the delivered `a` and `b`. -/
  ex : Word → Word → Word → ExOut
  mem : MemWork
  /-- The register WB writes. -/
  dest : Option Reg

/-- The value MEM latches for WB (R288). -/
def State.memValue (s : State) (work : MemWork) (result : Word) : Word :=
  match work with
  | .pass => result
  | .load w signed => extendLoaded w signed (s.memRead w result)
  | .store _ => result

/-- The data memory access of MEM (R288): only a store changes the state. -/
def State.memAccess (s : State) (work : MemWork) (result storeVal : Word) : State :=
  match work with
  | .pass => s
  | .load _ _ => s
  | .store w => s.memWrite w result storeVal

/-- `next`, the address of the instruction executed after this one (R201). -/
def Steer.next (pc : Word) : Steer → Word
  | .fallThrough => nextAddress pc
  | .branch taken target => if taken then target else nextAddress pc
  | .jump target => target

/-- One instruction done at once with operand values `a` and `b`, its own address the cursor (R140,
R160, R181, R187, R201): its memory access, its destination, and `next` in the cursor. The pipeline's
own state is not touched. -/
def runRule (rule : StageRule) (a b : Word) (s : State) : State :=
  let out := rule.ex s.cursor a b
  let value := s.memValue rule.mem out.result
  let s := s.memAccess rule.mem out.result (out.storeVal.getD 0#32)
  let s := s.writeDest rule.dest value
  { s with cursor := out.steer.next s.cursor }

/-- The sequential meaning of an instruction (R12, R372): the operands are `x[rs]` and `x[rt]`. -/
def runSequential (rs rt : Reg) (rule : StageRule) (s : State) :
    Host.Outcome State Fault Refusal :=
  .next (runRule rule (s.readReg rs) (s.readReg rt) s)

/-! ### The templates -/

/-- The ALU template of rules R140 and R160. -/
def aluRule (dest : Reg) (f : Word → Word → Word) : StageRule :=
  { ex := fun _ a b => { result := f a b, storeVal := none, steer := .fallThrough }
    mem := .pass
    dest := destField dest }

/-- The load template of rule R181. -/
def loadRule (rt : Reg) (imm : Imm16) (w : Width) (signed : Bool) : StageRule :=
  { ex := fun _ a _ =>
      { result := effectiveAddress a imm, storeVal := none, steer := .fallThrough }
    mem := .load w signed
    dest := destField rt }

/-- The store template of rule R187. -/
def storeRule (imm : Imm16) (w : Width) : StageRule :=
  { ex := fun _ a b =>
      { result := effectiveAddress a imm, storeVal := some b, steer := .fallThrough }
    mem := .store w
    dest := none }

/-- The conditional branch template of rules R202 and R203. -/
def branchRule (imm : Imm16) (cond : Word → Word → Bool) : StageRule :=
  { ex := fun pc a b =>
      { result := 0#32, storeVal := none, steer := .branch (cond a b) (branchTarget pc imm) }
    mem := .pass
    dest := none }

/-- The rule of an instruction that does nothing (R220). -/
def inertRule : StageRule :=
  { ex := fun _ _ _ => { result := 0#32, storeVal := none, steer := .fallThrough }
    mem := .pass
    dest := none }

end Sys2Proof.Machine
end

