-- ==== Sys2Proof/Machine/AluImmediate.lean ====
section
/-! DEFINITION. Immediate ALU instructions and LUI (spec rules R160 to R169). -/

namespace Sys2Proof.Machine

/-! ### Functions -/

/-- R161: `a + imm`, `imm` sign-extended. -/
def aluAddi (imm : Imm16) (a : Word) : Word := a + signImm imm
/-- R162: `a + imm`, `imm` sign-extended too. -/
def aluAddiu (imm : Imm16) (a : Word) : Word := a + signImm imm
/-- R163: signed comparison with the sign-extended immediate. -/
def aluSlti (imm : Imm16) (a : Word) : Word := truthWord (lessSigned a (signImm imm))
/-- R164: unsigned comparison with the sign-extended immediate. -/
def aluSltiu (imm : Imm16) (a : Word) : Word := truthWord (lessUnsigned a (signImm imm))
/-- R165: AND with the zero-extended immediate. -/
def aluAndi (imm : Imm16) (a : Word) : Word := a &&& zeroImm imm
/-- R166: OR with the zero-extended immediate. -/
def aluOri (imm : Imm16) (a : Word) : Word := a ||| zeroImm imm
/-- R167: XOR with the zero-extended immediate. -/
def aluXori (imm : Imm16) (a : Word) : Word := a ^^^ zeroImm imm
/-- R168: the immediate in the upper half. -/
def aluLui (imm : Imm16) : Word := upperImm imm

/-! ### Rules -/

def ruleAddi (rt : Reg) (imm : Imm16) : StageRule := aluRule rt (fun a _ => aluAddi imm a)
def ruleAddiu (rt : Reg) (imm : Imm16) : StageRule := aluRule rt (fun a _ => aluAddiu imm a)
def ruleSlti (rt : Reg) (imm : Imm16) : StageRule := aluRule rt (fun a _ => aluSlti imm a)
def ruleSltiu (rt : Reg) (imm : Imm16) : StageRule := aluRule rt (fun a _ => aluSltiu imm a)
def ruleAndi (rt : Reg) (imm : Imm16) : StageRule := aluRule rt (fun a _ => aluAndi imm a)
def ruleOri (rt : Reg) (imm : Imm16) : StageRule := aluRule rt (fun a _ => aluOri imm a)
def ruleXori (rt : Reg) (imm : Imm16) : StageRule := aluRule rt (fun a _ => aluXori imm a)
def ruleLui (rt : Reg) (imm : Imm16) : StageRule := aluRule rt (fun _ _ => aluLui imm)

/-! ### Sequential meanings -/

/-- R161. -/
def execAddi (rt rs : Reg) (imm : Imm16) (s : State) : Host.Outcome State Fault Refusal :=
  runSequential rs 0#5 (ruleAddi rt imm) s
/-- R162. -/
def execAddiu (rt rs : Reg) (imm : Imm16) (s : State) : Host.Outcome State Fault Refusal :=
  runSequential rs 0#5 (ruleAddiu rt imm) s
/-- R163. -/
def execSlti (rt rs : Reg) (imm : Imm16) (s : State) : Host.Outcome State Fault Refusal :=
  runSequential rs 0#5 (ruleSlti rt imm) s
/-- R164. -/
def execSltiu (rt rs : Reg) (imm : Imm16) (s : State) : Host.Outcome State Fault Refusal :=
  runSequential rs 0#5 (ruleSltiu rt imm) s
/-- R165. -/
def execAndi (rt rs : Reg) (imm : Imm16) (s : State) : Host.Outcome State Fault Refusal :=
  runSequential rs 0#5 (ruleAndi rt imm) s
/-- R166. -/
def execOri (rt rs : Reg) (imm : Imm16) (s : State) : Host.Outcome State Fault Refusal :=
  runSequential rs 0#5 (ruleOri rt imm) s
/-- R167. -/
def execXori (rt rs : Reg) (imm : Imm16) (s : State) : Host.Outcome State Fault Refusal :=
  runSequential rs 0#5 (ruleXori rt imm) s
/-- R168. -/
def execLui (rt : Reg) (imm : Imm16) (s : State) : Host.Outcome State Fault Refusal :=
  runSequential 0#5 0#5 (ruleLui rt imm) s

end Sys2Proof.Machine
end

