-- ==== Sys2Proof/Machine/AluRType.lean ====
section
/-! DEFINITION. R-type ALU instructions (spec rules R140 to R154). For each: the function `f` of its
rule, the rule, and its sequential meaning. None traps and none writes a flag (R154). -/

namespace Sys2Proof.Machine

/-! ### Functions -/

/-- R141: `a + b` modulo `2^32`. -/
def aluAdd (a b : Word) : Word := a + b
/-- R142: `a + b` modulo `2^32`. -/
def aluAddu (a b : Word) : Word := a + b
/-- R143: `a - b` modulo `2^32`. -/
def aluSub (a b : Word) : Word := a - b
/-- R144: `a - b` modulo `2^32`. -/
def aluSubu (a b : Word) : Word := a - b
/-- R145: bitwise AND. -/
def aluAnd (a b : Word) : Word := a &&& b
/-- R146: bitwise OR. -/
def aluOr (a b : Word) : Word := a ||| b
/-- R147: bitwise XOR. -/
def aluXor (a b : Word) : Word := a ^^^ b
/-- R148: NOT (a OR b). -/
def aluNor (a b : Word) : Word := ~~~(a ||| b)
/-- R149: 1 when `a` is less than `b` as signed integers. -/
def aluSlt (a b : Word) : Word := truthWord (lessSigned a b)
/-- R150: 1 when `a` is less than `b` as unsigned integers. -/
def aluSltu (a b : Word) : Word := truthWord (lessUnsigned a b)
/-- R151: left shift of `b`, zeros in at the right. -/
def aluSll (shamt : Shamt) (b : Word) : Word := b <<< shamt.toNat
/-- R152: right shift of `b`, zeros in at the left. -/
def aluSrl (shamt : Shamt) (b : Word) : Word := b >>> shamt.toNat
/-- R153: right shift of `b`, bit 31 copied in at the left. -/
def aluSra (shamt : Shamt) (b : Word) : Word := b.sshiftRight shamt.toNat

/-! ### Rules -/

def ruleAdd (rd : Reg) : StageRule := aluRule rd aluAdd
def ruleAddu (rd : Reg) : StageRule := aluRule rd aluAddu
def ruleSub (rd : Reg) : StageRule := aluRule rd aluSub
def ruleSubu (rd : Reg) : StageRule := aluRule rd aluSubu
def ruleAnd (rd : Reg) : StageRule := aluRule rd aluAnd
def ruleOr (rd : Reg) : StageRule := aluRule rd aluOr
def ruleXor (rd : Reg) : StageRule := aluRule rd aluXor
def ruleNor (rd : Reg) : StageRule := aluRule rd aluNor
def ruleSlt (rd : Reg) : StageRule := aluRule rd aluSlt
def ruleSltu (rd : Reg) : StageRule := aluRule rd aluSltu
def ruleSll (rd : Reg) (shamt : Shamt) : StageRule := aluRule rd (fun _ b => aluSll shamt b)
def ruleSrl (rd : Reg) (shamt : Shamt) : StageRule := aluRule rd (fun _ b => aluSrl shamt b)
def ruleSra (rd : Reg) (shamt : Shamt) : StageRule := aluRule rd (fun _ b => aluSra shamt b)

/-! ### Sequential meanings -/

/-- R141. -/
def execAdd (rd rs rt : Reg) (s : State) : Host.Outcome State Fault Refusal :=
  runSequential rs rt (ruleAdd rd) s
/-- R142. -/
def execAddu (rd rs rt : Reg) (s : State) : Host.Outcome State Fault Refusal :=
  runSequential rs rt (ruleAddu rd) s
/-- R143. -/
def execSub (rd rs rt : Reg) (s : State) : Host.Outcome State Fault Refusal :=
  runSequential rs rt (ruleSub rd) s
/-- R144. -/
def execSubu (rd rs rt : Reg) (s : State) : Host.Outcome State Fault Refusal :=
  runSequential rs rt (ruleSubu rd) s
/-- R145. -/
def execAnd (rd rs rt : Reg) (s : State) : Host.Outcome State Fault Refusal :=
  runSequential rs rt (ruleAnd rd) s
/-- R146. -/
def execOr (rd rs rt : Reg) (s : State) : Host.Outcome State Fault Refusal :=
  runSequential rs rt (ruleOr rd) s
/-- R147. -/
def execXor (rd rs rt : Reg) (s : State) : Host.Outcome State Fault Refusal :=
  runSequential rs rt (ruleXor rd) s
/-- R148. -/
def execNor (rd rs rt : Reg) (s : State) : Host.Outcome State Fault Refusal :=
  runSequential rs rt (ruleNor rd) s
/-- R149. -/
def execSlt (rd rs rt : Reg) (s : State) : Host.Outcome State Fault Refusal :=
  runSequential rs rt (ruleSlt rd) s
/-- R150. -/
def execSltu (rd rs rt : Reg) (s : State) : Host.Outcome State Fault Refusal :=
  runSequential rs rt (ruleSltu rd) s
/-- R151: the `rs` field is ignored, so no operand is taken from it. -/
def execSll (rd rt : Reg) (shamt : Shamt) (s : State) : Host.Outcome State Fault Refusal :=
  runSequential 0#5 rt (ruleSll rd shamt) s
/-- R152. -/
def execSrl (rd rt : Reg) (shamt : Shamt) (s : State) : Host.Outcome State Fault Refusal :=
  runSequential 0#5 rt (ruleSrl rd shamt) s
/-- R153. -/
def execSra (rd rt : Reg) (shamt : Shamt) (s : State) : Host.Outcome State Fault Refusal :=
  runSequential 0#5 rt (ruleSra rd shamt) s

end Sys2Proof.Machine
end

