-- ==== Sys2Proof/Machine/BranchJump.lean ====
section
/-! DEFINITION. Control transfer (spec rules R200 to R208). There is no delay slot: `next` is the
instruction executed after this one, and the link value is `pc + 4` (R200). What the pipeline adds when
these resolve in EX (redirect, flush, prediction, stall counter) is in Pipeline.lean (R289, R290). -/

namespace Sys2Proof.Machine

/-! ### Rules -/

/-- R202: taken when all 32 bits are equal. -/
def ruleBeq (imm : Imm16) : StageRule := branchRule imm (fun a b => sameWord a b)
/-- R203: taken when some bit differs. -/
def ruleBne (imm : Imm16) : StageRule := branchRule imm (fun a b => !sameWord a b)
/-- R204. -/
def ruleJ (index : Index26) : StageRule :=
  { ex := fun pc _ _ =>
      { result := 0#32, storeVal := none, steer := .jump (jumpTarget pc index) }
    mem := .pass
    dest := none }
/-- R205: as `j`, and `pc + 4` goes to register 31. -/
def ruleJal (index : Index26) : StageRule :=
  { ex := fun pc _ _ =>
      { result := nextAddress pc, storeVal := none, steer := .jump (jumpTarget pc index) }
    mem := .pass
    dest := some 31#5 }
/-- R206: the cursor takes the value delivered for `rs`, whatever it is. -/
def ruleJr : StageRule :=
  { ex := fun _ a _ => { result := 0#32, storeVal := none, steer := .jump a }
    mem := .pass
    dest := none }

/-! ### Sequential meanings (R201) -/

/-- R202. -/
def execBeq (rs rt : Reg) (imm : Imm16) (s : State) : Host.Outcome State Fault Refusal :=
  runSequential rs rt (ruleBeq imm) s
/-- R203. -/
def execBne (rs rt : Reg) (imm : Imm16) (s : State) : Host.Outcome State Fault Refusal :=
  runSequential rs rt (ruleBne imm) s
/-- R204. -/
def execJ (index : Index26) (s : State) : Host.Outcome State Fault Refusal :=
  runSequential 0#5 0#5 (ruleJ index) s
/-- R205. -/
def execJal (index : Index26) (s : State) : Host.Outcome State Fault Refusal :=
  runSequential 0#5 0#5 (ruleJal index) s
/-- R206. -/
def execJr (rs : Reg) (s : State) : Host.Outcome State Fault Refusal :=
  runSequential rs 0#5 ruleJr s

end Sys2Proof.Machine
end

