-- ==== Sys2Proof/Machine/LoadStore.lean ====
section
/-! DEFINITION. Loads and stores (spec rules R180 to R190). A misaligned address is aligned down (R64),
a load out of bounds reads 0 and a store out of bounds is dropped (R65): no access stops the machine. -/

namespace Sys2Proof.Machine

/-! ### Rules -/

def ruleLb (rt : Reg) (imm : Imm16) : StageRule := loadRule rt imm .byte true
def ruleLh (rt : Reg) (imm : Imm16) : StageRule := loadRule rt imm .half true
def ruleLw (rt : Reg) (imm : Imm16) : StageRule := loadRule rt imm .word false
def ruleLbu (rt : Reg) (imm : Imm16) : StageRule := loadRule rt imm .byte false
def ruleLhu (rt : Reg) (imm : Imm16) : StageRule := loadRule rt imm .half false
def ruleSb (imm : Imm16) : StageRule := storeRule imm .byte
def ruleSh (imm : Imm16) : StageRule := storeRule imm .half
def ruleSw (imm : Imm16) : StageRule := storeRule imm .word

/-! ### Sequential meanings -/

/-- R182: a byte, sign-extended. -/
def execLb (rt rs : Reg) (imm : Imm16) (s : State) : Host.Outcome State Fault Refusal :=
  runSequential rs 0#5 (ruleLb rt imm) s
/-- R183: a halfword, sign-extended. -/
def execLh (rt rs : Reg) (imm : Imm16) (s : State) : Host.Outcome State Fault Refusal :=
  runSequential rs 0#5 (ruleLh rt imm) s
/-- R184: a word. -/
def execLw (rt rs : Reg) (imm : Imm16) (s : State) : Host.Outcome State Fault Refusal :=
  runSequential rs 0#5 (ruleLw rt imm) s
/-- R185: a byte, zero-extended. -/
def execLbu (rt rs : Reg) (imm : Imm16) (s : State) : Host.Outcome State Fault Refusal :=
  runSequential rs 0#5 (ruleLbu rt imm) s
/-- R186: a halfword, zero-extended. -/
def execLhu (rt rs : Reg) (imm : Imm16) (s : State) : Host.Outcome State Fault Refusal :=
  runSequential rs 0#5 (ruleLhu rt imm) s
/-- R188: the low byte of `x[rt]`. -/
def execSb (rt rs : Reg) (imm : Imm16) (s : State) : Host.Outcome State Fault Refusal :=
  runSequential rs rt (ruleSb imm) s
/-- R189: the low halfword of `x[rt]`. -/
def execSh (rt rs : Reg) (imm : Imm16) (s : State) : Host.Outcome State Fault Refusal :=
  runSequential rs rt (ruleSh imm) s
/-- R190: all of `x[rt]`. -/
def execSw (rt rs : Reg) (imm : Imm16) (s : State) : Host.Outcome State Fault Refusal :=
  runSequential rs rt (ruleSw imm) s

end Sys2Proof.Machine
end

