-- ==== Sys2Proof/Machine/Unsupported.lean ====
section
/-! DEFINITION. The catch-all (spec rules R100, R220, R222): a word that selects no instruction is an
instruction without effect. It occupies the stages like any other and only advances the cursor. -/

namespace Sys2Proof.Machine

/-- R220. -/
def ruleUnsupported : StageRule := inertRule

/-- R220, R372: no operand, no access, no destination; `next` is `pc + 4`. -/
def execUnsupported (_word : Word) (s : State) : Host.Outcome State Fault Refusal :=
  runSequential 0#5 0#5 ruleUnsupported s

end Sys2Proof.Machine
end

