-- ==== Sys2Proof/Machine/RuleOf.lean ====
section
/-! DEFINITION. The rule the pipeline runs for an instruction: the same definition its sequential
meaning is made of (spec rules R12, R289). -/

namespace Sys2Proof.Machine

/-- The rule of every instruction. -/
def ruleOf : Instr → StageRule
  | .sll rd _ shamt => ruleSll rd shamt
  | .srl rd _ shamt => ruleSrl rd shamt
  | .sra rd _ shamt => ruleSra rd shamt
  | .jr _ => ruleJr
  | .add rd _ _ => ruleAdd rd
  | .addu rd _ _ => ruleAddu rd
  | .sub rd _ _ => ruleSub rd
  | .subu rd _ _ => ruleSubu rd
  | .and rd _ _ => ruleAnd rd
  | .or rd _ _ => ruleOr rd
  | .xor rd _ _ => ruleXor rd
  | .nor rd _ _ => ruleNor rd
  | .slt rd _ _ => ruleSlt rd
  | .sltu rd _ _ => ruleSltu rd
  | .j index => ruleJ index
  | .jal index => ruleJal index
  | .beq _ _ imm => ruleBeq imm
  | .bne _ _ imm => ruleBne imm
  | .addi rt _ imm => ruleAddi rt imm
  | .addiu rt _ imm => ruleAddiu rt imm
  | .slti rt _ imm => ruleSlti rt imm
  | .sltiu rt _ imm => ruleSltiu rt imm
  | .andi rt _ imm => ruleAndi rt imm
  | .ori rt _ imm => ruleOri rt imm
  | .xori rt _ imm => ruleXori rt imm
  | .lui rt imm => ruleLui rt imm
  | .lb rt _ imm => ruleLb rt imm
  | .lh rt _ imm => ruleLh rt imm
  | .lw rt _ imm => ruleLw rt imm
  | .lbu rt _ imm => ruleLbu rt imm
  | .lhu rt _ imm => ruleLhu rt imm
  | .sb _ _ imm => ruleSb imm
  | .sh _ _ imm => ruleSh imm
  | .sw _ _ imm => ruleSw imm
  | .unsupported _ => ruleUnsupported

end Sys2Proof.Machine
end

