-- ==== Sys2Proof/Machine/Pipeline.lean ====
section
/-! DEFINITION. fetch_unit, pipeline_latch_array, the stage work and the tick (spec rules R280 to
R301). The stage functions act on the state as the previous one left it; `redirected` is a wire of one
tick, passed from EX through ID to IF (R282). -/

namespace Sys2Proof.Machine

/-! ### writeback_stage and memory_access_unit -/

/-- `doWB` (R286): the only write to `x`. -/
def doWB (s : State) : State :=
  match s.slotWB with
  | none => s
  | some L => { s.writeDest L.desc.dest L.wbValue with slotWB := none }

/-- `doMEM` (R288): the only access to `mem`. -/
def doMEM (s : State) : State :=
  match s.slotMEM with
  | none => s
  | some L =>
    let work := (ruleOf L.instr).mem
    let value := s.memValue work L.result
    { s.memAccess work L.result L.storeVal with
      slotWB := some { L with wbValue := value }
      slotMEM := none }

/-! ### alu_exec and control resolution -/

/-- The value delivered for the `rs` field of the instruction in EX (R289). -/
def deliveredA (s : State) (P1 P2 : Option Latch) (L : Latch) : Word :=
  forward s.cfg.forwardingEnabled L.desc.rs L.opA P1 P2

/-- The value delivered for the `rt` field of the instruction in EX (R289). -/
def deliveredB (s : State) (P1 P2 : Option Latch) (L : Latch) : Word :=
  forward s.cfg.forwardingEnabled L.desc.rt L.opB P1 P2

/-- The redirect of a jump or of a misprediction: the cursor takes the target and the younger
instructions are flushed (R289, R290, R296). -/
def redirect (s : State) (target : Word) : State :=
  { s.flush with cursor := target }

/-- `resolve` of rule R290, less the fields of `L`: the predictor counter moves on every resolution,
the rest happens only on a misprediction. -/
def resolve (s : State) (L : Latch) (taken : Bool) (target : Word) : State × Bool :=
  let actual := (Steer.branch taken target).next L.pc
  let s := { s with bpCounter := counterAfter s.cfg.branchPredictionMode s.bpCounter taken }
  if mispredicted L.predTaken L.predTarget taken actual then
    (redirect { s with missCount := s.missCount + 1, mispStall := s.params.mispredictPenalty } actual,
      true)
  else (s, false)

/-- How the instruction in EX steers the machine (R289, R290). -/
def steerEX (s : State) (L : Latch) (steer : Steer) : State × Bool :=
  match steer with
  | .fallThrough => (s, false)
  | .branch taken target => resolve s L taken target
  | .jump target => (redirect s target, true)

/-- The record that leaves EX (R289, R290). -/
def executed (L : Latch) (out : ExOut) : Latch :=
  { L with
    result := out.result
    storeVal := out.storeVal.getD L.storeVal
    taken :=
      match out.steer with
      | .branch taken _ => taken
      | .fallThrough => L.taken
      | .jump _ => L.taken }

/-- `doEX(P1, P2)` (R289). The second result is the wire `redirected`. -/
def doEX (P1 P2 : Option Latch) (s : State) : State × Bool :=
  match s.slotEX with
  | none => (s, false)
  | some L =>
    let out := (ruleOf L.instr).ex L.pc (deliveredA s P1 P2 L) (deliveredB s P1 P2 L)
    let r := steerEX s L out.steer
    ({ r.1 with slotMEM := some (executed L out), slotEX := none }, r.2)

/-! ### The decode stage -/

/-- The record that leaves ID: both register fields read, and for a conditional branch the prediction
(R292, R262). -/
def decoded (s : State) (L : Latch) : Latch :=
  let L := { L with opA := s.readReg L.desc.rs, opB := s.readReg L.desc.rt }
  if L.desc.isBranch then
    let taken := predict s.cfg.branchPredictionMode s.bpCounter
    { L with
      predTaken := taken
      predTarget := if taken then L.desc.target.getD (nextAddress L.pc) else nextAddress L.pc }
  else L

/-- `doID` (R292): a branch predicted taken redirects the cursor and discards the occupant of IF. -/
def doID (w : State × Bool) : State × Bool :=
  match w.1.slotID with
  | none => w
  | some L =>
    let L := decoded w.1 L
    let s := { w.1 with slotEX := some L, slotID := none }
    if L.desc.isBranch && L.predTaken then
      ({ s with cursor := L.predTarget, slotIF := none }, true)
    else (s, w.2)

/-! ### The fetch stage -/

/-- The occupant of IF enters ID, and the data-stall counter is armed with its stall count (R293). -/
def enterID (s : State) : State :=
  match s.slotIF with
  | none => s
  | some L =>
    let stall := (s.hazard L.idx).stall
    { s with
      dataStall := if 0 < stall then stall else s.dataStall
      slotID := some { L with stall := stall }
      slotIF := none }

/-- The fetch interlock (R294): entry `k` is in ID, EX, MEM or WB. -/
def State.inFlight (s : State) (k : Nat) : Bool :=
  holds s.slotID k || holds s.slotEX k || holds s.slotMEM k || holds s.slotWB k

/-- `fetch` (R294): one aligned word of the instruction store per tick at most. -/
def fetch (s : State) : State :=
  match s.indexOf s.cursor with
  | none => s
  | some k =>
    match s.prog[k]? with
    | none => s
    | some w =>
      if s.inFlight k then s
      else
        { s with
          slotIF := some { idx := k, pc := s.cursor, word := w }
          cursor := nextAddress s.cursor }

/-- `doIF` (R293 to R295): nothing enters ID and nothing is fetched in a tick with a redirect. -/
def doIF (w : State × Bool) : State :=
  if w.2 then w.1 else fetch (enterID w.1)

/-! ### The tick -/

/-- WB, MEM and EX, oldest first (R282). -/
def backEnd (P1 P2 : Option Latch) (s : State) : State × Bool :=
  doEX P1 P2 (doMEM (doWB s))

/-- Steps 1 to 3 of rule R282: a data-stall tick (R283), a misprediction-stall tick (R284), or a full
tick. `P1` and `P2` are the occupants of MEM and WB at its start. -/
def advance (s : State) : State :=
  let P1 := s.slotMEM
  let P2 := s.slotWB
  if 0 < s.dataStall then (backEnd P1 P2 { s with dataStall := s.dataStall - 1 }).1
  else if 0 < s.mispStall then (backEnd P1 P2 { s with mispStall := s.mispStall - 1 }).1
  else doIF (doID (backEnd P1 P2 s))

/-- Step 4 of rule R282: the run is finished when the pipeline is empty and the cursor is past the end
(R298); the finishing tick is not counted (R297). -/
def conclude (s : State) : State :=
  if s.empty && s.pastEnd s.cursor then { s with mode := .finished }
  else { s with cycle := s.cycle + 1 }

/-- The tick body (R282). -/
def tickBody (s : State) : State := conclude (advance s)

/-- The tick (R281): it acts only in `Running`. -/
def tick (s : State) : State :=
  match s.mode with
  | .running => tickBody s
  | .paused => s
  | .finished => s

end Sys2Proof.Machine
end

