-- ==== Sys2Proof/Machine/Loader.lean ====
section
/-! DEFINITION. Placing one instruction so that the very next tick executes it. A program is loaded from
outside the machine by `submit program` (spec rules R40, R45, R363); an instruction then executes in the
tick in which it leaves EX, after it has been fetched and has read its registers (R280, R289, R292). -/

namespace Sys2Proof.Machine

/-- The instruction store with `w` at the entry the cursor names. A cursor that names neither an entry
nor the place just after the last one is moved to a one-word program. -/
def State.storeAtCursor (s : State) (w : Word) : State :=
  let base := s.params.programBase.toNat
  let k := (s.cursor.toNat - base) / 4
  if base ≤ s.cursor.toNat ∧ (s.cursor.toNat - base) % 4 = 0 ∧ k ≤ s.programLength then
    { s with prog := s.prog.take k ++ w :: s.prog.drop (k + 1) }
  else { s with prog := [w], cursor := s.params.programBase }

/-- The instruction at the cursor fetched (R294) and through ID (R292), in EX; nothing younger in the
pipeline and no stall pending. -/
def State.bringToEX (s : State) : State :=
  match s.indexOf s.cursor with
  | none => s
  | some k =>
    match s.prog[k]? with
    | none => s
    | some w =>
      let L : Latch := { idx := k, pc := s.cursor, word := w }
      (doID ({ s with
        slotIF := none
        slotID := some L
        cursor := nextAddress s.cursor
        dataStall := 0
        mispStall := 0 }, false)).1

/-- The instruction with bits `w`, bits above `nbits` zero, about to execute in a running block. -/
def State.placeWord (s : State) (nbits w : Nat) : State :=
  ({ s.storeAtCursor (BitVec.ofNat 32 (w % 2 ^ nbits)) with mode := .running }).bringToEX

end Sys2Proof.Machine
end

