-- ==== Sys2Proof/Machine/Dispatch.lean ====
section
/-! DEFINITION. The sequential meaning of every instruction, one arm each (spec rules R12, R141 to
R153, R161 to R168, R182 to R190, R202 to R206, R220). -/

namespace Sys2Proof.Machine

def exec (i : Instr) (s : State) : Host.Outcome State Fault Refusal :=
  match i with
  | .sll rd rt shamt => Sys2Proof.Machine.execSll rd rt shamt s
  | .srl rd rt shamt => Sys2Proof.Machine.execSrl rd rt shamt s
  | .sra rd rt shamt => Sys2Proof.Machine.execSra rd rt shamt s
  | .jr rs => Sys2Proof.Machine.execJr rs s
  | .add rd rs rt => Sys2Proof.Machine.execAdd rd rs rt s
  | .addu rd rs rt => Sys2Proof.Machine.execAddu rd rs rt s
  | .sub rd rs rt => Sys2Proof.Machine.execSub rd rs rt s
  | .subu rd rs rt => Sys2Proof.Machine.execSubu rd rs rt s
  | .and rd rs rt => Sys2Proof.Machine.execAnd rd rs rt s
  | .or rd rs rt => Sys2Proof.Machine.execOr rd rs rt s
  | .xor rd rs rt => Sys2Proof.Machine.execXor rd rs rt s
  | .nor rd rs rt => Sys2Proof.Machine.execNor rd rs rt s
  | .slt rd rs rt => Sys2Proof.Machine.execSlt rd rs rt s
  | .sltu rd rs rt => Sys2Proof.Machine.execSltu rd rs rt s
  | .j index26 => Sys2Proof.Machine.execJ index26 s
  | .jal index26 => Sys2Proof.Machine.execJal index26 s
  | .beq rs rt imm16 => Sys2Proof.Machine.execBeq rs rt imm16 s
  | .bne rs rt imm16 => Sys2Proof.Machine.execBne rs rt imm16 s
  | .addi rt rs imm16 => Sys2Proof.Machine.execAddi rt rs imm16 s
  | .addiu rt rs imm16 => Sys2Proof.Machine.execAddiu rt rs imm16 s
  | .slti rt rs imm16 => Sys2Proof.Machine.execSlti rt rs imm16 s
  | .sltiu rt rs imm16 => Sys2Proof.Machine.execSltiu rt rs imm16 s
  | .andi rt rs imm16 => Sys2Proof.Machine.execAndi rt rs imm16 s
  | .ori rt rs imm16 => Sys2Proof.Machine.execOri rt rs imm16 s
  | .xori rt rs imm16 => Sys2Proof.Machine.execXori rt rs imm16 s
  | .lui rt imm16 => Sys2Proof.Machine.execLui rt imm16 s
  | .lb rt rs imm16 => Sys2Proof.Machine.execLb rt rs imm16 s
  | .lh rt rs imm16 => Sys2Proof.Machine.execLh rt rs imm16 s
  | .lw rt rs imm16 => Sys2Proof.Machine.execLw rt rs imm16 s
  | .lbu rt rs imm16 => Sys2Proof.Machine.execLbu rt rs imm16 s
  | .lhu rt rs imm16 => Sys2Proof.Machine.execLhu rt rs imm16 s
  | .sb rt rs imm16 => Sys2Proof.Machine.execSb rt rs imm16 s
  | .sh rt rs imm16 => Sys2Proof.Machine.execSh rt rs imm16 s
  | .sw rt rs imm16 => Sys2Proof.Machine.execSw rt rs imm16 s
  | .unsupported word => Sys2Proof.Machine.execUnsupported word s

end Sys2Proof.Machine
end

