-- ==== Sys2Proof/Machine/Sequential.lean ====
section
/-! DEFINITION. The sequential machine of spec rule R372 and the view of the pipeline it is compared
with: registers and memory once the instructions in MEM and WB have completed, and the address of the
next instruction that will execute (rules R12, R201, R248, R372). -/

namespace Sys2Proof.Machine

/-- One step of the sequential machine (R372): the instruction at the cursor by its sequential meaning,
for as long as `index_of` of the cursor is defined. -/
def seqStep (s : State) : Option (Host.Outcome State Fault Refusal) :=
  match s.indexOf s.cursor with
  | none => none
  | some k =>
    match s.prog[k]? with
    | none => none
    | some w => some (exec (decodeWord w) s)

/-- `n` steps of the sequential machine, while it runs. -/
def seqRun : Nat → State → Option State
  | 0, s => some s
  | n + 1, s =>
    match seqStep s with
    | some (.next t) => seqRun n t
    | some (.fault _) => none
    | some (.refused _) => none
    | none => none

/-- The state with the instructions in MEM and WB, older than the one in EX, completed. -/
def State.drain (s : State) : State := doWB (doMEM (doWB s))

/-- The address of the next instruction to execute: the oldest instruction that has not executed yet,
or the fetch cursor when there is none. -/
def State.archPc (s : State) : Word :=
  match s.slotEX, s.slotID, s.slotIF with
  | some L, _, _ => L.pc
  | none, some L, _ => L.pc
  | none, none, some L => L.pc
  | none, none, none => s.cursor

/-- The pipeline's state as the sequential machine sees it. -/
def State.arch (s : State) : State := { s.drain with cursor := s.archPc }

/-- Equal registers, memory and program counter. -/
def sameArch (s t : State) : Prop :=
  s.regs = t.regs ∧ s.mem = t.mem ∧ s.cursor = t.cursor

/-- `n` ticks. -/
def ticks : Nat → State → State
  | 0, s => s
  | n + 1, s => ticks n (tick s)

end Sys2Proof.Machine
end

