-- ==== Sys2Proof/Machine/Commands.lean ====
section
/-! DEFINITION. The host commands (spec rules R44, R45, R360, R361), functions on the state between
ticks. `step-backward` is host software (R6, R45). -/

namespace Sys2Proof.Machine

/-- `submit program`: the reset state with the list loaded and `Running`; configuration kept. -/
def State.submitProgram (s : State) (program : List Word) : State :=
  State.initial s.params s.cfg program .running

/-- `reset`: the reset state with no program and `Paused`; configuration kept. -/
def State.resetCommand (s : State) : State :=
  State.initial s.params s.cfg [] .paused

/-- `pause`: `Running -> Paused`, otherwise nothing. -/
def State.pause (s : State) : State :=
  match s.mode with
  | .running => { s with mode := .paused }
  | .paused => s
  | .finished => s

/-- `resume`: `Paused -> Running`, otherwise nothing. -/
def State.resume (s : State) : State :=
  match s.mode with
  | .paused => { s with mode := .running }
  | .running => s
  | .finished => s

/-- `step-forward`: unless finished, the tick body once as if `Running`; `mode` is then `Finished` if
the tick finished, else what it was. -/
def State.stepForward (s : State) : State :=
  match s.mode with
  | .finished => s
  | .running => tickBody s
  | .paused => tickBody s

/-- The fields a `set configuration` command names; a field that is `none` is not named. -/
structure ConfigurationUpdate where
  forwardingEnabled : Option Bool := none
  stallsEnabled : Option Bool := none
  branchPredictionMode : Option PredictionMode := none
  stateMachineInitialPrediction : Option InitialPrediction := none
  missThreshold : Option MissThreshold := none
  deriving DecidableEq, Repr

/-- `set configuration`: overwrites the named fields and touches no other state (R32, R45, R301). -/
def State.setConfiguration (s : State) (u : ConfigurationUpdate) : State :=
  { s with cfg :=
    { forwardingEnabled := u.forwardingEnabled.getD s.cfg.forwardingEnabled
      stallsEnabled := u.stallsEnabled.getD s.cfg.stallsEnabled
      branchPredictionMode := u.branchPredictionMode.getD s.cfg.branchPredictionMode
      stateMachineInitialPrediction :=
        u.stateMachineInitialPrediction.getD s.cfg.stateMachineInitialPrediction
      missThreshold := u.missThreshold.getD s.cfg.missThreshold } }

/-- The commands of rule R45 that act on the block; `tick` is the paced command. -/
inductive Command where
  | submitProgram (program : List Word)
  | pause
  | resume
  | reset
  | stepForward
  | setConfiguration (u : ConfigurationUpdate)
  | tick
  deriving DecidableEq, Repr

/-- The effect of a command. -/
def State.command (s : State) : Command → State
  | .submitProgram program => s.submitProgram program
  | .pause => s.pause
  | .resume => s.resume
  | .reset => s.resetCommand
  | .stepForward => s.stepForward
  | .setConfiguration u => s.setConfiguration u
  | .tick => Sys2Proof.Machine.tick s

end Sys2Proof.Machine
end

