-- ==== Sys2Proof/Machine/Snapshot.lean ====
section
/-! DEFINITION. The snapshot, the block's one output (spec rules R46, R47). The free-text rationale of
a hazard record and "total estimated cycles" are not produced by the block (R6, R46, R384). -/

namespace Sys2Proof.Machine

/-- The snapshot items of rule R46, those per instruction in program order. -/
structure Snapshot where
  cycle : Nat
  mode : Mode
  stages : List (Option Stage)
  hazards : List HazardRecord
  registers : List Word
  memory : List Word
  missCount : Nat
  deriving DecidableEq, Repr

/-- The stage whose slot holds program entry `k`, or none (R47). -/
def State.stageOf (s : State) (k : Nat) : Option Stage :=
  [Stage.IF, .ID, .EX, .MEM, .WB].find? (fun S => holds (s.slot S) k)

/-- The forwarding records of an instruction (R46, R243): those of its hazard record. -/
def State.forwardingRecords (s : State) (k : Nat) : List ForwardingRecord := (s.hazard k).records

/-- The stall count of an instruction (R46). -/
def State.stallCount (s : State) (k : Nat) : Nat := (s.hazard k).stall

/-- The snapshot (R46). -/
def State.snapshot (s : State) : Snapshot :=
  { cycle := s.cycle
    mode := s.mode
    stages := (List.range s.programLength).map s.stageOf
    hazards := (List.range s.programLength).map s.hazard
    registers := (List.range numRegs).map (fun r => s.readReg (BitVec.ofNat 5 r))
    memory := (List.range s.params.memWords).map s.memWord
    missCount := s.missCount }

end Sys2Proof.Machine
end

