-- ==== Sys2Proof/Machine/Step.lean ====
section
/-! DEFINITION. One step is one tick (spec rules R9, R281): the pipeline's whole dynamic behaviour. It
has no other outcome than a next state (R330). -/

namespace Sys2Proof.Machine

/-- One step of the block: one tick. -/
def step (s : State) : Host.Outcome State Fault Refusal := .next (tick s)

/-- `s` with the instruction of bits `w` placed so that the next step executes it (log entry 4). -/
def State.withFetchWord (s : State) (nbits w : Nat) : State := s.placeWord nbits w

end Sys2Proof.Machine
end

