-- ==== Sys2Proof/Safety.lean ====
section
/-! DEFINITION. What a good state is, in the terms the claims use: the invariants of spec rule R48 with
the facts they rest on, and the invariant behind sequential equivalence (rules R248, R372). -/

namespace Sys2Proof.Machine

/-- A latch record carries the program entry it was fetched from (R37, R294). -/
structure State.recordOk (s : State) (L : Latch) : Prop where
  word : s.prog[L.idx]? = some L.word
  index : s.indexOf L.pc = some L.idx
  stall : L.stall ≤ 2

/-- The invariant of every reachable state. -/
structure State.Inv (s : State) : Prop where
  /-- The memory is in canonical form. -/
  mem_wf : s.mem.wf
  /-- No byte lies outside the data memory (R41, R65). -/
  mem_bound : ∀ c ∈ s.mem, c.1 < 4 * s.params.memWords
  /-- Every record carries its program entry. -/
  records : ∀ S L, s.slot S = some L → s.recordOk L
  /-- No two slots hold the same program entry (R48 b). -/
  distinct : ∀ S S' L L', S ≠ S' → s.slot S = some L → s.slot S' = some L' → L.idx ≠ L'.idx
  /-- The data-stall counter is 0 to 2 (R33). -/
  dataStall_le : s.dataStall ≤ 2
  /-- The misprediction-stall counter is at most the penalty (R34). -/
  mispStall_le : s.mispStall ≤ s.params.mispredictPenalty
  /-- A data stall has its instruction in ID and excludes the other counter (R48 c). -/
  dataStall_active : 0 < s.dataStall → s.mispStall = 0 ∧ s.slotID.isSome
  /-- A misprediction stall excludes the other counter, and only MEM and WB can be occupied (R48 c,
  R284). -/
  mispStall_active : 0 < s.mispStall →
    s.dataStall = 0 ∧ s.slotIF = none ∧ s.slotID = none ∧ s.slotEX = none
  /-- A finished run has drained and is past the end (R298). -/
  finished : s.mode = .finished → s.empty = true ∧ s.pastEnd s.cursor = true

/-- The pipeline's own state and the inputs are the same in `t` as in `s`. -/
structure sameControl (s t : State) : Prop where
  params : t.params = s.params
  cfg : t.cfg = s.cfg
  prog : t.prog = s.prog
  slotIF : t.slotIF = s.slotIF
  slotID : t.slotID = s.slotID
  slotEX : t.slotEX = s.slotEX
  slotMEM : t.slotMEM = s.slotMEM
  slotWB : t.slotWB = s.slotWB
  dataStall : t.dataStall = s.dataStall
  mispStall : t.mispStall = s.mispStall
  bpCounter : t.bpCounter = s.bpCounter
  missCount : t.missCount = s.missCount
  cycle : t.cycle = s.cycle
  mode : t.mode = s.mode

/-- The store an instruction makes: its width and the address `x[rs] + imm` (R180, R188 to R190). -/
def storeAccess (i : Instr) (s : State) : Option (Width × Word) :=
  match i with
  | .sb _ rs imm => some (.byte, effectiveAddress (s.readReg rs) imm)
  | .sh _ rs imm => some (.half, effectiveAddress (s.readReg rs) imm)
  | .sw _ rs imm => some (.word, effectiveAddress (s.readReg rs) imm)
  | .sll .. | .srl .. | .sra .. | .jr .. | .add .. | .addu .. | .sub .. | .subu .. | .and .. | .or ..
  | .xor .. | .nor .. | .slt .. | .sltu .. | .j .. | .jal .. | .beq .. | .bne .. | .addi ..
  | .addiu .. | .slti .. | .sltiu .. | .andi .. | .ori .. | .xori .. | .lui .. | .lb .. | .lh ..
  | .lw .. | .lbu .. | .lhu .. | .unsupported .. => none

/-- Byte address `a` is one of the bytes the instruction stores to: the access is in bounds and `a` is
in the aligned unit (R64, R65, R67). -/
def storesTo (i : Instr) (s : State) (a : Nat) : Prop :=
  ∃ w ea, storeAccess i s = some (w, ea) ∧ inBounds s.params.memWords w ea = true ∧
    (alignedAddr w ea).toNat ≤ a ∧ a < (alignedAddr w ea).toNat + w.bytes

/-- The destination of the older instruction is read by the younger one (R233). -/
def conflicts (older younger : Latch) : Prop :=
  ∃ r, older.desc.dest = some r ∧ r ∈ younger.desc.reads

/-- The address fetched after an instruction, as ID left it: the static target of a branch predicted
taken, `pc + 4` otherwise (R26, R292). -/
def predictedNext (L : Latch) : Word :=
  if L.desc.isBranch ∧ L.predTaken = true then L.desc.target.getD (nextAddress L.pc)
  else nextAddress L.pc

/-- `P1` in MEM and `P2` in WB leave the operands of `L` in EX correct: with forwarding, only a load in
MEM has no value yet; without it, no older writer may still be in flight (R248). -/
def operandsSafe (forwarding : Bool) (L : Latch) (P1 P2 : Option Latch) : Prop :=
  if forwarding then ∀ P, P1 = some P → P.desc.isLoad = true → ¬ conflicts P L
  else (∀ P, P1 = some P → ¬ conflicts P L) ∧ (∀ P, P2 = some P → ¬ conflicts P L)

/-- The data stall still to serve keeps the instruction in ID long enough behind `E` in EX and `P1` in
MEM (R234, R248). -/
def stallSuffices (forwarding : Bool) (stall : Nat) (C : Latch) (E P1 : Option Latch) : Prop :=
  if forwarding then ∀ P, E = some P → P.desc.isLoad = true → conflicts P C → 1 ≤ stall
  else (∀ P, E = some P → conflicts P C → 2 ≤ stall) ∧ (∀ P, P1 = some P → conflicts P C → 1 ≤ stall)

/-- The program ends below the top of the address space, so that `pc + 4` of its last instruction is not
the address of its first (log entry 6). -/
abbrev State.programFits (s : State) : Prop :=
  s.params.programBase.toNat + 4 * s.prog.length < 2 ^ 32

/-- The invariant behind sequential equivalence (R372), with stalling on. -/
structure State.SeqInv (s : State) : Prop where
  stalls : s.cfg.stallsEnabled = true
  fits : s.programFits
  inv : s.Inv
  /-- The operands in EX are the register file's current values (R287, R292). -/
  operands : ∀ L, s.slotEX = some L →
    L.opA = s.readReg L.desc.rs ∧ L.opB = s.readReg L.desc.rt
  /-- The predicted target of a branch in EX (R262). -/
  prediction : ∀ L, s.slotEX = some L → L.desc.isBranch = true →
    L.predTarget = predictedNext L
  /-- What was fetched after the instruction in EX. -/
  afterEX : ∀ L, s.slotEX = some L →
    { s with slotEX := none }.archPc = predictedNext L
  /-- What was fetched after the instruction in ID. -/
  afterID : ∀ L, s.slotID = some L →
    { s with slotEX := none, slotID := none }.archPc = nextAddress L.pc
  /-- What is fetched after the instruction in IF. -/
  afterIF : ∀ L, s.slotIF = some L → s.cursor = nextAddress L.pc
  /-- The hazards of the instruction in EX are resolved. -/
  hazardsEX : ∀ L, s.slotEX = some L →
    operandsSafe s.cfg.forwardingEnabled L s.slotMEM s.slotWB
  /-- The stall of the instruction in ID suffices. -/
  hazardsID : ∀ L, s.slotID = some L →
    stallSuffices s.cfg.forwardingEnabled s.dataStall L s.slotEX s.slotMEM

end Sys2Proof.Machine
end

