-- ==== Sys2Proof/Certificates/Slice0/Obligations.lean ====
section
/-! DEFINITION. The statements for the provers. `exec` is the sequential meaning of an instruction,
`step` is one tick of the pipeline; the statements of part 7 tie the two together. -/

open Sys2Proof Sys2Proof.Machine

/-! ### 1. Encoding and decoding -/

/-- R92 to R98, every format and every row: decoding the word of a well-formed instruction gives the
instruction back, at every value of every operand. The word is the model's: the fields of rule R99 are
zero in it (log entry 11). -/
def Obligations.DecodeEncodeRoundTrip : Prop :=
  ∀ i : Instr, i.wf = true → decodeWord (encode i) = i

/-- R97, R98, R100: a word decodes to `unsupported` exactly when its opcode, or its function under
opcode 0, has no row in the two tables, and what a word decodes to is always well formed. -/
def Obligations.UnsupportedExactlyOutsideTheTables : Prop :=
  ∀ w : Word,
    (decodeWord w = .unsupported w ↔ selectsInstruction w = false) ∧ (decodeWord w).wf = true

/-- R104, R101, R220: the four encoded words of the source, the `nop` and a word outside the tables. -/
def Obligations.SpecWordsDecode : Prop :=
  decodeWord 0x20080005#32 = .addi 8 0 5 ∧
  decodeWord 0x20090003#32 = .addi 9 0 3 ∧
  decodeWord 0x01095020#32 = .add 10 8 9 ∧
  decodeWord 0x08100000#32 = .j 0x0100000 ∧
  decodeWord 0x00000000#32 = .sll 0 0 0 ∧
  decodeWord 0xFFFFFFFF#32 = .unsupported 0xFFFFFFFF#32

/-- R99: fields an instruction does not use are ignored. Two words that agree on the fields their
instruction uses decode alike: `shamt` of a three-register operation, `rs` of a shift, everything but
`rs` of `jr`, `rs` of `lui`. -/
def Obligations.UnusedFieldsAreIgnored : Prop :=
  ∀ v w : Word, opField v = opField w →
    (opField w = 0#6 → functField v = functField w →
      (functField w ∈ [0x20#6, 0x21#6, 0x22#6, 0x23#6, 0x24#6, 0x25#6, 0x26#6, 0x27#6, 0x2A#6, 0x2B#6] →
        rsField v = rsField w → rtField v = rtField w → rdField v = rdField w →
        decodeWord v = decodeWord w) ∧
      (functField w ∈ [0x00#6, 0x02#6, 0x03#6] →
        rtField v = rtField w → rdField v = rdField w → shamtField v = shamtField w →
        decodeWord v = decodeWord w) ∧
      (functField w = 0x08#6 → rsField v = rsField w → decodeWord v = decodeWord w)) ∧
    (opField w = 0x0F#6 → rtField v = rtField w → imm16Field v = imm16Field w →
      decodeWord v = decodeWord w)

/-- R126, R127: the read set and the destination of every word, row by row of the table of R127, by
opcode and function. Register 0 is in no read set and is never a destination, and no register stands in
a read set twice; the model's `sourceFields` names the same fields. -/
def Obligations.RegisterSetsOmitRegisterZero : Prop :=
  ∀ (w pc : Word) (k : Nat),
    let d := decodeUnit w pc k
    let op := w.extractLsb' 26 6
    let funct := w.extractLsb' 0 6
    let rs := w.extractLsb' 21 5
    let rt := w.extractLsb' 16 5
    let rd := w.extractLsb' 11 5
    let reads := fun (fields : List Reg) => ∀ r : Reg, r ∈ d.reads ↔ r ≠ 0#5 ∧ r ∈ fields
    let writes := fun (f : Reg) => d.dest = if f = 0#5 then none else some f
    reads (sourceFields (decodeWord w)) ∧ d.reads.Nodup ∧ d.dest ≠ some 0#5 ∧
    (op = 0#6 →
      (funct ∈ [0x20#6, 0x21#6, 0x22#6, 0x23#6, 0x24#6, 0x25#6, 0x26#6, 0x27#6, 0x2A#6, 0x2B#6] →
        reads [rs, rt] ∧ writes rd) ∧
      (funct ∈ [0x00#6, 0x02#6, 0x03#6] → reads [rt] ∧ writes rd) ∧
      (funct = 0x08#6 → reads [rs] ∧ d.dest = none) ∧
      (funct ∉ [0x00#6, 0x02#6, 0x03#6, 0x08#6, 0x20#6, 0x21#6, 0x22#6, 0x23#6, 0x24#6, 0x25#6, 0x26#6,
          0x27#6, 0x2A#6, 0x2B#6] → reads [] ∧ d.dest = none)) ∧
    (op ∈ [0x08#6, 0x09#6, 0x0A#6, 0x0B#6, 0x0C#6, 0x0D#6, 0x0E#6] → reads [rs] ∧ writes rt) ∧
    (op = 0x0F#6 → reads [] ∧ writes rt) ∧
    (op ∈ [0x20#6, 0x21#6, 0x23#6, 0x24#6, 0x25#6] → reads [rs] ∧ writes rt) ∧
    (op ∈ [0x28#6, 0x29#6, 0x2B#6] → reads [rs, rt] ∧ d.dest = none) ∧
    (op ∈ [0x04#6, 0x05#6] → reads [rs, rt] ∧ d.dest = none) ∧
    (op = 0x02#6 → reads [] ∧ d.dest = none) ∧
    (op = 0x03#6 → reads [] ∧ d.dest = some 31#5) ∧
    (op ∉ [0x00#6, 0x02#6, 0x03#6, 0x04#6, 0x05#6, 0x08#6, 0x09#6, 0x0A#6, 0x0B#6, 0x0C#6, 0x0D#6,
        0x0E#6, 0x0F#6, 0x20#6, 0x21#6, 0x23#6, 0x24#6, 0x25#6, 0x28#6, 0x29#6, 0x2B#6] →
      reads [] ∧ d.dest = none)

/-- R128: the static targets, written out. A branch: `pc + 4 + (imm << 2)`. A jump: the top four bits of
`pc + 4`, the 26-bit field, two zero bits. Every other instruction: none. -/
def Obligations.StaticTargets : Prop :=
  ∀ (w pc : Word) (k : Nat),
    (opField w = 0x04#6 ∨ opField w = 0x05#6 →
      (decodeUnit w pc k).target =
        some (pc + 4#32 + ((w.extractLsb' 0 16).signExtend 32 <<< 2))) ∧
    (opField w = 0x02#6 ∨ opField w = 0x03#6 →
      (decodeUnit w pc k).target =
        some ((((pc + 4#32) >>> 28) <<< 28) ||| ((w &&& 0x03FFFFFF#32) <<< 2))) ∧
    (opField w ∉ [0x02#6, 0x03#6, 0x04#6, 0x05#6] → (decodeUnit w pc k).target = none)

/-! ### 2. The register file -/

/-- R11, R20, R21: register 0 reads 0 in every state and a write to it changes nothing; a write to any
other register is read back, and every other register, the memory, the cursor and the pipeline's own
state are unchanged. -/
def Obligations.RegisterFileReadsAndWrites : Prop :=
  ∀ (s : State) (r : Reg) (v : Word),
    s.readReg 0#5 = 0#32 ∧ s.writeReg 0#5 v = s ∧
    (r ≠ 0#5 → (s.writeReg r v).readReg r = v) ∧
    (∀ q : Reg, q ≠ r → (s.writeReg r v).readReg q = s.readReg q) ∧
    (s.writeReg r v).mem = s.mem ∧ (s.writeReg r v).cursor = s.cursor ∧
    sameControl s (s.writeReg r v)

/-! ### 3. What each instruction does (its sequential meaning: it completes in every state) -/

/-- R141 to R144: `add`, `addu`, `sub`, `subu` wrap modulo `2^32`, write `rd` and change nothing else
but the cursor. That the cursor moves on is the sequential reading of the model (log entry 1, with
R372). -/
def Obligations.AddSubtractResults : Prop :=
  ∀ (rd rs rt : Reg) (s : State),
    exec (.add rd rs rt) s =
      .next { s.writeReg rd (s.readReg rs + s.readReg rt) with cursor := s.cursor + 4#32 } ∧
    exec (.addu rd rs rt) s =
      .next { s.writeReg rd (s.readReg rs + s.readReg rt) with cursor := s.cursor + 4#32 } ∧
    exec (.sub rd rs rt) s =
      .next { s.writeReg rd (s.readReg rs - s.readReg rt) with cursor := s.cursor + 4#32 } ∧
    exec (.subu rd rs rt) s =
      .next { s.writeReg rd (s.readReg rs - s.readReg rt) with cursor := s.cursor + 4#32 }

/-- R145 to R148: `and`, `or`, `xor`, `nor`, bit by bit. Some value `v` with the stated bits is written
to `rd`, and nothing else changes but the cursor. That the cursor moves on is the sequential reading of
the model (log entry 1, with R372). -/
def Obligations.BitwiseResults : Prop :=
  ∀ (rd rs rt : Reg) (s : State),
    (∃ v : Word, (∀ n < 32, v.getLsbD n = ((s.readReg rs).getLsbD n && (s.readReg rt).getLsbD n)) ∧
      exec (.and rd rs rt) s = .next { s.writeReg rd v with cursor := s.cursor + 4#32 }) ∧
    (∃ v : Word, (∀ n < 32, v.getLsbD n = ((s.readReg rs).getLsbD n || (s.readReg rt).getLsbD n)) ∧
      exec (.or rd rs rt) s = .next { s.writeReg rd v with cursor := s.cursor + 4#32 }) ∧
    (∃ v : Word, (∀ n < 32, v.getLsbD n = ((s.readReg rs).getLsbD n != (s.readReg rt).getLsbD n)) ∧
      exec (.xor rd rs rt) s = .next { s.writeReg rd v with cursor := s.cursor + 4#32 }) ∧
    (∃ v : Word, (∀ n < 32, v.getLsbD n = !((s.readReg rs).getLsbD n || (s.readReg rt).getLsbD n)) ∧
      exec (.nor rd rs rt) s = .next { s.writeReg rd v with cursor := s.cursor + 4#32 })

/-- R149, R150, R163, R164: `slt` and `slti` compare as signed integers, `sltu` and `sltiu` as unsigned
ones; the immediate is sign-extended in both; the result is 1 or 0. That the cursor moves on is the
sequential reading of the model (log entry 1, with R372). -/
def Obligations.SetOnLessThanResults : Prop :=
  ∀ (rd rs rt : Reg) (imm : Imm16) (s : State),
    exec (.slt rd rs rt) s =
      .next { s.writeReg rd (if (s.readReg rs).toInt < (s.readReg rt).toInt then 1#32 else 0#32)
        with cursor := s.cursor + 4#32 } ∧
    exec (.sltu rd rs rt) s =
      .next { s.writeReg rd (if (s.readReg rs).toNat < (s.readReg rt).toNat then 1#32 else 0#32)
        with cursor := s.cursor + 4#32 } ∧
    exec (.slti rt rs imm) s =
      .next { s.writeReg rt (if (s.readReg rs).toInt < imm.toInt then 1#32 else 0#32)
        with cursor := s.cursor + 4#32 } ∧
    exec (.sltiu rt rs imm) s =
      .next { s.writeReg rt
          (if (s.readReg rs).toNat < (imm.signExtend 32).toNat then 1#32 else 0#32)
        with cursor := s.cursor + 4#32 }

/-- R151 to R153, on integers: `sll` multiplies by `2^shamt` modulo `2^32`, `srl` divides the unsigned
value, `sra` divides the signed value rounding down. That the cursor moves on is the sequential reading
of the model (log entry 1, with R372). -/
def Obligations.ShiftResults : Prop :=
  ∀ (rd rt : Reg) (shamt : Shamt) (s : State),
    exec (.sll rd rt shamt) s =
      .next { s.writeReg rd (BitVec.ofNat 32 ((s.readReg rt).toNat * 2 ^ shamt.toNat))
        with cursor := s.cursor + 4#32 } ∧
    exec (.srl rd rt shamt) s =
      .next { s.writeReg rd (BitVec.ofNat 32 ((s.readReg rt).toNat / 2 ^ shamt.toNat))
        with cursor := s.cursor + 4#32 } ∧
    exec (.sra rd rt shamt) s =
      .next { s.writeReg rd (BitVec.ofInt 32 ((s.readReg rt).toInt / 2 ^ shamt.toNat))
        with cursor := s.cursor + 4#32 }

/-- R161, R162, R165 to R168: `addi` and `addiu` add the sign-extended immediate, `andi`, `ori`, `xori`
use the zero-extended one, `lui` puts it in the upper half. That the cursor moves on is the sequential
reading of the model (log entry 1, with R372). -/
def Obligations.ImmediateResults : Prop :=
  ∀ (rt rs : Reg) (imm : Imm16) (s : State),
    exec (.addi rt rs imm) s =
      .next { s.writeReg rt (s.readReg rs + imm.signExtend 32) with cursor := s.cursor + 4#32 } ∧
    exec (.addiu rt rs imm) s =
      .next { s.writeReg rt (s.readReg rs + imm.signExtend 32) with cursor := s.cursor + 4#32 } ∧
    exec (.andi rt rs imm) s =
      .next { s.writeReg rt (s.readReg rs &&& BitVec.ofNat 32 imm.toNat)
        with cursor := s.cursor + 4#32 } ∧
    exec (.ori rt rs imm) s =
      .next { s.writeReg rt (s.readReg rs ||| BitVec.ofNat 32 imm.toNat)
        with cursor := s.cursor + 4#32 } ∧
    exec (.xori rt rs imm) s =
      .next { s.writeReg rt (s.readReg rs ^^^ BitVec.ofNat 32 imm.toNat)
        with cursor := s.cursor + 4#32 } ∧
    exec (.lui rt imm) s =
      .next { s.writeReg rt (BitVec.ofNat 32 (imm.toNat * 65536)) with cursor := s.cursor + 4#32 }

/-- R180 to R186: a load reads 1, 2 or 4 bytes at `x[rs] + sext(imm)` and writes `rt` with their sign
extension (`lb`, `lh`), their zero extension (`lbu`, `lhu`) or the whole word (`lw`). That the cursor
moves on is the sequential reading of the model (log entry 1, with R372). -/
def Obligations.LoadResults : Prop :=
  ∀ (rt rs : Reg) (imm : Imm16) (s : State),
    exec (.lb rt rs imm) s =
      .next { s.writeReg rt
          (((s.memRead .byte (s.readReg rs + imm.signExtend 32)).setWidth 8).signExtend 32)
        with cursor := s.cursor + 4#32 } ∧
    exec (.lh rt rs imm) s =
      .next { s.writeReg rt
          (((s.memRead .half (s.readReg rs + imm.signExtend 32)).setWidth 16).signExtend 32)
        with cursor := s.cursor + 4#32 } ∧
    exec (.lw rt rs imm) s =
      .next { s.writeReg rt (s.memRead .word (s.readReg rs + imm.signExtend 32))
        with cursor := s.cursor + 4#32 } ∧
    exec (.lbu rt rs imm) s =
      .next { s.writeReg rt (s.memRead .byte (s.readReg rs + imm.signExtend 32))
        with cursor := s.cursor + 4#32 } ∧
    exec (.lhu rt rs imm) s =
      .next { s.writeReg rt (s.memRead .half (s.readReg rs + imm.signExtend 32))
        with cursor := s.cursor + 4#32 }

/-- R180, R187 to R190: a store writes the low 1, 2 or 4 bytes of `x[rt]` at `x[rs] + sext(imm)`, and
no register. That the cursor moves on is the sequential reading of the model (log entry 1, with R372).
-/
def Obligations.StoreResults : Prop :=
  ∀ (rt rs : Reg) (imm : Imm16) (s : State),
    exec (.sb rt rs imm) s =
      .next { s.memWrite .byte (s.readReg rs + imm.signExtend 32) (s.readReg rt)
        with cursor := s.cursor + 4#32 } ∧
    exec (.sh rt rs imm) s =
      .next { s.memWrite .half (s.readReg rs + imm.signExtend 32) (s.readReg rt)
        with cursor := s.cursor + 4#32 } ∧
    exec (.sw rt rs imm) s =
      .next { s.memWrite .word (s.readReg rs + imm.signExtend 32) (s.readReg rt)
        with cursor := s.cursor + 4#32 }

/-- R201 and the link of R205: `next` of the five control transfers becomes the cursor; `jal` writes
`pc + 4` to register 31; nothing else changes. That the cursor moves on is the sequential reading of
the model (log entry 1, with R372). -/
def Obligations.ControlTransferResults : Prop :=
  ∀ (rs rt : Reg) (imm : Imm16) (index : Index26) (s : State),
    exec (.beq rs rt imm) s =
      .next { s with cursor :=
        (if s.readReg rs = s.readReg rt then s.cursor + 4#32 + (imm.signExtend 32 <<< 2)
         else s.cursor + 4#32) } ∧
    exec (.bne rs rt imm) s =
      .next { s with cursor :=
        (if s.readReg rs ≠ s.readReg rt then s.cursor + 4#32 + (imm.signExtend 32 <<< 2)
         else s.cursor + 4#32) } ∧
    exec (.j index) s =
      .next { s with cursor := (s.cursor + 4#32).extractLsb' 28 4 ++ index ++ 0#2 } ∧
    exec (.jal index) s =
      .next { s.writeReg 31#5 (s.cursor + 4#32) with
        cursor := (s.cursor + 4#32).extractLsb' 28 4 ++ index ++ 0#2 } ∧
    exec (.jr rs) s = .next { s with cursor := s.readReg rs }

/-- R220, R221: `unsupported` and `nop` do nothing but pass. In the pipeline neither touches the cursor
(R220); that the cursor moves on here is the sequential reading of the model (log entry 1, with R372). -/
def Obligations.UnsupportedAndNopDoNothing : Prop :=
  ∀ (w : Word) (s : State),
    exec (.unsupported w) s = .next { s with cursor := s.cursor + 4#32 } ∧
    exec (decodeWord 0x00000000#32) s = .next { s with cursor := s.cursor + 4#32 }

/-- R330, R331: no instruction is ever abandoned. Every instruction completes in every state, in its
sequential meaning (log entry 1). -/
def Obligations.EveryInstructionCompletes : Prop :=
  ∀ (i : Instr) (s : State), ∃ t, exec i s = .next t

/-- The frame of every instruction (R29, R43): the pipeline's own state and the inputs are unchanged,
every register but the destination is unchanged, and every byte of memory but the ones a store writes
is unchanged. The stored bytes are computed from the store's width and address. `exec` is the model's
name for the sequential meaning (log entry 1). -/
def Obligations.InstructionFrame : Prop :=
  ∀ (i : Instr) (s t : State), exec i s = .next t →
    sameControl s t ∧
    (∀ r : Reg, destination i ≠ some r → t.readReg r = s.readReg r) ∧
    (∀ a : Nat, ¬ storesTo i s a → t.mem.readByte a = s.mem.readByte a)

/-! ### 4. Data memory -/

/-- R66 with R62 and R64, on the words of rule R41: align the address down, 0 when the word does not
exist, else the field of `8n` bits at bit `sh` of `mem[k]`. -/
def Obligations.MemReadFollowsTheFormula : Prop :=
  ∀ (s : State) (w : Width) (addr : Word),
    let n := w.bytes
    let A := addr.toNat - addr.toNat % n
    let k := A / 4
    let o := A % 4
    let sh := if s.params.byteOrder = .little then 8 * o else 8 * (4 - n - o)
    (s.memRead w addr).toNat =
      if k < s.params.memWords then (s.memWord k).toNat / 2 ^ sh % 2 ^ (8 * n) else 0

/-- R67 with R62 and R64, on the words of rule R41: dropped when the word does not exist, else bits
`sh + 8n - 1 .. sh` of `mem[k]` are replaced by `v` and every other word is unchanged. -/
def Obligations.MemWriteFollowsTheFormula : Prop :=
  ∀ (s : State) (w : Width) (addr v : Word), s.mem.wf →
    let n := w.bytes
    let A := addr.toNat - addr.toNat % n
    let k := A / 4
    let o := A % 4
    let sh := if s.params.byteOrder = .little then 8 * o else 8 * (4 - n - o)
    if k < s.params.memWords then
      (∀ b < 32, ((s.memWrite w addr v).memWord k).getLsbD b =
        if sh ≤ b ∧ b < sh + 8 * n then v.getLsbD (b - sh) else (s.memWord k).getLsbD b) ∧
      (∀ j, j ≠ k → (s.memWrite w addr v).memWord j = s.memWord j)
    else s.memWrite w addr v = s

/-- R64, R65: the low address bits of a halfword or word access are ignored; an access whose aligned
address is at or past `4 * MEM_WORDS` is out of bounds, such a load reads 0 and such a store changes
nothing. -/
def Obligations.MisalignedAndOutOfBoundsAccesses : Prop :=
  ∀ (s : State) (addr v : Word),
    s.memRead .half addr = s.memRead .half (addr &&& 0xFFFFFFFE#32) ∧
    s.memRead .word addr = s.memRead .word (addr &&& 0xFFFFFFFC#32) ∧
    s.memWrite .half addr v = s.memWrite .half (addr &&& 0xFFFFFFFE#32) v ∧
    s.memWrite .word addr v = s.memWrite .word (addr &&& 0xFFFFFFFC#32) v ∧
    ∀ w : Width, 4 * s.params.memWords ≤ addr.toNat - addr.toNat % w.bytes →
      s.memRead w addr = 0#32 ∧ s.memWrite w addr v = s

/-- R71 (b), R375: a load of the width and address just stored in bounds reads what was stored, cut to
the width. -/
def Obligations.LoadAfterStoreReadsTheStoredValue : Prop :=
  ∀ (s : State) (w : Width) (addr v : Word), s.mem.wf →
    inBounds s.params.memWords w addr = true →
    ((s.memWrite w addr v).memRead w addr).toNat = v.toNat % 2 ^ (8 * w.bytes)

/-- R62: after a word is stored at an aligned address in bounds, its byte at offset `o` is byte `o`
from the low end in little order and from the high end in big order. -/
def Obligations.ByteOrderOfAStoredWord : Prop :=
  ∀ (s : State) (addr v : Word) (o : Nat), s.mem.wf → addr.toNat % 4 = 0 → o < 4 →
    inBounds s.params.memWords .word addr = true →
    ((s.memWrite .word addr v).memRead .byte (addr + BitVec.ofNat 32 o)).toNat =
      match s.params.byteOrder with
      | .little => v.toNat / 2 ^ (8 * o) % 256
      | .big => v.toNat / 2 ^ (8 * (3 - o)) % 256

/-- Every store keeps the memory inside its bounds (R41, R65, R67) and in the canonical form that is the
model's own (log entry 5). -/
def Obligations.StoresKeepTheMemoryForm : Prop :=
  ∀ (s : State) (w : Width) (addr v : Word), s.mem.wf →
    (s.memWrite w addr v).mem.wf ∧
    ((∀ c ∈ s.mem, c.1 < 4 * s.params.memWords) →
      ∀ c ∈ (s.memWrite w addr v).mem, c.1 < 4 * s.params.memWords)

/-! ### 5. Hazards, forwarding, prediction -/

/-- R234: the policy table, row by row, for a producer `P` at distance `d` whose destination the
consumer `C` reads. -/
def Obligations.StallPolicyTable : Prop :=
  ∀ (C P : Descriptor) (r : Reg), P.dest = some r → r ∈ C.reads →
    (P.isLoad = true → (examine true C P 1).need = 1) ∧
    (P.isLoad = true → (examine false C P 1).need = 2) ∧
    (P.isLoad = false → (examine true C P 1).need = 0) ∧
    (P.isLoad = false → (examine false C P 1).need = 2) ∧
    (P.isLoad = false → (examine true C P 2).need = 0) ∧
    (P.isLoad = false → (examine false C P 2).need = 1) ∧
    (P.isLoad = true → (examine true C P 2).need = 0) ∧
    (P.isLoad = true → (examine false C P 2).need = 1)

/-- R231, R233, R238, R239, R240: with stalling on, entry `i` is RAW exactly when one of the two
instructions before it writes a register it reads; WAW exactly when it is not RAW and one of them
writes its destination; CONTROL exactly when it is neither and it is a branch or a jump. Only a RAW
record has a stall or can forward. -/
def Obligations.HazardClassification : Prop :=
  ∀ (s : State) (i : Nat) (C : Descriptor), s.cfg.stallsEnabled = true → s.descAt i = some C →
    let isRaw := ∃ d P r, (d = 1 ∨ d = 2) ∧ d ≤ i ∧ s.descAt (i - d) = some P ∧
      P.dest = some r ∧ r ∈ C.reads
    let isWaw := ∃ d P r, (d = 1 ∨ d = 2) ∧ d ≤ i ∧ s.descAt (i - d) = some P ∧
      P.dest = some r ∧ C.dest = some r
    ((s.hazard i).type = .raw ↔ isRaw) ∧
    ((s.hazard i).type = .waw ↔ ¬ isRaw ∧ isWaw) ∧
    ((s.hazard i).type = .control ↔ ¬ isRaw ∧ ¬ isWaw ∧ (C.isBranch = true ∨ C.isJump = true)) ∧
    (¬ isRaw → (s.hazard i).stall = 0 ∧ (s.hazard i).canForward = false) ∧
    (isRaw → (s.hazard i).canForward = s.cfg.forwardingEnabled)

/-- R231, R236, R237 (derived there from R234): with stalling on the stall of an instruction is the need
of its nearest producer, 0 when it has none, and never more than 2 (an index outside the program has no
hazard: the model's choice, log entry 9); with stalling off there is no hazard at all. -/
def Obligations.NearestProducerDecidesTheStall : Prop :=
  ∀ (s : State) (i : Nat),
    (s.cfg.stallsEnabled = false →
      s.hazard i = { type := .none, canForward := false, stall := 0, records := [] }) ∧
    (s.hazard i).stall ≤ 2 ∧
    (s.cfg.stallsEnabled = true → ∀ C, s.descAt i = some C →
      let writes := fun (d : Nat) (P : Descriptor) =>
        d ≤ i ∧ s.descAt (i - d) = some P ∧ ∃ r, P.dest = some r ∧ r ∈ C.reads
      (∀ P, writes 1 P → (s.hazard i).stall = stallNeed s.cfg.forwardingEnabled P.isLoad 1) ∧
      ((¬ ∃ P, writes 1 P) → ∀ P, writes 2 P →
        (s.hazard i).stall = stallNeed s.cfg.forwardingEnabled P.isLoad 2) ∧
      ((¬ ∃ P, writes 1 P) → (¬ ∃ P, writes 2 P) → (s.hazard i).stall = 0))

/-- R243: a forwarding record names a producer one or two places before the consumer, a register that
producer writes and the consumer reads, consumer stage EX, and as producer stage EX for a producer at
distance 1 that is not a load and MEM otherwise; with forwarding off or stalling off there is none. -/
def Obligations.ForwardingRecordsAreExact : Prop :=
  ∀ (s : State) (i : Nat) (f : ForwardingRecord), f ∈ (s.hazard i).records ↔
    s.cfg.stallsEnabled = true ∧ s.cfg.forwardingEnabled = true ∧
    ∃ C P d, (d = 1 ∨ d = 2) ∧ d ≤ i ∧ s.descAt i = some C ∧ s.descAt (i - d) = some P ∧
      P.dest = some f.register ∧ f.register ∈ C.reads ∧
      f.producer = i - d ∧ f.consumer = i ∧ f.consumerStage = .EX ∧
      f.producerStage = (if d = 1 ∧ P.isLoad = false then .EX else .MEM)

/-- R246: the forwarding mux. Off, or for register 0: the value read in ID. Else the nearer producer,
unless it is a load, has priority; then the one in WB; then the value read in ID. -/
def Obligations.ForwardingMuxPriority : Prop :=
  ∀ (r : Reg) (v : Word) (P1 P2 : Option Latch),
    let near := ∃ L, P1 = some L ∧ L.desc.dest = some r ∧ L.desc.isLoad = false
    forward false r v P1 P2 = v ∧
    forward true 0#5 v P1 P2 = v ∧
    (r ≠ 0#5 →
      (∀ L, P1 = some L → L.desc.dest = some r → L.desc.isLoad = false →
        forward true r v P1 P2 = L.result) ∧
      (¬ near → ∀ L, P2 = some L → L.desc.dest = some r → forward true r v P1 P2 = L.wbValue) ∧
      (¬ near → (∀ L, P2 = some L → L.desc.dest ≠ some r) → forward true r v P1 P2 = v))

/-- R261, R263, R265: what each mode predicts, that only `state-machine` moves the counter, and that the
counter moves one state toward the outcome and stops at its ends. -/
def Obligations.PredictorModesAndCounter : Prop :=
  ∀ (c : BpCounter) (taken : Bool),
    predict .none c = false ∧ predict .staticNotTaken c = false ∧ predict .staticTaken c = true ∧
    (predict .stateMachine c = true ↔ 2 ≤ c.toNat) ∧
    counterAfter .none c taken = c ∧ counterAfter .staticNotTaken c taken = c ∧
    counterAfter .staticTaken c taken = c ∧ counterAfter .stateMachine c taken = c.update taken ∧
    (c.update true).toNat = min (c.toNat + 1) 3 ∧ (c.update false).toNat = c.toNat - 1

/-- R262, R266: for a branch as it leaves ID, a misprediction is exactly a wrong outcome; the target
clause of R266 never decides. -/
def Obligations.MispredictionIsAWrongOutcome : Prop :=
  ∀ (s : State) (L : Latch) (taken : Bool), L.desc.isBranch = true →
    (mispredicted (decoded s L).predTaken (decoded s L).predTarget taken
        (if taken then L.desc.target.getD 0#32 else L.pc + 4#32) = true ↔
      predict s.cfg.branchPredictionMode s.bpCounter ≠ taken)

/-! ### 6. The tick -/

/-- R281, R330, R40, R301: a step always gives a next state, outside `Running` the same state; no step
changes the program, the configuration or the parameters, so a store cannot change what is fetched. -/
def Obligations.StepAnswersNextAndKeepsTheInputs : Prop :=
  ∀ s : State, ∃ t, step s = .next t ∧ (s.mode ≠ .running → t = s) ∧
    t.prog = s.prog ∧ t.cfg = s.cfg ∧ t.params = s.params

/-- R286: the writeback stage writes the held value to the destination of the record in WB, empties WB,
and does nothing else. -/
def Obligations.WritebackStage : Prop :=
  ∀ s : State,
    (s.slotWB = none → doWB s = s) ∧
    (∀ L, s.slotWB = some L →
      (L.desc.dest = none → doWB s = { s with slotWB := none }) ∧
      (∀ r, L.desc.dest = some r → doWB s = { s.writeReg r L.wbValue with slotWB := none }))

/-- R288, R182 to R190: the memory stage by the kind of the record, with the width and the extension of
each opcode. A load latches the extended value of its width, a store makes its access of its width and
passes its address on, every other kind passes its result on; the record moves to WB. -/
def Obligations.MemoryStage : Prop :=
  ∀ s : State,
    (s.slotMEM = none → doMEM s = s) ∧
    (∀ L, s.slotMEM = some L →
      let op := opField L.word
      let ea := L.result
      let latched := fun (t : State) (v : Word) =>
        { t with slotWB := some { L with wbValue := v }, slotMEM := none }
      (L.desc.kind = .load ↔ op ∈ [0x20#6, 0x21#6, 0x23#6, 0x24#6, 0x25#6]) ∧
      (L.desc.kind = .store ↔ op ∈ [0x28#6, 0x29#6, 0x2B#6]) ∧
      (op = 0x20#6 → doMEM s = latched s (((s.memRead .byte ea).setWidth 8).signExtend 32)) ∧
      (op = 0x21#6 → doMEM s = latched s (((s.memRead .half ea).setWidth 16).signExtend 32)) ∧
      (op = 0x23#6 → doMEM s = latched s (s.memRead .word ea)) ∧
      (op = 0x24#6 → doMEM s = latched s (((s.memRead .byte ea).setWidth 8).setWidth 32)) ∧
      (op = 0x25#6 → doMEM s = latched s (((s.memRead .half ea).setWidth 16).setWidth 32)) ∧
      (op = 0x28#6 → doMEM s = latched (s.memWrite .byte ea L.storeVal) ea) ∧
      (op = 0x29#6 → doMEM s = latched (s.memWrite .half ea L.storeVal) ea) ∧
      (op = 0x2B#6 → doMEM s = latched (s.memWrite .word ea L.storeVal) ea) ∧
      (L.desc.kind ≠ .load → L.desc.kind ≠ .store → doMEM s = latched s L.result))

/-- R289: what EX leaves in the record for MEM, by kind. An ALU instruction leaves its function of the
delivered values, a load or store the effective address (a store also its data), `jal` the link
address, every other instruction 0; the record moves to MEM. -/
def Obligations.ExecuteStageRecord : Prop :=
  ∀ (s : State) (P1 P2 : Option Latch) (L : Latch), s.slotEX = some L →
    ∃ M, (doEX P1 P2 s).1.slotMEM = some M ∧ (doEX P1 P2 s).1.slotEX = none ∧
      M.idx = L.idx ∧ M.pc = L.pc ∧ M.word = L.word ∧
      (L.desc.kind = .load → M.result = deliveredA s P1 P2 L + L.desc.imm) ∧
      (L.desc.kind = .store →
        M.result = deliveredA s P1 P2 L + L.desc.imm ∧ M.storeVal = deliveredB s P1 P2 L) ∧
      (L.desc.kind = .conditionalBranch → M.result = 0#32) ∧
      (L.desc.kind = .jump → M.result = if opField L.word = 0x03#6 then L.pc + 4#32 else 0#32) ∧
      (L.desc.kind = .jumpRegister → M.result = 0#32) ∧
      (L.desc.kind = .unsupported → M.result = 0#32) ∧
      (L.desc.kind = .rAlu ∨ L.desc.kind = .iAluImmediate →
        M.result =
          ((ruleOf L.instr).ex L.pc (deliveredA s P1 P2 L) (deliveredB s P1 P2 L)).result)

/-- R290, R291: resolution of a conditional branch in EX. The outcome is the comparison of the delivered
values, and the counter is updated as the mode says. On a misprediction the miss count goes up by one,
the penalty is loaded, the cursor takes the actual target, IF, ID and the data stall are cleared and
the redirect is signalled; otherwise none of these changes. -/
def Obligations.BranchResolution : Prop :=
  ∀ (s : State) (P1 P2 : Option Latch) (L : Latch), s.slotEX = some L → L.desc.isBranch = true →
    let a := deliveredA s P1 P2 L
    let b := deliveredB s P1 P2 L
    let taken := if opField L.word = 0x04#6 then decide (a = b) else decide (a ≠ b)
    let actual :=
      if taken then L.pc + 4#32 + ((L.word.extractLsb' 0 16).signExtend 32 <<< 2) else L.pc + 4#32
    let t := (doEX P1 P2 s).1
    t.bpCounter = counterAfter s.cfg.branchPredictionMode s.bpCounter taken ∧
    (∃ M, t.slotMEM = some M ∧ M.taken = taken) ∧
    (L.predTaken ≠ taken ∨ L.predTaken = true ∧ L.predTarget ≠ actual →
      t.missCount = s.missCount + 1 ∧ t.mispStall = s.params.mispredictPenalty ∧
      t.cursor = actual ∧ t.slotIF = none ∧ t.slotID = none ∧ t.dataStall = 0 ∧
      (doEX P1 P2 s).2 = true) ∧
    (L.predTaken = taken → (L.predTaken = true → L.predTarget = actual) →
      t.missCount = s.missCount ∧ t.mispStall = s.mispStall ∧ t.cursor = s.cursor ∧
      t.slotIF = s.slotIF ∧ t.slotID = s.slotID ∧ t.dataStall = s.dataStall ∧
      (doEX P1 P2 s).2 = false)

/-- R204 to R206, R267, R289: a jump in EX redirects the cursor (`jr` to the delivered value, `j` and
`jal` to the static target), flushes IF and ID, and touches neither the predictor counter, the miss
count nor the misprediction stall. An instruction that is neither a branch nor a jump only moves to MEM:
it leaves the cursor, IF, ID, the counters and the stalls alone. -/
def Obligations.OnlyControlTransfersSteerInEX : Prop :=
  ∀ (s : State) (P1 P2 : Option Latch) (L : Latch), s.slotEX = some L →
    (L.desc.isJump = true →
      let t := (doEX P1 P2 s).1
      (L.desc.kind = .jumpRegister → t.cursor = deliveredA s P1 P2 L) ∧
      (L.desc.kind = .jump → L.desc.target = some t.cursor) ∧
      t.slotIF = none ∧ t.slotID = none ∧ t.dataStall = 0 ∧ (doEX P1 P2 s).2 = true ∧
      t.bpCounter = s.bpCounter ∧ t.missCount = s.missCount ∧ t.mispStall = s.mispStall) ∧
    (L.desc.isBranch = false → L.desc.isJump = false →
      ∃ M, doEX P1 P2 s = ({ s with slotMEM := some M, slotEX := none }, false))

/-- R292, R262: the decode stage reads both register fields, records the prediction of a branch, and
moves the record to EX; a branch predicted taken also sends the cursor to its target, empties IF and
signals the redirect. -/
def Obligations.DecodeStage : Prop :=
  ∀ (s : State) (L : Latch), s.slotID = some L →
    let t := (doID (s, false)).1
    ∃ M, t.slotEX = some M ∧ t.slotID = none ∧
      M.idx = L.idx ∧ M.pc = L.pc ∧ M.word = L.word ∧
      M.opA = s.readReg (rsField L.word) ∧ M.opB = s.readReg (rtField L.word) ∧
      (L.desc.isBranch = true →
        M.predTaken = predict s.cfg.branchPredictionMode s.bpCounter ∧
        (M.predTaken = true → L.desc.target = some M.predTarget ∧ t.cursor = M.predTarget ∧
          t.slotIF = none ∧ (doID (s, false)).2 = true) ∧
        (M.predTaken = false → M.predTarget = L.pc + 4#32)) ∧
      (L.desc.isBranch = false ∨ M.predTaken = false →
        t.cursor = s.cursor ∧ t.slotIF = s.slotIF ∧ (doID (s, false)).2 = false)

/-- R293: the occupant of IF enters ID with its stall count, which arms the data-stall counter when it is
not zero. -/
def Obligations.EnteringIDArmsTheStall : Prop :=
  ∀ (s : State) (L : Latch), s.slotIF = some L →
    let h := (s.hazard L.idx).stall
    enterID s = { s with
      slotID := some { L with stall := h }
      slotIF := none
      dataStall := if h = 0 then s.dataStall else h }

/-- R294, R27: with IF empty, the entry whose address equals the cursor is fetched into IF and the cursor
moves on by 4, unless there is no such entry or it is still in ID, EX, MEM or WB; then nothing happens. -/
def Obligations.FetchFollowsTheCursor : Prop :=
  ∀ s : State,
    (∀ (k : Nat) (w : Word), s.prog[k]? = some w →
      s.cursor.toNat = s.params.programBase.toNat + 4 * k →
      (∀ S L, S ≠ .IF → s.slot S = some L → L.idx ≠ k) →
      ∃ M, M.idx = k ∧ M.pc = s.cursor ∧ M.word = w ∧
        fetch s = { s with slotIF := some M, cursor := s.cursor + 4#32 }) ∧
    ((∀ k < s.prog.length, s.cursor.toNat = s.params.programBase.toNat + 4 * k →
      ∃ S L, S ≠ .IF ∧ s.slot S = some L ∧ L.idx = k) → fetch s = s)

/-- R283: a data-stall tick. The instructions in EX and MEM advance one stage and EX is left empty. The
counter goes down by one, IF and ID keep their occupants and the cursor is unchanged, unless the
instruction in EX redirects; then IF, ID and the counter are cleared. -/
def Obligations.DataStallTick : Prop :=
  ∀ s t : State, s.mode = .running → 0 < s.dataStall → step s = .next t →
    let redirected := (backEnd s.slotMEM s.slotWB { s with dataStall := s.dataStall - 1 }).2
    t.slotEX = none ∧ t.slotMEM.map (·.idx) = s.slotEX.map (·.idx) ∧
    t.slotWB.map (·.idx) = s.slotMEM.map (·.idx) ∧
    (redirected = false → t.slotIF = s.slotIF ∧ t.slotID = s.slotID ∧ t.cursor = s.cursor ∧
      t.dataStall = s.dataStall - 1) ∧
    (redirected = true → s.slotEX.isSome ∧ t.slotIF = none ∧ t.slotID = none ∧ t.dataStall = 0)

/-- R284: in a misprediction-stall tick of a reachable state the counter goes down by one, nothing is
fetched, the cursor is held and the pipeline drains. -/
def Obligations.MispredictionStallTick : Prop :=
  ∀ s t : State, s.Inv → s.mode = .running → 0 < s.mispStall → step s = .next t →
    t.mispStall = s.mispStall - 1 ∧ t.cursor = s.cursor ∧
    t.slotIF = none ∧ t.slotID = none ∧ t.slotEX = none ∧ t.slotMEM = none ∧
    t.slotWB.map (·.idx) = s.slotMEM.map (·.idx)

/-- R295: when EX or ID redirects in a full tick, nothing enters ID, no stall is armed and nothing is
fetched: IF and ID end the tick empty and the cursor ends it holding the redirected value. -/
def Obligations.RedirectWinsOverFetch : Prop :=
  ∀ s t : State, s.mode = .running → s.dataStall = 0 → s.mispStall = 0 → step s = .next t →
    let w := doID (backEnd s.slotMEM s.slotWB s)
    w.2 = true →
    t.slotIF = none ∧ t.slotID = none ∧ t.dataStall = 0 ∧ t.cursor = w.1.cursor

/-- R282 step 3, R292 to R294: a full tick without a redirect, in EX or in ID. Every occupant moves one
stage; the data stall is the stall count of the instruction that entered ID; the entry at the cursor,
which nothing else moved, is fetched and the cursor goes on by 4, unless there is no such entry or it
is still in a later stage after the movement; then IF is left empty and the cursor unchanged. -/
def Obligations.FullTickMovesEveryStage : Prop :=
  ∀ s t : State, s.mode = .running → s.dataStall = 0 → s.mispStall = 0 → step s = .next t →
    let entry := fun (L : Latch) => (L.idx, L.pc, L.word)
    (doID (backEnd s.slotMEM s.slotWB s)).2 = false →
    t.slotWB.map entry = s.slotMEM.map entry ∧ t.slotMEM.map entry = s.slotEX.map entry ∧
    t.slotEX.map entry = s.slotID.map entry ∧ t.slotID.map entry = s.slotIF.map entry ∧
    (∀ L, s.slotIF = some L → t.dataStall = (s.hazard L.idx).stall) ∧
    (s.slotIF = none → t.dataStall = 0) ∧
    t.mispStall = 0 ∧
    (∀ (k : Nat) (w : Word), s.prog[k]? = some w →
      s.cursor.toNat = s.params.programBase.toNat + 4 * k →
      (∀ S L, S ≠ .IF → t.slot S = some L → L.idx ≠ k) →
      t.slotIF.map entry = some (k, s.cursor, w) ∧ t.cursor = s.cursor + 4#32) ∧
    ((∀ k < s.prog.length, s.cursor.toNat = s.params.programBase.toNat + 4 * k →
      ∃ S L, S ≠ .IF ∧ t.slot S = some L ∧ L.idx = k) → t.slotIF = none ∧ t.cursor = s.cursor)

/-- R282, R297, R298: a tick in `Running` finishes the run exactly when it leaves the pipeline empty with
the cursor past the end; only such a tick is not counted, and a finishing tick is the only way the mode
changes. "Past the end" is a comparison of natural numbers, as R27 writes it (log entry 6). -/
def Obligations.FinishRule : Prop :=
  ∀ s t : State, s.mode = .running → step s = .next t →
    (t.mode = .finished ↔
      (∀ S, t.slot S = none) ∧
      (t.prog.length = 0 ∨
        t.params.programBase.toNat + 4 * (t.prog.length - 1) < t.cursor.toNat)) ∧
    (t.mode = .finished → t.cycle = s.cycle) ∧
    (t.mode ≠ .finished → t.mode = .running ∧ t.cycle = s.cycle + 1)

/-- R23, R286, R288, R334: in one tick only the destination of the instruction in WB can change among the
registers, and only bytes of the in-bounds store in MEM can change in memory. -/
def Obligations.StepChangesOnlyCommittedState : Prop :=
  ∀ s t : State, step s = .next t →
    (∀ r : Reg, (∀ L, s.slotWB = some L → L.desc.dest ≠ some r) → t.readReg r = s.readReg r) ∧
    (∀ a : Nat, (∀ L w, s.slotMEM = some L → (ruleOf L.instr).mem = .store w →
        inBounds s.params.memWords w L.result = true →
        a < (alignedAddr w L.result).toNat ∨ (alignedAddr w L.result).toNat + w.bytes ≤ a) →
      t.mem.readByte a = s.mem.readByte a)

/-- R20 to R49, R360, R361: `reset` and `submit program` give the reset state whatever came before: every
register 0 but the stack pointer, memory 0, the pipeline empty, the counters 0, the cursor at the
program base, the configuration kept. -/
def Obligations.ResetAndSubmitState : Prop :=
  ∀ (s : State) (p : List Word),
    (∀ t ∈ [s.resetCommand, s.submitProgram p],
      (∀ r : Reg, t.readReg r =
        if r = 0#5 then 0#32 else if r = s.params.spReg then s.params.spInit else 0#32) ∧
      (∀ a, t.mem.readByte a = 0#8) ∧ t.cursor = s.params.programBase ∧
      (∀ S, t.slot S = none) ∧ t.dataStall = 0 ∧ t.mispStall = 0 ∧ t.missCount = 0 ∧ t.cycle = 0 ∧
      t.bpCounter = (if s.cfg.stateMachineInitialPrediction = .taken then .stronglyTaken
        else .stronglyNotTaken) ∧
      t.cfg = s.cfg ∧ t.params = s.params) ∧
    s.resetCommand.mode = .paused ∧ s.resetCommand.prog = [] ∧
    (s.submitProgram p).mode = .running ∧ (s.submitProgram p).prog = p

/-- R8, R32, R49, R362: the power-on state. The parameters are the defaults of rule R8 (log entry 16). -/
def Obligations.PowerOnState : Prop :=
  (∀ r : Reg, State.reset.readReg r = if r = 29#5 then 0x00000FFC#32 else 0#32) ∧
  State.reset.mem = [] ∧ State.reset.cursor = 0x00400000#32 ∧ State.reset.prog = [] ∧
  (∀ S, State.reset.slot S = none) ∧ State.reset.dataStall = 0 ∧ State.reset.mispStall = 0 ∧
  State.reset.bpCounter = .stronglyNotTaken ∧ State.reset.missCount = 0 ∧ State.reset.cycle = 0 ∧
  State.reset.mode = .paused ∧
  State.reset.cfg.forwardingEnabled = false ∧ State.reset.cfg.stallsEnabled = true ∧
  State.reset.cfg.branchPredictionMode = .none ∧
  State.reset.cfg.stateMachineInitialPrediction = .notTaken ∧
  State.reset.cfg.missThreshold.val = 1 ∧
  State.reset.params.programBase = 0x00400000#32 ∧ State.reset.params.memWords = 1024 ∧
  State.reset.params.spReg = 29#5 ∧ State.reset.params.spInit = 0x00000FFC#32 ∧
  State.reset.params.byteOrder = .little ∧ State.reset.params.mispredictPenalty = 2

/-- R45: `pause`, `resume`, `step-forward` and `set configuration`. -/
def Obligations.HostCommands : Prop :=
  ∀ (s : State) (u : ConfigurationUpdate),
    (s.mode = .running → s.pause = { s with mode := .paused }) ∧ (s.mode ≠ .running → s.pause = s) ∧
    (s.mode = .paused → s.resume = { s with mode := .running }) ∧ (s.mode ≠ .paused → s.resume = s) ∧
    (s.mode = .finished → s.stepForward = s) ∧
    (s.mode ≠ .finished →
      step { s with mode := .running } = .next
          (if s.stepForward.mode = .finished then s.stepForward
           else { s.stepForward with mode := .running }) ∧
      (s.stepForward.mode = .finished ∨ s.stepForward.mode = s.mode)) ∧
    (∃ c, s.setConfiguration u = { s with cfg := c } ∧
      (∀ b, u.forwardingEnabled = some b → c.forwardingEnabled = b) ∧
      (u.forwardingEnabled = none → c.forwardingEnabled = s.cfg.forwardingEnabled) ∧
      (∀ b, u.stallsEnabled = some b → c.stallsEnabled = b) ∧
      (u.stallsEnabled = none → c.stallsEnabled = s.cfg.stallsEnabled) ∧
      (∀ m, u.branchPredictionMode = some m → c.branchPredictionMode = m) ∧
      (u.branchPredictionMode = none → c.branchPredictionMode = s.cfg.branchPredictionMode) ∧
      (∀ m, u.stateMachineInitialPrediction = some m → c.stateMachineInitialPrediction = m) ∧
      (u.stateMachineInitialPrediction = none →
        c.stateMachineInitialPrediction = s.cfg.stateMachineInitialPrediction) ∧
      (∀ n, u.missThreshold = some n → c.missThreshold = n) ∧
      (u.missThreshold = none → c.missThreshold = s.cfg.missThreshold))

/-- R48, R372: the invariant holds at power-on and after `reset` and `submit program`; after a submission
with stalling on the invariant behind sequential equivalence holds too, for a program that ends below
the top of the address space (log entry 6). The invariant is the model's wording of R48 and more. -/
def Obligations.InvariantsHoldInitially : Prop :=
  State.reset.Inv ∧ ∀ (s : State) (p : List Word), s.resetCommand.Inv ∧ (s.submitProgram p).Inv ∧
    (s.cfg.stallsEnabled = true → (s.submitProgram p).programFits → (s.submitProgram p).SeqInv)

/-- R48: every step from a state that meets the invariant gives a state that meets it. -/
def Obligations.StepKeepsInvariant : Prop :=
  ∀ s t : State, s.Inv → step s = .next t → t.Inv

/-- R45, R48: every host command keeps the invariant. -/
def Obligations.CommandsKeepInvariant : Prop :=
  ∀ (s : State) (c : Command), s.Inv → (s.command c).Inv

/-- R46, R47: in a state that meets the invariant the snapshot shows program entry `k` in stage `S`
exactly when the slot of `S` holds it; it has one stage and one hazard record for each entry, the 32
registers and the words of the data memory. -/
def Obligations.SnapshotShowsTheSlots : Prop :=
  ∀ s : State, s.Inv →
    (∀ k S, k < s.prog.length →
      (s.snapshot.stages[k]? = some (some S) ↔ ∃ L, s.slot S = some L ∧ L.idx = k)) ∧
    s.snapshot.stages.length = s.prog.length ∧
    (∀ k, k < s.prog.length → s.snapshot.hazards[k]? = some (s.hazard k)) ∧
    (∀ r : Reg, s.snapshot.registers[r.toNat]? = some (s.readReg r)) ∧
    (∀ k, k < s.params.memWords → s.snapshot.memory[k]? = some (s.memWord k)) ∧
    s.snapshot.cycle = s.cycle ∧ s.snapshot.mode = s.mode ∧ s.snapshot.missCount = s.missCount

/-! ### 7. The pipeline runs the instructions' meanings -/

/-- A step runs the decoded instruction (R12, R286 to R290). When EX holds a word that decodes to `i` and
the delivered operands `i` uses are the register file's values once MEM and WB have completed, then
one step has, once MEM and WB have completed again, exactly the registers and memory of `exec i` at
the instruction's own address; and if `i` is a jump or a mispredicted branch the cursor is the one
`exec i` gives. Nothing else of the step reaches registers or memory. That `step` is the tick and `exec`
the sequential meaning is the model's choice (log entry 1). -/
def Obligations.StepRunsTheInstructionInEX : Prop :=
  ∀ (s : State) (L : Latch) (i : Instr), s.mode = .running → s.slotEX = some L →
    decodeWord L.word = i →
    (rsField L.word ∈ sourceFields i →
      deliveredA s s.slotMEM s.slotWB L = s.arch.readReg (rsField L.word)) →
    (rtField L.word ∈ sourceFields i →
      deliveredB s s.slotMEM s.slotWB L = s.arch.readReg (rtField L.word)) →
    ∃ t u, step s = .next t ∧ exec i s.arch = .next u ∧ s.arch.cursor = L.pc ∧
      t.drain.regs = u.regs ∧ t.drain.mem = u.mem ∧
      (L.desc.isJump = true → t.cursor = u.cursor) ∧
      (L.desc.isBranch = true → t.missCount ≠ s.missCount → t.cursor = u.cursor)

/-- R283 to R288: a step with nothing in EX changes neither registers nor memory but by completing what
was in MEM and WB. -/
def Obligations.StepWithEmptyEXExecutesNothing : Prop :=
  ∀ s t : State, s.slotEX = none → step s = .next t →
    t.drain.regs = s.drain.regs ∧ t.drain.mem = s.drain.mem

/-- R246, R248: with the value read in ID current, the delivered value of a register is its value once
MEM and WB have completed: with forwarding on, unless a load in MEM writes it; with forwarding off, when
neither MEM nor WB writes it. -/
def Obligations.DeliveredOperandIsTheSequentialValue : Prop :=
  ∀ (s : State) (r : Reg),
    (s.cfg.forwardingEnabled = true →
      (∀ P, s.slotMEM = some P → P.desc.isLoad = true → P.desc.dest ≠ some r) →
      forward true r (s.readReg r) s.slotMEM s.slotWB = s.drain.readReg r) ∧
    (s.cfg.forwardingEnabled = false →
      (∀ P, s.slotMEM = some P → P.desc.dest ≠ some r) →
      (∀ P, s.slotWB = some P → P.desc.dest ≠ some r) →
      forward false r (s.readReg r) s.slotMEM s.slotWB = s.drain.readReg r)

/-- R374 (derived there), the stale operands of ideal-pipeline mode, for each of the two operands: with
forwarding off an instruction in EX receives the register file's content, whatever MEM and WB are about
to write; with forwarding on, behind a load in MEM it receives the value of the instruction in WB if that
one writes the register, else the register file's content. -/
def Obligations.StaleOperandsAreDeterministic : Prop :=
  ∀ (s : State) (L : Latch), s.slotEX = some L →
    let stale := fun (r : Reg) (delivered : Word) =>
      (s.cfg.forwardingEnabled = false → delivered = s.readReg r) ∧
      (s.cfg.forwardingEnabled = true →
        ∀ P, s.slotMEM = some P → P.desc.isLoad = true →
          (∀ Q, s.slotWB = some Q → Q.desc.dest = some r → delivered = Q.wbValue) ∧
          ((∀ Q, s.slotWB = some Q → Q.desc.dest ≠ some r) → delivered = s.readReg r))
    (L.opA = s.readReg (rsField L.word) →
      stale (rsField L.word) (deliveredA s s.slotMEM s.slotWB L)) ∧
    (L.opB = s.readReg (rtField L.word) →
      stale (rtField L.word) (deliveredB s s.slotMEM s.slotWB L))

/-- R248, R372 (derived there), one step: from a state that meets the sequential invariant, a step keeps
it, and registers, memory and program counter as the sequential machine sees them either stay as they
are (nothing was in EX) or make exactly one step of the sequential machine. The invariant asks for a
program that ends below the top of the address space: the model's premise (log entry 6). -/
def Obligations.StepRefinesTheSequentialMachine : Prop :=
  ∀ s t : State, s.SeqInv → s.mode = .running → step s = .next t →
    t.SeqInv ∧
    (s.slotEX = none → sameArch t.arch s.arch) ∧
    (s.slotEX ≠ none → ∃ u, seqStep s.arch = some (.next u) ∧ sameArch t.arch u)

/-- R372 (derived there), whole runs, both ways, with stalling on. When the pipeline reaches `Finished`
after a submission, the sequential machine started from the same submission reaches, after some number
of steps, the same registers and memory with its program counter past the end, and stops there. When the
sequential machine stops with its program counter past the end, the pipeline reaches `Finished` with the
same registers and memory. The program ends below the top of the address space: the model's premise (log
entry 6). -/
def Obligations.FinishedRunEqualsSequentialRun : Prop :=
  ∀ (s : State) (p : List Word), s.cfg.stallsEnabled = true → (s.submitProgram p).programFits →
    (∀ n, (ticks n (s.submitProgram p)).mode = .finished →
      ∃ m u, seqRun m (s.submitProgram p) = some u ∧ seqStep u = none ∧
        u.pastEnd u.cursor = true ∧ sameArch (ticks n (s.submitProgram p)) u) ∧
    (∀ m u, seqRun m (s.submitProgram p) = some u → seqStep u = none → u.pastEnd u.cursor = true →
      ∃ n, (ticks n (s.submitProgram p)).mode = .finished ∧
        sameArch (ticks n (s.submitProgram p)) u)

/-- R381: `N` instructions that are no control transfers and have no stall finish at cycle `N + 4`, and
not before; an empty program finishes at cycle 0. That the program ends below the top of the address
space is the model's premise (log entry 6). -/
def Obligations.ThroughputBaseline : Prop :=
  ∀ (s : State) (p : List Word),
    (s.submitProgram p).programFits →
    (∀ k < p.length, ((s.submitProgram p).hazard k).stall = 0) →
    (∀ w ∈ p, (kindOf (decodeWord w)).isControl = false) →
    (p ≠ [] → (ticks (p.length + 5) (s.submitProgram p)).mode = .finished ∧
      (ticks (p.length + 5) (s.submitProgram p)).cycle = p.length + 4 ∧
      (ticks (p.length + 4) (s.submitProgram p)).mode = .running) ∧
    (p = [] → (ticks 1 (s.submitProgram p)).mode = .finished ∧
      (ticks 1 (s.submitProgram p)).cycle = 0)
end

