-- ==== Sys2Proof/Laws/Encode.lean ====
section
/-! SUPPORT. What each field reads from a word of each format (spec rules R91 to R94), so that a round
trip through the encoder never unfolds bits. -/

namespace Sys2Proof

@[simp] theorem opField_encodeR (rs rt rd : Reg) (sh : Shamt) (f : BitVec 6) :
    opField (encodeR rs rt rd sh f) = 0#6 := by
  ext i hi
  simp only [opField, encodeR, BitVec.getElem_extractLsb', BitVec.getLsbD_append]
  grind

@[simp] theorem rsField_encodeR (rs rt rd : Reg) (sh : Shamt) (f : BitVec 6) :
    rsField (encodeR rs rt rd sh f) = rs := by
  ext i hi
  simp only [rsField, encodeR, BitVec.getElem_extractLsb', BitVec.getLsbD_append]
  grind

@[simp] theorem rtField_encodeR (rs rt rd : Reg) (sh : Shamt) (f : BitVec 6) :
    rtField (encodeR rs rt rd sh f) = rt := by
  ext i hi
  simp only [rtField, encodeR, BitVec.getElem_extractLsb', BitVec.getLsbD_append]
  grind

@[simp] theorem rdField_encodeR (rs rt rd : Reg) (sh : Shamt) (f : BitVec 6) :
    rdField (encodeR rs rt rd sh f) = rd := by
  ext i hi
  simp only [rdField, encodeR, BitVec.getElem_extractLsb', BitVec.getLsbD_append]
  grind

@[simp] theorem shamtField_encodeR (rs rt rd : Reg) (sh : Shamt) (f : BitVec 6) :
    shamtField (encodeR rs rt rd sh f) = sh := by
  ext i hi
  simp only [shamtField, encodeR, BitVec.getElem_extractLsb', BitVec.getLsbD_append]
  grind

@[simp] theorem functField_encodeR (rs rt rd : Reg) (sh : Shamt) (f : BitVec 6) :
    functField (encodeR rs rt rd sh f) = f := by
  ext i hi
  simp only [functField, encodeR, BitVec.getElem_extractLsb', BitVec.getLsbD_append]
  grind

@[simp] theorem opField_encodeI (op : BitVec 6) (rs rt : Reg) (imm : Imm16) :
    opField (encodeI op rs rt imm) = op := by
  ext i hi
  simp only [opField, encodeI, BitVec.getElem_extractLsb', BitVec.getLsbD_append]
  grind

@[simp] theorem rsField_encodeI (op : BitVec 6) (rs rt : Reg) (imm : Imm16) :
    rsField (encodeI op rs rt imm) = rs := by
  ext i hi
  simp only [rsField, encodeI, BitVec.getElem_extractLsb', BitVec.getLsbD_append]
  grind

@[simp] theorem rtField_encodeI (op : BitVec 6) (rs rt : Reg) (imm : Imm16) :
    rtField (encodeI op rs rt imm) = rt := by
  ext i hi
  simp only [rtField, encodeI, BitVec.getElem_extractLsb', BitVec.getLsbD_append]
  grind

@[simp] theorem imm16Field_encodeI (op : BitVec 6) (rs rt : Reg) (imm : Imm16) :
    imm16Field (encodeI op rs rt imm) = imm := by
  ext i hi
  simp only [imm16Field, encodeI, BitVec.getElem_extractLsb', BitVec.getLsbD_append]
  grind

@[simp] theorem opField_encodeJ (op : BitVec 6) (index : Index26) :
    opField (encodeJ op index) = op := by
  ext i hi
  simp only [opField, encodeJ, BitVec.getElem_extractLsb', BitVec.getLsbD_append]
  grind

@[simp] theorem index26Field_encodeJ (op : BitVec 6) (index : Index26) :
    index26Field (encodeJ op index) = index := by
  ext i hi
  simp only [index26Field, encodeJ, BitVec.getElem_extractLsb', BitVec.getLsbD_append]
  grind

/-- Rules R97 and R98 read the opcode and the function. -/
theorem selectsInstruction_eq (w : Word) : selectsInstruction w =
    if opField w = 0#6 then supportedFuncts.contains (functField w)
    else supportedOpcodes.contains (opField w) := rfl

/-- A six-bit field with a known value is that literal. -/
theorem field6_eq {n : Nat} {x : BitVec 6} (h : x.toNat = n) : x = BitVec.ofNat 6 n := by
  subst h; simp

end Sys2Proof
end

