-- ==== Sys2Proof/Laws/Hazard.lean ====
section
/-! SUPPORT. What one preceding instruction contributes to a hazard record, and the record as a whole
(spec rules R231 to R243); what the forwarding mux delivers (R246). -/

namespace Sys2Proof.Machine

/-! ### One producer -/

theorem descAt_idx {s : State} {k : Nat} {P : Descriptor} (h : s.descAt k = some P) : P.idx = k := by
  unfold State.descAt at h
  split at h
  · cases h
  · cases h; rfl

theorem findingAt_raw (s : State) (C : Descriptor) (i d : Nat) :
    (s.findingAt C i d).raw = true ↔
      ∃ P r, d ≤ i ∧ s.descAt (i - d) = some P ∧ P.dest = some r ∧ r ∈ C.reads := by
  unfold State.findingAt
  split
  · simp [Finding.nothing]; omega
  · split
    · simp_all [Finding.nothing]
    · rename_i P hP
      simp only [examine, hP]
      cases hd : P.dest <;> simp [Finding.nothing, hd]
      omega

theorem findingAt_waw (s : State) (C : Descriptor) (i d : Nat) :
    (s.findingAt C i d).waw = true ↔
      ∃ P r, d ≤ i ∧ s.descAt (i - d) = some P ∧ P.dest = some r ∧ C.dest = some r := by
  unfold State.findingAt
  split
  · simp [Finding.nothing]; omega
  · split
    · simp_all [Finding.nothing]
    · rename_i P hP
      simp only [examine, hP]
      cases hd : P.dest <;> simp [Finding.nothing, hd]
      omega

/-- A producer the consumer does not read asks for no stall (R231). -/
theorem findingAt_need_of_not_raw (s : State) (C : Descriptor) (i d : Nat)
    (h : (s.findingAt C i d).raw = false) : (s.findingAt C i d).need = 0 := by
  unfold State.findingAt at *
  split at h
  · simp_all [Finding.nothing]
  · rename_i hi
    rw [if_neg hi]
    split at h
    · simp_all [Finding.nothing]
    · simp only [examine] at *
      split at h
      · simp [Finding.nothing]
      · simp only [] at h; simp [h]

/-- A producer the consumer reads asks for what the policy table says (R234). -/
theorem findingAt_need (s : State) (C P : Descriptor) (i d : Nat) (hd : d ≤ i)
    (hP : s.descAt (i - d) = some P) (r : Reg) (h1 : P.dest = some r) (h2 : r ∈ C.reads) :
    (s.findingAt C i d).need = stallNeed s.cfg.forwardingEnabled P.isLoad d := by
  unfold State.findingAt
  simp [show ¬ i < d by omega, hP, examine, h1, h2]

theorem mem_findingAt_records (s : State) (C : Descriptor) (i d : Nat) (f : ForwardingRecord) :
    f ∈ (s.findingAt C i d).records ↔ s.cfg.forwardingEnabled = true ∧
      ∃ P, d ≤ i ∧ s.descAt (i - d) = some P ∧ P.dest = some f.register ∧ f.register ∈ C.reads ∧
        f.producer = i - d ∧ f.consumer = C.idx ∧ f.consumerStage = .EX ∧
        f.producerStage = producerStage P.isLoad d := by
  unfold State.findingAt
  split
  · simp [Finding.nothing]; omega
  · split
    · simp_all [Finding.nothing]
    · rename_i P hP
      have := descAt_idx hP
      simp only [examine, hP]
      cases hd : P.dest <;> simp [Finding.nothing, hd]
      rename_i r
      by_cases hr : r ∈ C.reads <;> by_cases hf : s.cfg.forwardingEnabled = true <;> simp [hr, hf]
      · constructor
        · rintro rfl; simp [hr, this]; omega
        · obtain ⟨a, b, c, d, e⟩ := f
          rintro ⟨h0, h, h1, h2, h3, h4, h5⟩
          simp_all
      · rintro h0 rfl h1; exact absurd h1 hr

/-! ### The record (R231, R236) -/

theorem hazard_of_desc {s : State} {i : Nat} {C : Descriptor} (h : s.cfg.stallsEnabled = true)
    (hC : s.descAt i = some C) : s.hazard i =
      let f1 := s.findingAt C i 1
      let f2 := s.findingAt C i 2
      let raw := f1.raw || f2.raw
      { type :=
          if raw then .raw
          else if f1.waw || f2.waw then .waw
          else if C.kind.isControl then .control
          else .none
        canForward := raw && s.cfg.forwardingEnabled
        stall := max f1.need f2.need
        records := f1.records ++ f2.records } := by
  simp [State.hazard, h, hC]

theorem hazard_of_no_desc {s : State} {i : Nat} (hC : s.descAt i = none) :
    s.hazard i = HazardRecord.clear := by
  unfold State.hazard; simp [hC]

theorem hazard_of_stalls_off {s : State} {i : Nat} (h : s.cfg.stallsEnabled = false) :
    s.hazard i = HazardRecord.clear := by
  unfold State.hazard; simp [h]

/-- The hazard record depends on the inputs only (R230). -/
theorem hazard_congr {s t : State} (hp : t.prog = s.prog) (hc : t.cfg = s.cfg)
    (hb : t.params = s.params) (i : Nat) : t.hazard i = s.hazard i := by
  have hd : t.descAt = s.descAt := by
    funext k; simp only [State.descAt, State.entryAddress, hp, hb]
  have hf : t.findingAt = s.findingAt := by
    funext C i d; simp only [State.findingAt, hd, hc]
  simp only [State.hazard, hd, hf, hc]

/-! ### The mux (R246) -/

@[simp] theorem forward_off (r : Reg) (v : Word) (P1 P2 : Option Latch) :
    forward false r v P1 P2 = v := by simp [forward]

@[simp] theorem forward_zero (enabled : Bool) (v : Word) (P1 P2 : Option Latch) :
    forward enabled 0#5 v P1 P2 = v := by simp [forward]

theorem forward_near {r : Reg} (hr : r ≠ 0#5) (v : Word) {L : Latch} (P2 : Option Latch)
    (hd : L.desc.dest = some r) (hl : L.desc.isLoad = false) :
    forward true r v (some L) P2 = L.result := by
  simp [forward, hr, hd, hl]

theorem forward_far {r : Reg} (hr : r ≠ 0#5) (v : Word) {P1 : Option Latch} {L : Latch}
    (h1 : ∀ P, P1 = some P → P.desc.dest = some r → P.desc.isLoad = true)
    (hd : L.desc.dest = some r) : forward true r v P1 (some L) = L.wbValue := by
  cases P1 with
  | none => simp [forward, hr, hd]
  | some P =>
    have : ¬ (P.desc.dest = some r ∧ P.desc.isLoad = false) := fun h => by
      have := h1 P rfl h.1; simp [h.2] at this
    simp [forward, hr, hd, this]

theorem forward_none (r : Reg) (v : Word) {P1 P2 : Option Latch}
    (h1 : ∀ P, P1 = some P → P.desc.dest = some r → P.desc.isLoad = true)
    (h2 : ∀ P, P2 = some P → P.desc.dest ≠ some r) : forward true r v P1 P2 = v := by
  have h1' : ∀ P, P1 = some P → ¬ (P.desc.dest = some r ∧ P.desc.isLoad = false) := fun P hP h => by
    have := h1 P hP h.1; simp [h.2] at this
  cases P1 with
  | none =>
    cases P2 with
    | none => simp [forward]
    | some L => simp [forward, h2 L rfl]
  | some P =>
    cases P2 with
    | none => simp [forward, h1' P rfl]
    | some L => simp [forward, h1' P rfl, h2 L rfl]

/-- A conditional branch has a static target (R128). -/
theorem target_of_isBranch (L : Latch) (h : L.desc.isBranch = true) : ∃ t, L.desc.target = some t := by
  have : ∀ i, kindOf i = .conditionalBranch → ∃ t, staticTarget L.pc i = some t := by
    intro i hi; cases i <;> first | exact ⟨_, rfl⟩ | exact absurd hi (by simp [kindOf])
  exact this _ (by simp [Descriptor.isBranch] at h; exact h)

end Sys2Proof.Machine
end

