-- ==== Sys2Proof/Laws/State.lean ====
section
/-! SUPPORT. What each shared operation leaves unchanged, one lemma a field, so that no later proof
unfolds an operation to see that it does not touch a field. -/

namespace Sys2Proof.Machine

/-! ### `writeReg` and `writeDest` change the register file only -/

@[simp] theorem writeReg_params (s : State) (r : Reg) (v : Word) : (s.writeReg r v).params = s.params := by
  unfold State.writeReg; split <;> rfl
@[simp] theorem writeReg_cfg (s : State) (r : Reg) (v : Word) : (s.writeReg r v).cfg = s.cfg := by
  unfold State.writeReg; split <;> rfl
@[simp] theorem writeReg_prog (s : State) (r : Reg) (v : Word) : (s.writeReg r v).prog = s.prog := by
  unfold State.writeReg; split <;> rfl
@[simp] theorem writeReg_mem (s : State) (r : Reg) (v : Word) : (s.writeReg r v).mem = s.mem := by
  unfold State.writeReg; split <;> rfl
@[simp] theorem writeReg_cursor (s : State) (r : Reg) (v : Word) : (s.writeReg r v).cursor = s.cursor := by
  unfold State.writeReg; split <;> rfl
@[simp] theorem writeReg_slotIF (s : State) (r : Reg) (v : Word) : (s.writeReg r v).slotIF = s.slotIF := by
  unfold State.writeReg; split <;> rfl
@[simp] theorem writeReg_slotID (s : State) (r : Reg) (v : Word) : (s.writeReg r v).slotID = s.slotID := by
  unfold State.writeReg; split <;> rfl
@[simp] theorem writeReg_slotEX (s : State) (r : Reg) (v : Word) : (s.writeReg r v).slotEX = s.slotEX := by
  unfold State.writeReg; split <;> rfl
@[simp] theorem writeReg_slotMEM (s : State) (r : Reg) (v : Word) : (s.writeReg r v).slotMEM = s.slotMEM := by
  unfold State.writeReg; split <;> rfl
@[simp] theorem writeReg_slotWB (s : State) (r : Reg) (v : Word) : (s.writeReg r v).slotWB = s.slotWB := by
  unfold State.writeReg; split <;> rfl
@[simp] theorem writeReg_dataStall (s : State) (r : Reg) (v : Word) : (s.writeReg r v).dataStall = s.dataStall := by
  unfold State.writeReg; split <;> rfl
@[simp] theorem writeReg_mispStall (s : State) (r : Reg) (v : Word) : (s.writeReg r v).mispStall = s.mispStall := by
  unfold State.writeReg; split <;> rfl
@[simp] theorem writeReg_bpCounter (s : State) (r : Reg) (v : Word) : (s.writeReg r v).bpCounter = s.bpCounter := by
  unfold State.writeReg; split <;> rfl
@[simp] theorem writeReg_missCount (s : State) (r : Reg) (v : Word) : (s.writeReg r v).missCount = s.missCount := by
  unfold State.writeReg; split <;> rfl
@[simp] theorem writeReg_cycle (s : State) (r : Reg) (v : Word) : (s.writeReg r v).cycle = s.cycle := by
  unfold State.writeReg; split <;> rfl
@[simp] theorem writeReg_mode (s : State) (r : Reg) (v : Word) : (s.writeReg r v).mode = s.mode := by
  unfold State.writeReg; split <;> rfl
@[simp] theorem writeDest_params (s : State) (d : Option Reg) (v : Word) : (s.writeDest d v).params = s.params := by
  cases d <;> simp [State.writeDest]
@[simp] theorem writeDest_cfg (s : State) (d : Option Reg) (v : Word) : (s.writeDest d v).cfg = s.cfg := by
  cases d <;> simp [State.writeDest]
@[simp] theorem writeDest_prog (s : State) (d : Option Reg) (v : Word) : (s.writeDest d v).prog = s.prog := by
  cases d <;> simp [State.writeDest]
@[simp] theorem writeDest_mem (s : State) (d : Option Reg) (v : Word) : (s.writeDest d v).mem = s.mem := by
  cases d <;> simp [State.writeDest]
@[simp] theorem writeDest_cursor (s : State) (d : Option Reg) (v : Word) : (s.writeDest d v).cursor = s.cursor := by
  cases d <;> simp [State.writeDest]
@[simp] theorem writeDest_slotIF (s : State) (d : Option Reg) (v : Word) : (s.writeDest d v).slotIF = s.slotIF := by
  cases d <;> simp [State.writeDest]
@[simp] theorem writeDest_slotID (s : State) (d : Option Reg) (v : Word) : (s.writeDest d v).slotID = s.slotID := by
  cases d <;> simp [State.writeDest]
@[simp] theorem writeDest_slotEX (s : State) (d : Option Reg) (v : Word) : (s.writeDest d v).slotEX = s.slotEX := by
  cases d <;> simp [State.writeDest]
@[simp] theorem writeDest_slotMEM (s : State) (d : Option Reg) (v : Word) : (s.writeDest d v).slotMEM = s.slotMEM := by
  cases d <;> simp [State.writeDest]
@[simp] theorem writeDest_slotWB (s : State) (d : Option Reg) (v : Word) : (s.writeDest d v).slotWB = s.slotWB := by
  cases d <;> simp [State.writeDest]
@[simp] theorem writeDest_dataStall (s : State) (d : Option Reg) (v : Word) : (s.writeDest d v).dataStall = s.dataStall := by
  cases d <;> simp [State.writeDest]
@[simp] theorem writeDest_mispStall (s : State) (d : Option Reg) (v : Word) : (s.writeDest d v).mispStall = s.mispStall := by
  cases d <;> simp [State.writeDest]
@[simp] theorem writeDest_bpCounter (s : State) (d : Option Reg) (v : Word) : (s.writeDest d v).bpCounter = s.bpCounter := by
  cases d <;> simp [State.writeDest]
@[simp] theorem writeDest_missCount (s : State) (d : Option Reg) (v : Word) : (s.writeDest d v).missCount = s.missCount := by
  cases d <;> simp [State.writeDest]
@[simp] theorem writeDest_cycle (s : State) (d : Option Reg) (v : Word) : (s.writeDest d v).cycle = s.cycle := by
  cases d <;> simp [State.writeDest]
@[simp] theorem writeDest_mode (s : State) (d : Option Reg) (v : Word) : (s.writeDest d v).mode = s.mode := by
  cases d <;> simp [State.writeDest]
/-! ### `memWrite` and `memAccess` change the data memory only -/

@[simp] theorem memWrite_params (s : State) (w : Width) (a v : Word) : (s.memWrite w a v).params = s.params := by
  unfold State.memWrite; split <;> rfl
@[simp] theorem memWrite_cfg (s : State) (w : Width) (a v : Word) : (s.memWrite w a v).cfg = s.cfg := by
  unfold State.memWrite; split <;> rfl
@[simp] theorem memWrite_prog (s : State) (w : Width) (a v : Word) : (s.memWrite w a v).prog = s.prog := by
  unfold State.memWrite; split <;> rfl
@[simp] theorem memWrite_regs (s : State) (w : Width) (a v : Word) : (s.memWrite w a v).regs = s.regs := by
  unfold State.memWrite; split <;> rfl
@[simp] theorem memWrite_cursor (s : State) (w : Width) (a v : Word) : (s.memWrite w a v).cursor = s.cursor := by
  unfold State.memWrite; split <;> rfl
@[simp] theorem memWrite_slotIF (s : State) (w : Width) (a v : Word) : (s.memWrite w a v).slotIF = s.slotIF := by
  unfold State.memWrite; split <;> rfl
@[simp] theorem memWrite_slotID (s : State) (w : Width) (a v : Word) : (s.memWrite w a v).slotID = s.slotID := by
  unfold State.memWrite; split <;> rfl
@[simp] theorem memWrite_slotEX (s : State) (w : Width) (a v : Word) : (s.memWrite w a v).slotEX = s.slotEX := by
  unfold State.memWrite; split <;> rfl
@[simp] theorem memWrite_slotMEM (s : State) (w : Width) (a v : Word) : (s.memWrite w a v).slotMEM = s.slotMEM := by
  unfold State.memWrite; split <;> rfl
@[simp] theorem memWrite_slotWB (s : State) (w : Width) (a v : Word) : (s.memWrite w a v).slotWB = s.slotWB := by
  unfold State.memWrite; split <;> rfl
@[simp] theorem memWrite_dataStall (s : State) (w : Width) (a v : Word) : (s.memWrite w a v).dataStall = s.dataStall := by
  unfold State.memWrite; split <;> rfl
@[simp] theorem memWrite_mispStall (s : State) (w : Width) (a v : Word) : (s.memWrite w a v).mispStall = s.mispStall := by
  unfold State.memWrite; split <;> rfl
@[simp] theorem memWrite_bpCounter (s : State) (w : Width) (a v : Word) : (s.memWrite w a v).bpCounter = s.bpCounter := by
  unfold State.memWrite; split <;> rfl
@[simp] theorem memWrite_missCount (s : State) (w : Width) (a v : Word) : (s.memWrite w a v).missCount = s.missCount := by
  unfold State.memWrite; split <;> rfl
@[simp] theorem memWrite_cycle (s : State) (w : Width) (a v : Word) : (s.memWrite w a v).cycle = s.cycle := by
  unfold State.memWrite; split <;> rfl
@[simp] theorem memWrite_mode (s : State) (w : Width) (a v : Word) : (s.memWrite w a v).mode = s.mode := by
  unfold State.memWrite; split <;> rfl
@[simp] theorem memAccess_params (s : State) (work : MemWork) (a v : Word) : (s.memAccess work a v).params = s.params := by
  cases work <;> simp [State.memAccess]
@[simp] theorem memAccess_cfg (s : State) (work : MemWork) (a v : Word) : (s.memAccess work a v).cfg = s.cfg := by
  cases work <;> simp [State.memAccess]
@[simp] theorem memAccess_prog (s : State) (work : MemWork) (a v : Word) : (s.memAccess work a v).prog = s.prog := by
  cases work <;> simp [State.memAccess]
@[simp] theorem memAccess_regs (s : State) (work : MemWork) (a v : Word) : (s.memAccess work a v).regs = s.regs := by
  cases work <;> simp [State.memAccess]
@[simp] theorem memAccess_cursor (s : State) (work : MemWork) (a v : Word) : (s.memAccess work a v).cursor = s.cursor := by
  cases work <;> simp [State.memAccess]
@[simp] theorem memAccess_slotIF (s : State) (work : MemWork) (a v : Word) : (s.memAccess work a v).slotIF = s.slotIF := by
  cases work <;> simp [State.memAccess]
@[simp] theorem memAccess_slotID (s : State) (work : MemWork) (a v : Word) : (s.memAccess work a v).slotID = s.slotID := by
  cases work <;> simp [State.memAccess]
@[simp] theorem memAccess_slotEX (s : State) (work : MemWork) (a v : Word) : (s.memAccess work a v).slotEX = s.slotEX := by
  cases work <;> simp [State.memAccess]
@[simp] theorem memAccess_slotMEM (s : State) (work : MemWork) (a v : Word) : (s.memAccess work a v).slotMEM = s.slotMEM := by
  cases work <;> simp [State.memAccess]
@[simp] theorem memAccess_slotWB (s : State) (work : MemWork) (a v : Word) : (s.memAccess work a v).slotWB = s.slotWB := by
  cases work <;> simp [State.memAccess]
@[simp] theorem memAccess_dataStall (s : State) (work : MemWork) (a v : Word) : (s.memAccess work a v).dataStall = s.dataStall := by
  cases work <;> simp [State.memAccess]
@[simp] theorem memAccess_mispStall (s : State) (work : MemWork) (a v : Word) : (s.memAccess work a v).mispStall = s.mispStall := by
  cases work <;> simp [State.memAccess]
@[simp] theorem memAccess_bpCounter (s : State) (work : MemWork) (a v : Word) : (s.memAccess work a v).bpCounter = s.bpCounter := by
  cases work <;> simp [State.memAccess]
@[simp] theorem memAccess_missCount (s : State) (work : MemWork) (a v : Word) : (s.memAccess work a v).missCount = s.missCount := by
  cases work <;> simp [State.memAccess]
@[simp] theorem memAccess_cycle (s : State) (work : MemWork) (a v : Word) : (s.memAccess work a v).cycle = s.cycle := by
  cases work <;> simp [State.memAccess]
@[simp] theorem memAccess_mode (s : State) (work : MemWork) (a v : Word) : (s.memAccess work a v).mode = s.mode := by
  cases work <;> simp [State.memAccess]
/-! ### `flush` and `redirect` empty IF and ID, cancel the data stall, and steer the cursor -/

@[simp] theorem flush_params (s : State) : s.flush.params = s.params := rfl
@[simp] theorem flush_cfg (s : State) : s.flush.cfg = s.cfg := rfl
@[simp] theorem flush_prog (s : State) : s.flush.prog = s.prog := rfl
@[simp] theorem flush_regs (s : State) : s.flush.regs = s.regs := rfl
@[simp] theorem flush_mem (s : State) : s.flush.mem = s.mem := rfl
@[simp] theorem flush_cursor (s : State) : s.flush.cursor = s.cursor := rfl
@[simp] theorem flush_slotIF (s : State) : s.flush.slotIF = none := rfl
@[simp] theorem flush_slotID (s : State) : s.flush.slotID = none := rfl
@[simp] theorem flush_slotEX (s : State) : s.flush.slotEX = s.slotEX := rfl
@[simp] theorem flush_slotMEM (s : State) : s.flush.slotMEM = s.slotMEM := rfl
@[simp] theorem flush_slotWB (s : State) : s.flush.slotWB = s.slotWB := rfl
@[simp] theorem flush_dataStall (s : State) : s.flush.dataStall = 0 := rfl
@[simp] theorem flush_mispStall (s : State) : s.flush.mispStall = s.mispStall := rfl
@[simp] theorem flush_bpCounter (s : State) : s.flush.bpCounter = s.bpCounter := rfl
@[simp] theorem flush_missCount (s : State) : s.flush.missCount = s.missCount := rfl
@[simp] theorem flush_cycle (s : State) : s.flush.cycle = s.cycle := rfl
@[simp] theorem flush_mode (s : State) : s.flush.mode = s.mode := rfl
@[simp] theorem redirect_params (s : State) (target : Word) : (redirect s target).params = s.params := rfl
@[simp] theorem redirect_cfg (s : State) (target : Word) : (redirect s target).cfg = s.cfg := rfl
@[simp] theorem redirect_prog (s : State) (target : Word) : (redirect s target).prog = s.prog := rfl
@[simp] theorem redirect_regs (s : State) (target : Word) : (redirect s target).regs = s.regs := rfl
@[simp] theorem redirect_mem (s : State) (target : Word) : (redirect s target).mem = s.mem := rfl
@[simp] theorem redirect_cursor (s : State) (target : Word) : (redirect s target).cursor = target := rfl
@[simp] theorem redirect_slotIF (s : State) (target : Word) : (redirect s target).slotIF = none := rfl
@[simp] theorem redirect_slotID (s : State) (target : Word) : (redirect s target).slotID = none := rfl
@[simp] theorem redirect_slotEX (s : State) (target : Word) : (redirect s target).slotEX = s.slotEX := rfl
@[simp] theorem redirect_slotMEM (s : State) (target : Word) : (redirect s target).slotMEM = s.slotMEM := rfl
@[simp] theorem redirect_slotWB (s : State) (target : Word) : (redirect s target).slotWB = s.slotWB := rfl
@[simp] theorem redirect_dataStall (s : State) (target : Word) : (redirect s target).dataStall = 0 := rfl
@[simp] theorem redirect_mispStall (s : State) (target : Word) : (redirect s target).mispStall = s.mispStall := rfl
@[simp] theorem redirect_bpCounter (s : State) (target : Word) : (redirect s target).bpCounter = s.bpCounter := rfl
@[simp] theorem redirect_missCount (s : State) (target : Word) : (redirect s target).missCount = s.missCount := rfl
@[simp] theorem redirect_cycle (s : State) (target : Word) : (redirect s target).cycle = s.cycle := rfl
@[simp] theorem redirect_mode (s : State) (target : Word) : (redirect s target).mode = s.mode := rfl
/-! ### `doWB` changes `x` and empties WB -/

@[simp] theorem doWB_params (s : State) : (doWB s).params = s.params := by
  unfold doWB; split <;> simp
@[simp] theorem doWB_cfg (s : State) : (doWB s).cfg = s.cfg := by
  unfold doWB; split <;> simp
@[simp] theorem doWB_prog (s : State) : (doWB s).prog = s.prog := by
  unfold doWB; split <;> simp
@[simp] theorem doWB_mem (s : State) : (doWB s).mem = s.mem := by
  unfold doWB; split <;> simp
@[simp] theorem doWB_cursor (s : State) : (doWB s).cursor = s.cursor := by
  unfold doWB; split <;> simp
@[simp] theorem doWB_slotIF (s : State) : (doWB s).slotIF = s.slotIF := by
  unfold doWB; split <;> simp
@[simp] theorem doWB_slotID (s : State) : (doWB s).slotID = s.slotID := by
  unfold doWB; split <;> simp
@[simp] theorem doWB_slotEX (s : State) : (doWB s).slotEX = s.slotEX := by
  unfold doWB; split <;> simp
@[simp] theorem doWB_slotMEM (s : State) : (doWB s).slotMEM = s.slotMEM := by
  unfold doWB; split <;> simp
@[simp] theorem doWB_dataStall (s : State) : (doWB s).dataStall = s.dataStall := by
  unfold doWB; split <;> simp
@[simp] theorem doWB_mispStall (s : State) : (doWB s).mispStall = s.mispStall := by
  unfold doWB; split <;> simp
@[simp] theorem doWB_bpCounter (s : State) : (doWB s).bpCounter = s.bpCounter := by
  unfold doWB; split <;> simp
@[simp] theorem doWB_missCount (s : State) : (doWB s).missCount = s.missCount := by
  unfold doWB; split <;> simp
@[simp] theorem doWB_cycle (s : State) : (doWB s).cycle = s.cycle := by
  unfold doWB; split <;> simp
@[simp] theorem doWB_mode (s : State) : (doWB s).mode = s.mode := by
  unfold doWB; split <;> simp
@[simp] theorem doWB_slotWB (s : State) : (doWB s).slotWB = none := by
  unfold doWB; split <;> simp_all
/-! ### `doMEM` changes the data memory and moves MEM to WB -/

@[simp] theorem doMEM_params (s : State) : (doMEM s).params = s.params := by
  unfold doMEM; split <;> simp
@[simp] theorem doMEM_cfg (s : State) : (doMEM s).cfg = s.cfg := by
  unfold doMEM; split <;> simp
@[simp] theorem doMEM_prog (s : State) : (doMEM s).prog = s.prog := by
  unfold doMEM; split <;> simp
@[simp] theorem doMEM_regs (s : State) : (doMEM s).regs = s.regs := by
  unfold doMEM; split <;> simp
@[simp] theorem doMEM_cursor (s : State) : (doMEM s).cursor = s.cursor := by
  unfold doMEM; split <;> simp
@[simp] theorem doMEM_slotIF (s : State) : (doMEM s).slotIF = s.slotIF := by
  unfold doMEM; split <;> simp
@[simp] theorem doMEM_slotID (s : State) : (doMEM s).slotID = s.slotID := by
  unfold doMEM; split <;> simp
@[simp] theorem doMEM_slotEX (s : State) : (doMEM s).slotEX = s.slotEX := by
  unfold doMEM; split <;> simp
@[simp] theorem doMEM_dataStall (s : State) : (doMEM s).dataStall = s.dataStall := by
  unfold doMEM; split <;> simp
@[simp] theorem doMEM_mispStall (s : State) : (doMEM s).mispStall = s.mispStall := by
  unfold doMEM; split <;> simp
@[simp] theorem doMEM_bpCounter (s : State) : (doMEM s).bpCounter = s.bpCounter := by
  unfold doMEM; split <;> simp
@[simp] theorem doMEM_missCount (s : State) : (doMEM s).missCount = s.missCount := by
  unfold doMEM; split <;> simp
@[simp] theorem doMEM_cycle (s : State) : (doMEM s).cycle = s.cycle := by
  unfold doMEM; split <;> simp
@[simp] theorem doMEM_mode (s : State) : (doMEM s).mode = s.mode := by
  unfold doMEM; split <;> simp
@[simp] theorem doMEM_slotMEM (s : State) : (doMEM s).slotMEM = none := by
  unfold doMEM; split <;> simp_all
/-! ### `resolve` and `steerEX` leave registers, memory and the older stages alone -/

@[simp] theorem resolve_params (s : State) (L : Latch) (taken : Bool) (target : Word) :
    (resolve s L taken target).1.params = s.params := by
  unfold resolve; simp only []; split <;> rfl
@[simp] theorem resolve_cfg (s : State) (L : Latch) (taken : Bool) (target : Word) :
    (resolve s L taken target).1.cfg = s.cfg := by
  unfold resolve; simp only []; split <;> rfl
@[simp] theorem resolve_prog (s : State) (L : Latch) (taken : Bool) (target : Word) :
    (resolve s L taken target).1.prog = s.prog := by
  unfold resolve; simp only []; split <;> rfl
@[simp] theorem resolve_regs (s : State) (L : Latch) (taken : Bool) (target : Word) :
    (resolve s L taken target).1.regs = s.regs := by
  unfold resolve; simp only []; split <;> rfl
@[simp] theorem resolve_mem (s : State) (L : Latch) (taken : Bool) (target : Word) :
    (resolve s L taken target).1.mem = s.mem := by
  unfold resolve; simp only []; split <;> rfl
@[simp] theorem resolve_slotEX (s : State) (L : Latch) (taken : Bool) (target : Word) :
    (resolve s L taken target).1.slotEX = s.slotEX := by
  unfold resolve; simp only []; split <;> rfl
@[simp] theorem resolve_slotMEM (s : State) (L : Latch) (taken : Bool) (target : Word) :
    (resolve s L taken target).1.slotMEM = s.slotMEM := by
  unfold resolve; simp only []; split <;> rfl
@[simp] theorem resolve_slotWB (s : State) (L : Latch) (taken : Bool) (target : Word) :
    (resolve s L taken target).1.slotWB = s.slotWB := by
  unfold resolve; simp only []; split <;> rfl
@[simp] theorem resolve_cycle (s : State) (L : Latch) (taken : Bool) (target : Word) :
    (resolve s L taken target).1.cycle = s.cycle := by
  unfold resolve; simp only []; split <;> rfl
@[simp] theorem resolve_mode (s : State) (L : Latch) (taken : Bool) (target : Word) :
    (resolve s L taken target).1.mode = s.mode := by
  unfold resolve; simp only []; split <;> rfl
@[simp] theorem steerEX_params (s : State) (L : Latch) (steer : Steer) : (steerEX s L steer).1.params = s.params := by
  cases steer <;> simp [steerEX]
@[simp] theorem steerEX_cfg (s : State) (L : Latch) (steer : Steer) : (steerEX s L steer).1.cfg = s.cfg := by
  cases steer <;> simp [steerEX]
@[simp] theorem steerEX_prog (s : State) (L : Latch) (steer : Steer) : (steerEX s L steer).1.prog = s.prog := by
  cases steer <;> simp [steerEX]
@[simp] theorem steerEX_regs (s : State) (L : Latch) (steer : Steer) : (steerEX s L steer).1.regs = s.regs := by
  cases steer <;> simp [steerEX]
@[simp] theorem steerEX_mem (s : State) (L : Latch) (steer : Steer) : (steerEX s L steer).1.mem = s.mem := by
  cases steer <;> simp [steerEX]
@[simp] theorem steerEX_slotEX (s : State) (L : Latch) (steer : Steer) : (steerEX s L steer).1.slotEX = s.slotEX := by
  cases steer <;> simp [steerEX]
@[simp] theorem steerEX_slotMEM (s : State) (L : Latch) (steer : Steer) : (steerEX s L steer).1.slotMEM = s.slotMEM := by
  cases steer <;> simp [steerEX]
@[simp] theorem steerEX_slotWB (s : State) (L : Latch) (steer : Steer) : (steerEX s L steer).1.slotWB = s.slotWB := by
  cases steer <;> simp [steerEX]
@[simp] theorem steerEX_cycle (s : State) (L : Latch) (steer : Steer) : (steerEX s L steer).1.cycle = s.cycle := by
  cases steer <;> simp [steerEX]
@[simp] theorem steerEX_mode (s : State) (L : Latch) (steer : Steer) : (steerEX s L steer).1.mode = s.mode := by
  cases steer <;> simp [steerEX]
/-! ### `doEX` leaves registers and memory alone and moves EX to MEM -/

@[simp] theorem doEX_params (P1 P2 : Option Latch) (s : State) : (doEX P1 P2 s).1.params = s.params := by
  unfold doEX; split <;> simp
@[simp] theorem doEX_cfg (P1 P2 : Option Latch) (s : State) : (doEX P1 P2 s).1.cfg = s.cfg := by
  unfold doEX; split <;> simp
@[simp] theorem doEX_prog (P1 P2 : Option Latch) (s : State) : (doEX P1 P2 s).1.prog = s.prog := by
  unfold doEX; split <;> simp
@[simp] theorem doEX_regs (P1 P2 : Option Latch) (s : State) : (doEX P1 P2 s).1.regs = s.regs := by
  unfold doEX; split <;> simp
@[simp] theorem doEX_mem (P1 P2 : Option Latch) (s : State) : (doEX P1 P2 s).1.mem = s.mem := by
  unfold doEX; split <;> simp
@[simp] theorem doEX_slotWB (P1 P2 : Option Latch) (s : State) : (doEX P1 P2 s).1.slotWB = s.slotWB := by
  unfold doEX; split <;> simp
@[simp] theorem doEX_cycle (P1 P2 : Option Latch) (s : State) : (doEX P1 P2 s).1.cycle = s.cycle := by
  unfold doEX; split <;> simp
@[simp] theorem doEX_mode (P1 P2 : Option Latch) (s : State) : (doEX P1 P2 s).1.mode = s.mode := by
  unfold doEX; split <;> simp
@[simp] theorem doEX_slotEX (P1 P2 : Option Latch) (s : State) : (doEX P1 P2 s).1.slotEX = none := by
  unfold doEX; split <;> simp_all
/-! ### `doID` moves ID to EX, and may redirect and empty IF -/

@[simp] theorem doID_params (w : State × Bool) : (doID w).1.params = w.1.params := by
  unfold doID; split
  · rfl
  · simp only []; split <;> rfl
@[simp] theorem doID_cfg (w : State × Bool) : (doID w).1.cfg = w.1.cfg := by
  unfold doID; split
  · rfl
  · simp only []; split <;> rfl
@[simp] theorem doID_prog (w : State × Bool) : (doID w).1.prog = w.1.prog := by
  unfold doID; split
  · rfl
  · simp only []; split <;> rfl
@[simp] theorem doID_regs (w : State × Bool) : (doID w).1.regs = w.1.regs := by
  unfold doID; split
  · rfl
  · simp only []; split <;> rfl
@[simp] theorem doID_mem (w : State × Bool) : (doID w).1.mem = w.1.mem := by
  unfold doID; split
  · rfl
  · simp only []; split <;> rfl
@[simp] theorem doID_slotMEM (w : State × Bool) : (doID w).1.slotMEM = w.1.slotMEM := by
  unfold doID; split
  · rfl
  · simp only []; split <;> rfl
@[simp] theorem doID_slotWB (w : State × Bool) : (doID w).1.slotWB = w.1.slotWB := by
  unfold doID; split
  · rfl
  · simp only []; split <;> rfl
@[simp] theorem doID_dataStall (w : State × Bool) : (doID w).1.dataStall = w.1.dataStall := by
  unfold doID; split
  · rfl
  · simp only []; split <;> rfl
@[simp] theorem doID_mispStall (w : State × Bool) : (doID w).1.mispStall = w.1.mispStall := by
  unfold doID; split
  · rfl
  · simp only []; split <;> rfl
@[simp] theorem doID_bpCounter (w : State × Bool) : (doID w).1.bpCounter = w.1.bpCounter := by
  unfold doID; split
  · rfl
  · simp only []; split <;> rfl
@[simp] theorem doID_missCount (w : State × Bool) : (doID w).1.missCount = w.1.missCount := by
  unfold doID; split
  · rfl
  · simp only []; split <;> rfl
@[simp] theorem doID_cycle (w : State × Bool) : (doID w).1.cycle = w.1.cycle := by
  unfold doID; split
  · rfl
  · simp only []; split <;> rfl
@[simp] theorem doID_mode (w : State × Bool) : (doID w).1.mode = w.1.mode := by
  unfold doID; split
  · rfl
  · simp only []; split <;> rfl
@[simp] theorem doID_slotID (w : State × Bool) : (doID w).1.slotID = none := by
  unfold doID; split
  · assumption
  · simp only []; split <;> rfl
/-! ### `enterID` moves IF to ID and may arm the data stall -/

@[simp] theorem enterID_params (s : State) : (enterID s).params = s.params := by
  unfold enterID; split <;> rfl
@[simp] theorem enterID_cfg (s : State) : (enterID s).cfg = s.cfg := by
  unfold enterID; split <;> rfl
@[simp] theorem enterID_prog (s : State) : (enterID s).prog = s.prog := by
  unfold enterID; split <;> rfl
@[simp] theorem enterID_regs (s : State) : (enterID s).regs = s.regs := by
  unfold enterID; split <;> rfl
@[simp] theorem enterID_mem (s : State) : (enterID s).mem = s.mem := by
  unfold enterID; split <;> rfl
@[simp] theorem enterID_cursor (s : State) : (enterID s).cursor = s.cursor := by
  unfold enterID; split <;> rfl
@[simp] theorem enterID_slotEX (s : State) : (enterID s).slotEX = s.slotEX := by
  unfold enterID; split <;> rfl
@[simp] theorem enterID_slotMEM (s : State) : (enterID s).slotMEM = s.slotMEM := by
  unfold enterID; split <;> rfl
@[simp] theorem enterID_slotWB (s : State) : (enterID s).slotWB = s.slotWB := by
  unfold enterID; split <;> rfl
@[simp] theorem enterID_mispStall (s : State) : (enterID s).mispStall = s.mispStall := by
  unfold enterID; split <;> rfl
@[simp] theorem enterID_bpCounter (s : State) : (enterID s).bpCounter = s.bpCounter := by
  unfold enterID; split <;> rfl
@[simp] theorem enterID_missCount (s : State) : (enterID s).missCount = s.missCount := by
  unfold enterID; split <;> rfl
@[simp] theorem enterID_cycle (s : State) : (enterID s).cycle = s.cycle := by
  unfold enterID; split <;> rfl
@[simp] theorem enterID_mode (s : State) : (enterID s).mode = s.mode := by
  unfold enterID; split <;> rfl
@[simp] theorem enterID_slotIF (s : State) : (enterID s).slotIF = none := by
  unfold enterID; split
  · assumption
  · rfl
/-! ### `fetch` fills IF and moves the cursor -/

@[simp] theorem fetch_params (s : State) : (fetch s).params = s.params := by
  unfold fetch; split
  · rfl
  · split
    · rfl
    · split <;> rfl
@[simp] theorem fetch_cfg (s : State) : (fetch s).cfg = s.cfg := by
  unfold fetch; split
  · rfl
  · split
    · rfl
    · split <;> rfl
@[simp] theorem fetch_prog (s : State) : (fetch s).prog = s.prog := by
  unfold fetch; split
  · rfl
  · split
    · rfl
    · split <;> rfl
@[simp] theorem fetch_regs (s : State) : (fetch s).regs = s.regs := by
  unfold fetch; split
  · rfl
  · split
    · rfl
    · split <;> rfl
@[simp] theorem fetch_mem (s : State) : (fetch s).mem = s.mem := by
  unfold fetch; split
  · rfl
  · split
    · rfl
    · split <;> rfl
@[simp] theorem fetch_slotID (s : State) : (fetch s).slotID = s.slotID := by
  unfold fetch; split
  · rfl
  · split
    · rfl
    · split <;> rfl
@[simp] theorem fetch_slotEX (s : State) : (fetch s).slotEX = s.slotEX := by
  unfold fetch; split
  · rfl
  · split
    · rfl
    · split <;> rfl
@[simp] theorem fetch_slotMEM (s : State) : (fetch s).slotMEM = s.slotMEM := by
  unfold fetch; split
  · rfl
  · split
    · rfl
    · split <;> rfl
@[simp] theorem fetch_slotWB (s : State) : (fetch s).slotWB = s.slotWB := by
  unfold fetch; split
  · rfl
  · split
    · rfl
    · split <;> rfl
@[simp] theorem fetch_dataStall (s : State) : (fetch s).dataStall = s.dataStall := by
  unfold fetch; split
  · rfl
  · split
    · rfl
    · split <;> rfl
@[simp] theorem fetch_mispStall (s : State) : (fetch s).mispStall = s.mispStall := by
  unfold fetch; split
  · rfl
  · split
    · rfl
    · split <;> rfl
@[simp] theorem fetch_bpCounter (s : State) : (fetch s).bpCounter = s.bpCounter := by
  unfold fetch; split
  · rfl
  · split
    · rfl
    · split <;> rfl
@[simp] theorem fetch_missCount (s : State) : (fetch s).missCount = s.missCount := by
  unfold fetch; split
  · rfl
  · split
    · rfl
    · split <;> rfl
@[simp] theorem fetch_cycle (s : State) : (fetch s).cycle = s.cycle := by
  unfold fetch; split
  · rfl
  · split
    · rfl
    · split <;> rfl
@[simp] theorem fetch_mode (s : State) : (fetch s).mode = s.mode := by
  unfold fetch; split
  · rfl
  · split
    · rfl
    · split <;> rfl
/-! ### `doIF` -/

@[simp] theorem doIF_params (w : State × Bool) : (doIF w).params = w.1.params := by
  unfold doIF; split <;> simp
@[simp] theorem doIF_cfg (w : State × Bool) : (doIF w).cfg = w.1.cfg := by
  unfold doIF; split <;> simp
@[simp] theorem doIF_prog (w : State × Bool) : (doIF w).prog = w.1.prog := by
  unfold doIF; split <;> simp
@[simp] theorem doIF_regs (w : State × Bool) : (doIF w).regs = w.1.regs := by
  unfold doIF; split <;> simp
@[simp] theorem doIF_mem (w : State × Bool) : (doIF w).mem = w.1.mem := by
  unfold doIF; split <;> simp
@[simp] theorem doIF_slotEX (w : State × Bool) : (doIF w).slotEX = w.1.slotEX := by
  unfold doIF; split <;> simp
@[simp] theorem doIF_slotMEM (w : State × Bool) : (doIF w).slotMEM = w.1.slotMEM := by
  unfold doIF; split <;> simp
@[simp] theorem doIF_slotWB (w : State × Bool) : (doIF w).slotWB = w.1.slotWB := by
  unfold doIF; split <;> simp
@[simp] theorem doIF_mispStall (w : State × Bool) : (doIF w).mispStall = w.1.mispStall := by
  unfold doIF; split <;> simp
@[simp] theorem doIF_bpCounter (w : State × Bool) : (doIF w).bpCounter = w.1.bpCounter := by
  unfold doIF; split <;> simp
@[simp] theorem doIF_missCount (w : State × Bool) : (doIF w).missCount = w.1.missCount := by
  unfold doIF; split <;> simp
@[simp] theorem doIF_cycle (w : State × Bool) : (doIF w).cycle = w.1.cycle := by
  unfold doIF; split <;> simp
@[simp] theorem doIF_mode (w : State × Bool) : (doIF w).mode = w.1.mode := by
  unfold doIF; split <;> simp
/-! ### `conclude` decides mode and cycle only -/

@[simp] theorem conclude_params (s : State) : (conclude s).params = s.params := by
  unfold conclude; split <;> rfl
@[simp] theorem conclude_cfg (s : State) : (conclude s).cfg = s.cfg := by
  unfold conclude; split <;> rfl
@[simp] theorem conclude_prog (s : State) : (conclude s).prog = s.prog := by
  unfold conclude; split <;> rfl
@[simp] theorem conclude_regs (s : State) : (conclude s).regs = s.regs := by
  unfold conclude; split <;> rfl
@[simp] theorem conclude_mem (s : State) : (conclude s).mem = s.mem := by
  unfold conclude; split <;> rfl
@[simp] theorem conclude_cursor (s : State) : (conclude s).cursor = s.cursor := by
  unfold conclude; split <;> rfl
@[simp] theorem conclude_slotIF (s : State) : (conclude s).slotIF = s.slotIF := by
  unfold conclude; split <;> rfl
@[simp] theorem conclude_slotID (s : State) : (conclude s).slotID = s.slotID := by
  unfold conclude; split <;> rfl
@[simp] theorem conclude_slotEX (s : State) : (conclude s).slotEX = s.slotEX := by
  unfold conclude; split <;> rfl
@[simp] theorem conclude_slotMEM (s : State) : (conclude s).slotMEM = s.slotMEM := by
  unfold conclude; split <;> rfl
@[simp] theorem conclude_slotWB (s : State) : (conclude s).slotWB = s.slotWB := by
  unfold conclude; split <;> rfl
@[simp] theorem conclude_dataStall (s : State) : (conclude s).dataStall = s.dataStall := by
  unfold conclude; split <;> rfl
@[simp] theorem conclude_mispStall (s : State) : (conclude s).mispStall = s.mispStall := by
  unfold conclude; split <;> rfl
@[simp] theorem conclude_bpCounter (s : State) : (conclude s).bpCounter = s.bpCounter := by
  unfold conclude; split <;> rfl
@[simp] theorem conclude_missCount (s : State) : (conclude s).missCount = s.missCount := by
  unfold conclude; split <;> rfl

end Sys2Proof.Machine
end

