-- ==== Sys2Proof/Laws/Memory.lean ====
section
/-! SUPPORT. The data memory (spec rules R41, R62 to R67): what one byte reads after a write, that every
write keeps the canonical form and the bounds, and what an access reads and stores byte by byte. -/

namespace Sys2Proof.Machine

/-! ### One byte -/

@[simp] theorem readByte_nil (a : Nat) : Memory.readByte [] a = 0#8 := rfl

/-- A write leaves every other byte alone. -/
theorem readByte_writeByte_of_ne (m : Memory) {a c : Nat} (h : c ≠ a) (b : Byte) :
    (m.writeByte a b).readByte c = m.readByte c := by
  induction m with
  | nil => simp only [Memory.writeByte]; split <;> simp [Memory.readByte, h]
  | cons p t ih =>
    obtain ⟨k, v⟩ := p
    simp only [Memory.writeByte]
    split
    · split <;> simp [Memory.readByte, h]
    · split
      · split <;> simp_all [Memory.readByte]
      · simp only [Memory.readByte, ih]

/-- A byte below every listed address is not listed. -/
theorem readByte_of_lt (m : Memory) (a : Nat) (h : ∀ c ∈ m, a < c.1) : m.readByte a = 0#8 := by
  induction m with
  | nil => rfl
  | cons p t ih =>
    obtain ⟨k, v⟩ := p
    have hk : a < k := h (k, v) (by simp)
    simp only [Memory.readByte, show a ≠ k by omega, if_false]
    exact ih fun c hc => h c (by simp [hc])

/-- A byte written to a canonical memory is read back. -/
theorem readByte_writeByte_self (m : Memory) (h : m.wf) (a : Nat) (b : Byte) :
    (m.writeByte a b).readByte a = b := by
  induction m with
  | nil => simp only [Memory.writeByte]; split <;> simp_all [Memory.readByte]
  | cons p t ih =>
    obtain ⟨k, v⟩ := p
    obtain ⟨hp, hz⟩ := h
    rw [List.pairwise_cons] at hp
    simp only [Memory.writeByte]
    split
    · split
      · subst_vars
        apply readByte_of_lt
        intro c hc
        rcases List.mem_cons.1 hc with rfl | hc
        · assumption
        · have := hp.1 c hc; simp only at this; omega
      · simp [Memory.readByte]
    · split
      · split
        · subst_vars
          exact readByte_of_lt _ _ hp.1
        · simp [Memory.readByte]
      · simp only [Memory.readByte]
        rw [if_neg (by assumption)]
        exact ih ⟨hp.2, fun c hc => hz c (by simp [hc])⟩

/-- Every listed byte after a write is the written one or was listed before. -/
theorem mem_writeByte {m : Memory} {a : Nat} {b : Byte} {c : Host.Cell} (h : c ∈ m.writeByte a b) :
    c = (a, b) ∧ b ≠ 0#8 ∨ c ∈ m := by
  induction m with
  | nil =>
    simp only [Memory.writeByte] at h
    split at h <;> simp_all
  | cons p t ih =>
    obtain ⟨k, v⟩ := p
    simp only [Memory.writeByte] at h
    split at h
    · split at h <;> simp_all
    · split at h
      · split at h
        · exact .inr (List.mem_cons_of_mem _ h)
        · rcases List.mem_cons.1 h with h | h
          · exact .inl ⟨h, by assumption⟩
          · exact .inr (List.mem_cons_of_mem _ h)
      · rcases List.mem_cons.1 h with h | h
        · simp [h]
        · rcases ih h with h | h
          · exact .inl h
          · simp [h]

/-- A write keeps the canonical form. -/
theorem writeByte_wf (m : Memory) (h : m.wf) (a : Nat) (b : Byte) : (m.writeByte a b).wf := by
  refine ⟨?_, fun c hc => ?_⟩
  · induction m with
    | nil => simp only [Memory.writeByte]; split <;> simp
    | cons p t ih =>
      obtain ⟨k, v⟩ := p
      obtain ⟨hp, hz⟩ := h
      have hp' := List.pairwise_cons.1 hp
      simp only [Memory.writeByte]
      split
      · split
        · exact hp
        · refine List.pairwise_cons.2 ⟨fun c hc => ?_, hp⟩
          rcases List.mem_cons.1 hc with rfl | hc
          · assumption
          · have := hp'.1 c hc; simp only at this ⊢; omega
      · split
        · split
          · exact hp'.2
          · subst_vars
            exact List.pairwise_cons.2 ⟨hp'.1, hp'.2⟩
        · refine List.pairwise_cons.2 ⟨fun c hc => ?_, ih ⟨hp'.2, fun c hc => hz c (by simp [hc])⟩⟩
          rcases mem_writeByte hc with ⟨rfl, -⟩ | hc
          · simp only; omega
          · exact hp'.1 c hc
  · rcases mem_writeByte hc with ⟨rfl, hb⟩ | hc
    · exact hb
    · exact h.2 c hc

/-- The byte read after a write to a canonical memory. -/
theorem readByte_writeByte (m : Memory) (h : m.wf) (a : Nat) (b : Byte) (c : Nat) :
    (m.writeByte a b).readByte c = if c = a then b else m.readByte c := by
  split
  · subst_vars; exact readByte_writeByte_self m h _ b
  · exact readByte_writeByte_of_ne m (by assumption) b

/-- The reset memory is canonical (R41, R49). -/
theorem reset_mem_wf (p : Params) (cfg : Configuration) (prog : List Word) (mode : Mode) :
    (State.initial p cfg prog mode).mem.wf := by
  simp [State.initial, Memory.wf]

/-! ### One value -/

theorem putLane_wf (m : Memory) (h : m.wf) (order : ByteOrder) (n a j : Nat) (v : Word) :
    (m.putLane order n a j v).wf :=
  writeByte_wf m h _ _

theorem writeValue_wf (m : Memory) (h : m.wf) (order : ByteOrder) (w : Width) (a : Nat) (v : Word) :
    (m.writeValue order w a v).wf := by
  cases w
  · exact putLane_wf _ h ..
  · exact putLane_wf _ (putLane_wf _ h ..) ..
  · exact putLane_wf _ (putLane_wf _ (putLane_wf _ (putLane_wf _ h ..) ..) ..) ..

theorem laneOffset_lt (order : ByteOrder) {n j : Nat} (h : j < n) : laneOffset order n j < n := by
  cases order <;> simp only [laneOffset] <;> omega

theorem readByte_putLane_of_ne (m : Memory) (order : ByteOrder) {n a j c : Nat} (v : Word)
    (h : c ≠ a + laneOffset order n j) : (m.putLane order n a j v).readByte c = m.readByte c :=
  readByte_writeByte_of_ne m h _

/-- A store of a value leaves every byte outside it alone. -/
theorem readByte_writeValue_of_outside (m : Memory) (order : ByteOrder) (w : Width) (a : Nat) (v : Word)
    (c : Nat) (h : c < a ∨ a + w.bytes ≤ c) : (m.writeValue order w a v).readByte c = m.readByte c := by
  have lane : ∀ j, j < w.bytes → c ≠ a + laneOffset order w.bytes j := fun j hj => by
    have := laneOffset_lt order hj; omega
  cases w <;> simp only [Width.bytes] at lane
  · exact readByte_putLane_of_ne _ _ _ (lane 0 (by decide))
  · rw [Memory.writeValue, readByte_putLane_of_ne _ _ _ (lane 1 (by decide)),
      readByte_putLane_of_ne _ _ _ (lane 0 (by decide))]
  · rw [Memory.writeValue, readByte_putLane_of_ne _ _ _ (lane 3 (by decide)),
      readByte_putLane_of_ne _ _ _ (lane 2 (by decide)),
      readByte_putLane_of_ne _ _ _ (lane 1 (by decide)),
      readByte_putLane_of_ne _ _ _ (lane 0 (by decide))]

/-- Each byte of a stored value, in the byte order of the memory (R62, R67). -/
theorem readByte_writeValue (m : Memory) (h : m.wf) (order : ByteOrder) (w : Width) (a : Nat) (v : Word)
    (j : Nat) (hj : j < w.bytes) :
    (m.writeValue order w a v).readByte (a + laneOffset order w.bytes j) = v.extractLsb' (8 * j) 8 := by
  have ne : ∀ i, i < w.bytes → i ≠ j →
      a + laneOffset order w.bytes j ≠ a + laneOffset order w.bytes i := fun i hi hij => by
    cases order <;> simp only [laneOffset] <;> omega
  have self : ∀ m : Memory, m.wf → (m.putLane order w.bytes a j v).readByte
      (a + laneOffset order w.bytes j) = v.extractLsb' (8 * j) 8 := fun m h =>
    readByte_writeByte_self m h _ _
  have skip : ∀ (m : Memory) (i : Nat), i < w.bytes → i ≠ j → (m.putLane order w.bytes a i v).readByte
      (a + laneOffset order w.bytes j) = m.readByte (a + laneOffset order w.bytes j) :=
    fun m i hi hij => readByte_putLane_of_ne m order v (ne i hi hij)
  cases w <;> simp only [Width.bytes] at * <;> simp only [Memory.writeValue]
  · obtain rfl : j = 0 := by omega
    exact self _ h
  · obtain rfl | rfl : j = 0 ∨ j = 1 := by omega
    · rw [skip _ _ (by decide) (by decide)]; exact self _ h
    · exact self _ (putLane_wf _ h ..)
  · obtain rfl | rfl | rfl | rfl : j = 0 ∨ j = 1 ∨ j = 2 ∨ j = 3 := by omega
    · rw [skip _ 3 (by decide) (by decide), skip _ 2 (by decide) (by decide),
        skip _ 1 (by decide) (by decide)]
      exact self _ h
    · rw [skip _ 3 (by decide) (by decide), skip _ 2 (by decide) (by decide)]
      exact self _ (putLane_wf _ h ..)
    · rw [skip _ 3 (by decide) (by decide)]
      exact self _ (putLane_wf _ (putLane_wf _ h ..) ..)
    · exact self _ (putLane_wf _ (putLane_wf _ (putLane_wf _ h ..) ..) ..)

/-- The bits of a value read, byte by byte (R62, R66). -/
theorem getLsbD_readValue (m : Memory) (order : ByteOrder) (w : Width) (a j b : Nat) (hj : j < w.bytes)
    (hb : b < 8) : (m.readValue order w a).getLsbD (8 * j + b) =
      (m.readByte (a + laneOffset order w.bytes j)).getLsbD b := by
  cases w <;> simp only [Width.bytes] at * <;>
    simp only [Memory.readValue, Memory.lane, BitVec.getLsbD_setWidth, BitVec.getLsbD_append]
  · obtain rfl : j = 0 := by omega
    simp; omega
  · obtain rfl | rfl : j = 0 ∨ j = 1 := by omega
    · simp [hb]; omega
    · simp; omega
  · obtain rfl | rfl | rfl | rfl : j = 0 ∨ j = 1 ∨ j = 2 ∨ j = 3 := by omega
    · simp [hb]
    · simp [show ¬ 8 + b < 8 by omega, hb]
    · simp [show ¬ 16 + b < 8 by omega, show 16 + b - 8 = 8 + b by omega, hb]
    · simp [show ¬ 24 + b < 8 by omega, show 24 + b - 8 = 16 + b by omega,
        show ¬ 16 + b < 8 by omega, show 16 + b - 8 = 8 + b by omega]

/-- A value read as a number: its bytes by weight (R62, R66). -/
theorem toNat_readValue (m : Memory) (order : ByteOrder) (w : Width) (a : Nat) :
    (m.readValue order w a).toNat =
      match w with
      | .byte => (m.lane order 1 a 0).toNat
      | .half => (m.lane order 2 a 1).toNat * 2 ^ 8 + (m.lane order 2 a 0).toNat
      | .word => (m.lane order 4 a 3).toNat * 2 ^ 24 + (m.lane order 4 a 2).toNat * 2 ^ 16 +
          (m.lane order 4 a 1).toNat * 2 ^ 8 + (m.lane order 4 a 0).toNat := by
  have app : ∀ {k : Nat} (x : BitVec k) (y : Byte), (x ++ y).toNat = x.toNat * 2 ^ 8 + y.toNat := by
    intro k x y
    rw [BitVec.toNat_append, Nat.shiftLeft_eq, Nat.mul_comm, ← Nat.two_pow_add_eq_or_of_lt y.isLt]
  cases w
  · simp [Memory.readValue]; omega
  · simp only [Memory.readValue, BitVec.toNat_setWidth, app]; omega
  · simp only [Memory.readValue, app]; omega

/-- A value inside a word is a bit field of the word, where its byte order puts it (R62, R66). -/
theorem toNat_readValue_field (m : Memory) (order : ByteOrder) (w : Width) (k o : Nat) (ho : o < 4)
    (hn : o % w.bytes = 0) :
    (m.readValue order w (4 * k + o)).toNat =
      (m.readValue order .word (4 * k)).toNat /
        2 ^ (if order = .little then 8 * o else 8 * (4 - w.bytes - o)) % 2 ^ (8 * w.bytes) := by
  simp only [toNat_readValue]
  have h0 := (m.readByte (4 * k)).isLt
  have h1 := (m.readByte (4 * k + 1)).isLt
  have h2 := (m.readByte (4 * k + 2)).isLt
  have h3 := (m.readByte (4 * k + 3)).isLt
  cases w <;> cases order <;> simp only [Width.bytes] at hn ⊢ <;>
    simp only [Memory.lane, laneOffset]
  · obtain rfl | rfl | rfl | rfl : o = 0 ∨ o = 1 ∨ o = 2 ∨ o = 3 := by omega
    all_goals simp at *; omega
  · obtain rfl | rfl | rfl | rfl : o = 0 ∨ o = 1 ∨ o = 2 ∨ o = 3 := by omega
    all_goals simp at *; omega
  · obtain rfl | rfl : o = 0 ∨ o = 2 := by omega
    all_goals simp [Nat.add_assoc] at *; omega
  · obtain rfl | rfl : o = 0 ∨ o = 2 := by omega
    all_goals simp [Nat.add_assoc] at *; omega
  · obtain rfl : o = 0 := by omega
    simp at *; omega
  · obtain rfl : o = 0 := by omega
    simp at *; omega

/-! ### Alignment, bounds and the accesses -/

theorem and_half_eq (x : Word) : x &&& 0xFFFFFFFE#32 = (x >>> 1) <<< 1 := by
  apply BitVec.eq_of_getLsbD_eq
  intro i hi
  have mask : (0xFFFFFFFE#32).getLsbD i = decide (1 ≤ i) := by revert hi; revert i; decide
  simp only [BitVec.getLsbD_and, BitVec.getLsbD_shiftLeft, BitVec.getLsbD_ushiftRight, mask]
  by_cases h : 1 ≤ i
  · simp [h, hi, show ¬ i < 1 by omega, show 1 + (i - 1) = i by omega]
  · simp [show i < 1 by omega]

theorem and_word_eq (x : Word) : x &&& 0xFFFFFFFC#32 = (x >>> 2) <<< 2 := by
  apply BitVec.eq_of_getLsbD_eq
  intro i hi
  have mask : (0xFFFFFFFC#32).getLsbD i = decide (2 ≤ i) := by revert hi; revert i; decide
  simp only [BitVec.getLsbD_and, BitVec.getLsbD_shiftLeft, BitVec.getLsbD_ushiftRight, mask]
  by_cases h : 2 ≤ i
  · simp [h, hi, show ¬ i < 2 by omega, show 2 + (i - 2) = i by omega]
  · simp [show i < 2 by omega]

/-- Alignment is rounding down to a multiple of the access size (R64). -/
theorem toNat_alignedAddr (w : Width) (addr : Word) :
    (alignedAddr w addr).toNat = addr.toNat - addr.toNat % w.bytes := by
  have hi : addr.toNat < 2 ^ 32 := addr.isLt
  cases w <;> simp only [alignedAddr, Width.bytes]
  · omega
  · rw [and_half_eq]
    simp only [BitVec.toNat_shiftLeft, BitVec.toNat_ushiftRight, Nat.shiftLeft_eq,
      Nat.shiftRight_eq_div_pow]
    omega
  · rw [and_word_eq]
    simp only [BitVec.toNat_shiftLeft, BitVec.toNat_ushiftRight, Nat.shiftLeft_eq,
      Nat.shiftRight_eq_div_pow]
    omega

theorem inBounds_iff (n : Nat) (w : Width) (addr : Word) :
    inBounds n w addr = true ↔ (alignedAddr w addr).toNat / 4 < n := by
  simp [inBounds]

end Sys2Proof.Machine
end

