-- ==== Sys2Proof/Laws/Registers.lean ====
section
/-! SUPPORT. The register file (spec rules R11, R20, R21). -/

namespace Sys2Proof.Machine

@[simp] theorem readReg_zero (s : State) : s.readReg 0#5 = 0#32 := by simp [State.readReg]

@[simp] theorem writeReg_zero (s : State) (v : Word) : s.writeReg 0#5 v = s := by
  simp [State.writeReg]

theorem readReg_writeReg_self (s : State) {r : Reg} (h : r ≠ 0#5) (v : Word) :
    (s.writeReg r v).readReg r = v := by
  simp [State.readReg, State.writeReg, h]

theorem readReg_writeReg_of_ne (s : State) {r q : Reg} (h : q ≠ r) (v : Word) :
    (s.writeReg r v).readReg q = s.readReg q := by
  simp only [State.readReg, State.writeReg]
  split
  · rfl
  · split
    · rfl
    · rw [Vector.getElem_set_ne]
      exact fun e => h (BitVec.eq_of_toNat_eq e.symm)

/-- Reading depends on the register file only. -/
theorem readReg_congr {s t : State} (h : t.regs = s.regs) (r : Reg) : t.readReg r = s.readReg r := by
  simp only [State.readReg, h]

/-- A write depends on the register file only. -/
theorem writeReg_regs_congr {s t : State} (h : t.regs = s.regs) (r : Reg) (v : Word) :
    (t.writeReg r v).regs = (s.writeReg r v).regs := by
  unfold State.writeReg; split <;> simp [h]

theorem writeDest_regs_congr {s t : State} (h : t.regs = s.regs) (d : Option Reg) (v : Word) :
    (t.writeDest d v).regs = (s.writeDest d v).regs := by
  cases d
  · exact h
  · exact writeReg_regs_congr h _ _

@[simp] theorem writeDest_none (s : State) (v : Word) : s.writeDest none v = s := rfl

@[simp] theorem writeDest_some (s : State) (r : Reg) (v : Word) :
    s.writeDest (some r) v = s.writeReg r v := rfl

/-- A destination field of 0 writes nothing, as a write to register 0 does. -/
@[simp] theorem writeDest_destField (s : State) (r : Reg) (v : Word) :
    s.writeDest (destField r) v = s.writeReg r v := by
  unfold destField
  split
  · simp_all
  · rfl

/-- Everything a write to a destination does to what is read. -/
theorem readReg_writeDest (s : State) (d : Option Reg) (hd : d ≠ some 0#5) (v : Word) (r : Reg) :
    (s.writeDest d v).readReg r = if d = some r then v else s.readReg r := by
  cases d with
  | none => simp
  | some q =>
    by_cases h : q = r
    · subst h
      have : q ≠ 0#5 := fun e => hd (by rw [e])
      simp [readReg_writeReg_self s this]
    · simp [readReg_writeReg_of_ne s (Ne.symm h), h]

end Sys2Proof.Machine
end

