-- ==== Sys2Proof/Laws/Values.lean ====
section
/-! SUPPORT. The operand forms and comparisons on integers, and the read set as a set: what later proofs
cite instead of unfolding Operands.lean and Flags.lean. -/

namespace Sys2Proof.Machine

/-! ### Comparisons (R149, R150, R202) -/

theorem truthWord_lessSigned (a b : Word) :
    truthWord (lessSigned a b) = if a.toInt < b.toInt then 1#32 else 0#32 := by
  simp [truthWord, lessSigned]

theorem truthWord_lessUnsigned (a b : Word) :
    truthWord (lessUnsigned a b) = if a.toNat < b.toNat then 1#32 else 0#32 := by
  simp [truthWord, lessUnsigned]

theorem sameWord_iff (a b : Word) : sameWord a b = true ↔ a = b := by simp [sameWord]

/-! ### Immediates and targets (R96, R128) -/

/-- Sign extension keeps the signed value. -/
theorem signImm_toInt (imm : Imm16) : (signImm imm).toInt = imm.toInt :=
  BitVec.toInt_signExtend_of_le (by decide)

/-- Zero extension keeps the unsigned value. -/
theorem zeroImm_eq (imm : Imm16) : zeroImm imm = BitVec.ofNat 32 imm.toNat := by
  apply BitVec.eq_of_toNat_eq
  simp [zeroImm]

/-- The immediate in the upper half is the immediate times `2^16`. -/
theorem upperImm_eq (imm : Imm16) : upperImm imm = BitVec.ofNat 32 (imm.toNat * 65536) := by
  apply BitVec.eq_of_toNat_eq
  rw [upperImm, BitVec.toNat_append]
  simp [Nat.shiftLeft_eq]
  omega

/-- The low 26 bits of a word. -/
theorem getLsbD_mask26 (j : Nat) : (0x03FFFFFF#32).getLsbD j = decide (j < 26) := by
  by_cases h : j < 32
  · revert h; revert j; decide
  · rw [BitVec.getLsbD_of_ge _ _ (by omega)]
    exact (decide_eq_false (by omega)).symm

/-- A jump target by shifts and masks. -/
theorem jumpTarget_eq (pc w : Word) :
    jumpTarget pc (index26Field w) =
      (((pc + 4#32) >>> 28) <<< 28) ||| ((w &&& 0x03FFFFFF#32) <<< 2) := by
  apply BitVec.eq_of_getLsbD_eq
  intro i hi
  simp only [jumpTarget, nextAddress, index26Field, BitVec.getLsbD_append, BitVec.getLsbD_or,
    BitVec.getLsbD_shiftLeft, BitVec.getLsbD_and, getLsbD_mask26, BitVec.getLsbD_extractLsb',
    BitVec.getLsbD_ushiftRight]
  by_cases h1 : i < 2
  · simp [h1]; omega
  · by_cases h2 : i < 28
    · have : i - 2 < 26 := by omega
      simp [h1, h2, this, hi]
    · simp [h1, h2, hi, show ¬ (i - 2 < 26) by omega, show i - 28 < 4 by omega,
        show i - 2 - 26 = i - 28 by omega]

/-! ### Register sets (R126, R127) -/

theorem mem_readSet (l : List Reg) (r : Reg) : r ∈ readSet l ↔ r ≠ 0#5 ∧ r ∈ l := by
  induction l with
  | nil => simp [readSet]
  | cons a l ih =>
    have : readSet (a :: l) = if a = 0#5 ∨ a ∈ readSet l then readSet l else a :: readSet l := rfl
    rw [this]; split <;> grind

theorem nodup_readSet (l : List Reg) : (readSet l).Nodup := by
  induction l with
  | nil => simp [readSet]
  | cons a l ih =>
    have : readSet (a :: l) = if a = 0#5 ∨ a ∈ readSet l then readSet l else a :: readSet l := rfl
    rw [this]; split <;> grind

theorem destField_eq_some (r q : Reg) : destField r = some q ↔ r = q ∧ q ≠ 0#5 := by
  unfold destField
  split <;> grind

/-- No instruction has register 0 as its destination. -/
theorem destination_ne_zero (i : Instr) : destination i ≠ some 0#5 := by
  cases i <;> simp [destination, destField_eq_some]

end Sys2Proof.Machine
end

