-- ==== Sys2Proof/Laws/Meaning.lean ====
section
/-! SUPPORT. What the templates do when an instruction runs at once, and that the sequential meaning and
the pipeline's rule of an instruction are one (spec rules R12, R140, R160, R181, R187, R372). -/

namespace Sys2Proof.Machine

/-! ### Templates -/

/-- The ALU template: the function's value in the destination, the cursor on by 4. -/
theorem runSequential_aluRule (dest rs rt : Reg) (f : Word → Word → Word) (s : State) {v : Word}
    (h : f (s.readReg rs) (s.readReg rt) = v) :
    runSequential rs rt (aluRule dest f) s =
      .next { s.writeReg dest v with cursor := s.cursor + 4#32 } := by
  subst h
  simp [runSequential, runRule, aluRule, State.memAccess, State.memValue, Steer.next, nextAddress]

/-- The load template: the extended value in the destination, the cursor on by 4. -/
theorem runSequential_loadRule (rt rs q : Reg) (imm : Imm16) (w : Width) (signed : Bool) (s : State)
    {v : Word} (h : extendLoaded w signed (s.memRead w (s.readReg rs + signImm imm)) = v) :
    runSequential rs q (loadRule rt imm w signed) s =
      .next { s.writeReg rt v with cursor := s.cursor + 4#32 } := by
  subst h
  simp [runSequential, runRule, loadRule, State.memAccess, State.memValue, Steer.next, nextAddress,
    effectiveAddress]

/-- The store template: the access, the cursor on by 4. -/
theorem runSequential_storeRule (rs rt : Reg) (imm : Imm16) (w : Width) (s : State) :
    runSequential rs rt (storeRule imm w) s =
      .next { s.memWrite w (s.readReg rs + signImm imm) (s.readReg rt)
        with cursor := s.cursor + 4#32 } := by
  simp [runSequential, runRule, storeRule, State.memAccess, State.memValue, Steer.next, nextAddress,
    effectiveAddress]

/-- The branch template: the cursor alone changes. -/
theorem runSequential_branchRule (rs rt : Reg) (imm : Imm16) (cond : Word → Word → Bool) (s : State) :
    runSequential rs rt (branchRule imm cond) s =
      .next { s with cursor :=
        (if cond (s.readReg rs) (s.readReg rt) then s.cursor + 4#32 + (signImm imm <<< 2)
         else s.cursor + 4#32) } := by
  simp [runSequential, runRule, branchRule, State.memAccess, State.memValue, Steer.next, branchTarget,
    nextAddress]

/-- Zero-extended loads need no second extension. -/
theorem extendLoaded_unsigned (s : State) (w : Width) (addr : Word) :
    extendLoaded w false (s.memRead w addr) = s.memRead w addr := by
  cases w <;> simp only [extendLoaded] <;> unfold State.memRead <;> split <;>
    simp [Memory.readValue]

/-! ### One rule, two uses -/

/-- The sequential meaning of the instruction of a word is the pipeline's rule of it, run at once on the
register values of the fields it uses; a field it does not use may deliver anything. -/
theorem exec_decodeWord (w : Word) (s : State) (a b : Word)
    (ha : rsField w ∈ sourceFields (decodeWord w) → a = s.readReg (rsField w))
    (hb : rtField w ∈ sourceFields (decodeWord w) → b = s.readReg (rtField w)) :
    exec (decodeWord w) s = .next (runRule (ruleOf (decodeWord w)) a b s) := by
  have step : ∀ i, decodeWord w = i →
      (rsField w ∈ sourceFields i → a = s.readReg (rsField w)) →
      (rtField w ∈ sourceFields i → b = s.readReg (rtField w)) →
      exec i s = .next (runRule (ruleOf i) a b s) := by
    intro i hi
    unfold decodeWord at hi
    split at hi
    · unfold decodeRType at hi
      split at hi <;> subst hi <;> intro ha hb <;>
        first
        | rfl
        | (have ha := ha (.head _); have hb := hb (.tail _ (.head _))
           subst ha hb; rfl)
        | (have ha := ha (.head _); subst ha; rfl)
        | (have hb := hb (.head _); subst hb; rfl)
    all_goals
      subst hi; intro ha hb
      first
      | rfl
      | (have ha := ha (.head _); have hb := hb (.tail _ (.head _)); subst ha hb; rfl)
      | (have ha := ha (.head _); subst ha; rfl)
  exact step _ rfl ha hb

/-- The register a rule writes is the one the descriptor names (R127). -/
theorem ruleOf_dest (i : Instr) : (ruleOf i).dest = destination i := by cases i <;> rfl

/-- The loads are five opcodes (R97, R122). -/
theorem kindOf_decodeWord_eq_load (w : Word) :
    kindOf (decodeWord w) = .load ↔ opField w ∈ [0x20#6, 0x21#6, 0x23#6, 0x24#6, 0x25#6] := by
  unfold decodeWord
  split <;> rename_i e <;> (try (rw [field6_eq e]; simp [kindOf]; done))
  · rw [field6_eq e]
    unfold decodeRType
    split <;> simp [kindOf]
  · simp only [kindOf, reduceCtorEq, false_iff, List.mem_cons, List.not_mem_nil, or_false]
    rintro (h | h | h | h | h) <;> simp_all

/-- The stores are three opcodes (R97, R122). -/
theorem kindOf_decodeWord_eq_store (w : Word) :
    kindOf (decodeWord w) = .store ↔ opField w ∈ [0x28#6, 0x29#6, 0x2B#6] := by
  unfold decodeWord
  split <;> rename_i e <;> (try (rw [field6_eq e]; simp [kindOf]; done))
  · rw [field6_eq e]
    unfold decodeRType
    split <;> simp [kindOf]
  · simp only [kindOf, reduceCtorEq, false_iff, List.mem_cons, List.not_mem_nil, or_false]
    rintro (h | h | h) <;> simp_all

/-- The rule of an instruction accesses memory as its kind says (R288). -/
theorem ruleOf_mem_pass (i : Instr) (hl : kindOf i ≠ .load) (hs : kindOf i ≠ .store) :
    (ruleOf i).mem = .pass := by
  cases i <;> first | rfl | exact absurd rfl hl | exact absurd rfl hs

theorem ruleOf_mem_load (i : Instr) : kindOf i = .load ↔ ∃ w signed, (ruleOf i).mem = .load w signed := by
  cases i <;> constructor <;> intro h <;>
    first
    | rfl
    | exact ⟨_, _, rfl⟩
    | exact absurd h (by decide)
    | (obtain ⟨w, g, ⟨⟩⟩ := h)

theorem ruleOf_mem_store (i : Instr) : kindOf i = .store ↔ ∃ w, (ruleOf i).mem = .store w := by
  cases i <;> constructor <;> intro h <;>
    first
    | rfl
    | exact ⟨_, rfl⟩
    | exact absurd h (by decide)
    | (obtain ⟨w, ⟨⟩⟩ := h)

/-- How the rule of an instruction steers, by kind (R289). -/
theorem ruleOf_steer_fallThrough (i : Instr) (hc : (kindOf i).isControl = false) (pc a b : Word) :
    ((ruleOf i).ex pc a b).steer = .fallThrough := by
  cases i <;> first | rfl | simp [kindOf, Kind.isControl] at hc

end Sys2Proof.Machine
end

