-- ==== Sys2Proof/Laws/Stages.lean ====
section
/-! SUPPORT. Everything each stage of a tick can do, said once (spec rules R282 to R298). -/

namespace Sys2Proof.Machine

/-! ### WB and MEM (R286, R288) -/

@[simp] theorem doWB_empty {s : State} (h : s.slotWB = none) : doWB s = s := by simp [doWB, h]

theorem doWB_occupied {s : State} {L : Latch} (h : s.slotWB = some L) :
    doWB s = { s.writeDest L.desc.dest L.wbValue with slotWB := none } := by simp [doWB, h]

@[simp] theorem doMEM_empty {s : State} (h : s.slotMEM = none) : doMEM s = s := by simp [doMEM, h]

theorem doMEM_occupied {s : State} {L : Latch} (h : s.slotMEM = some L) :
    doMEM s = { s.memAccess (ruleOf L.instr).mem L.result L.storeVal with
      slotWB := some { L with wbValue := s.memValue (ruleOf L.instr).mem L.result }
      slotMEM := none } := by simp [doMEM, h]

/-- What a memory access leaves: every byte outside the in-bounds store, if there is one (R65, R67). -/
theorem memAccess_readByte (s : State) (work : MemWork) (x v : Word) (a : Nat)
    (h : ∀ w, work = .store w → inBounds s.params.memWords w x = true →
      a < (alignedAddr w x).toNat ∨ (alignedAddr w x).toNat + w.bytes ≤ a) :
    (s.memAccess work x v).mem.readByte a = s.mem.readByte a := by
  cases work with
  | pass => rfl
  | load => rfl
  | store w =>
    simp only [State.memAccess, State.memWrite]
    split
    · exact readByte_writeValue_of_outside _ _ _ _ _ _ (h w rfl (by assumption))
    · rfl

theorem memWrite_wf (s : State) (h : s.mem.wf) (w : Width) (x v : Word) :
    (s.memWrite w x v).mem.wf := by
  unfold State.memWrite
  split
  · exact writeValue_wf _ h ..
  · exact h

theorem memAccess_wf (s : State) (h : s.mem.wf) (work : MemWork) (x v : Word) :
    (s.memAccess work x v).mem.wf := by
  cases work
  · exact h
  · exact h
  · exact memWrite_wf s h ..

/-! ### EX (R289, R290) -/

theorem doEX_empty {s : State} (h : s.slotEX = none) (P1 P2 : Option Latch) :
    doEX P1 P2 s = (s, false) := by simp [doEX, h]

/-- The outputs of EX for the record `L`. -/
def exOut (s : State) (P1 P2 : Option Latch) (L : Latch) : ExOut :=
  (ruleOf L.instr).ex L.pc (deliveredA s P1 P2 L) (deliveredB s P1 P2 L)

theorem doEX_occupied {s : State} {L : Latch} (h : s.slotEX = some L) (P1 P2 : Option Latch) :
    doEX P1 P2 s =
      ({ (steerEX s L (exOut s P1 P2 L).steer).1 with
          slotMEM := some (executed L (exOut s P1 P2 L)), slotEX := none },
        (steerEX s L (exOut s P1 P2 L).steer).2) := by simp [doEX, h, exOut]

/-- Steering either leaves the state alone but for the predictor counter, or flushes and redirects, and
then possibly counts a miss and loads the penalty. -/
theorem steerEX_cases (s : State) (L : Latch) (st : Steer) :
    (∃ c, steerEX s L st = ({ s with bpCounter := c }, false)) ∨
    (∃ c m p a, steerEX s L st = ({ s with
        bpCounter := c, missCount := m, mispStall := p
        slotIF := none, slotID := none, dataStall := 0, cursor := a }, true) ∧
      (p = s.mispStall ∨ p = s.params.mispredictPenalty)) := by
  cases st with
  | fallThrough => exact .inl ⟨s.bpCounter, rfl⟩
  | jump t =>
    exact .inr ⟨s.bpCounter, s.missCount, s.mispStall, t, rfl, .inl rfl⟩
  | branch taken t =>
    simp only [steerEX, resolve]
    split
    · exact .inr ⟨_, _, _, _, rfl, .inr rfl⟩
    · exact .inl ⟨_, rfl⟩

/-! ### ID and IF (R292 to R295) -/

theorem doID_empty {w : State × Bool} (h : w.1.slotID = none) : doID w = w := by simp [doID, h]

theorem doID_occupied {w : State × Bool} {L : Latch} (h : w.1.slotID = some L) :
    doID w =
      (if L.desc.isBranch && (decoded w.1 L).predTaken then
        ({ w.1 with
            slotEX := some (decoded w.1 L), slotID := none
            cursor := (decoded w.1 L).predTarget, slotIF := none }, true)
      else ({ w.1 with slotEX := some (decoded w.1 L), slotID := none }, w.2)) := by
  have : (decoded w.1 L).desc = L.desc := by
    unfold decoded; simp only []; split <;> rfl
  simp only [doID, h, this]

theorem decoded_eq (s : State) (L : Latch) :
    decoded s L = { L with
      opA := s.readReg L.desc.rs
      opB := s.readReg L.desc.rt
      predTaken := if L.desc.isBranch then predict s.cfg.branchPredictionMode s.bpCounter else L.predTaken
      predTarget := if L.desc.isBranch then
          (if predict s.cfg.branchPredictionMode s.bpCounter then L.desc.target.getD (nextAddress L.pc)
            else nextAddress L.pc)
        else L.predTarget } := by
  have : ({ L with opA := s.readReg L.desc.rs, opB := s.readReg L.desc.rt } : Latch).desc = L.desc := rfl
  unfold decoded
  simp only [this]
  split <;> simp_all

@[simp] theorem decoded_desc (s : State) (L : Latch) : (decoded s L).desc = L.desc := by
  rw [decoded_eq]; rfl

@[simp] theorem decoded_idx (s : State) (L : Latch) : (decoded s L).idx = L.idx := by
  rw [decoded_eq]

theorem enterID_occupied {s : State} {L : Latch} (h : s.slotIF = some L) :
    enterID s = { s with
      dataStall := if 0 < (s.hazard L.idx).stall then (s.hazard L.idx).stall else s.dataStall
      slotID := some { L with stall := (s.hazard L.idx).stall }
      slotIF := none } := by simp [enterID, h]

@[simp] theorem enterID_empty {s : State} (h : s.slotIF = none) : enterID s = s := by
  simp [enterID, h]

/-- Fetching either does nothing or brings the entry the cursor names, which is not in flight, into IF. -/
theorem fetch_cases (s : State) :
    fetch s = s ∨
    ∃ k w, s.indexOf s.cursor = some k ∧ s.prog[k]? = some w ∧ s.inFlight k = false ∧
      fetch s = { s with
        slotIF := some { idx := k, pc := s.cursor, word := w }
        cursor := nextAddress s.cursor } := by
  unfold fetch
  split
  · exact .inl rfl
  · split
    · exact .inl rfl
    · split
      · exact .inl rfl
      · exact .inr ⟨_, _, by assumption, by assumption, by simp_all, rfl⟩

theorem doIF_redirected (s : State) : doIF (s, true) = s := rfl

/-- `index_of` (R27) as an equation between addresses. -/
theorem indexOf_eq_some (s : State) (a : Word) (k : Nat) :
    s.indexOf a = some k ↔ k < s.prog.length ∧ a.toNat = s.params.programBase.toNat + 4 * k := by
  unfold State.indexOf State.programLength
  simp only []
  split
  · simp; omega
  · simp; omega

theorem inFlight_iff (s : State) (k : Nat) :
    s.inFlight k = true ↔ ∃ S L, S ≠ .IF ∧ s.slot S = some L ∧ L.idx = k := by
  have hold : ∀ o : Option Latch, holds o k = true ↔ ∃ L, o = some L ∧ L.idx = k := by
    intro o; cases o <;> simp [holds]
  simp only [State.inFlight, Bool.or_eq_true, hold]
  constructor
  · rintro (((⟨L, h, e⟩ | ⟨L, h, e⟩) | ⟨L, h, e⟩) | ⟨L, h, e⟩)
    · exact ⟨.ID, L, by decide, h, e⟩
    · exact ⟨.EX, L, by decide, h, e⟩
    · exact ⟨.MEM, L, by decide, h, e⟩
    · exact ⟨.WB, L, by decide, h, e⟩
  · rintro ⟨S, L, hS, h, e⟩
    cases S
    · exact absurd rfl hS
    · exact .inl (.inl (.inl ⟨L, h, e⟩))
    · exact .inl (.inl (.inr ⟨L, h, e⟩))
    · exact .inl (.inr ⟨L, h, e⟩)
    · exact .inr ⟨L, h, e⟩

theorem empty_iff (s : State) : s.empty = true ↔ ∀ S, s.slot S = none := by
  simp only [State.empty, Bool.and_eq_true, Option.isNone_iff_eq_none]
  constructor
  · rintro ⟨⟨⟨⟨h1, h2⟩, h3⟩, h4⟩, h5⟩ S
    cases S <;> assumption
  · intro h
    exact ⟨⟨⟨⟨h .IF, h .ID⟩, h .EX⟩, h .MEM⟩, h .WB⟩

/-! ### The tick -/

theorem step_running {s : State} (h : s.mode = .running) : step s = .next (conclude (advance s)) := by
  simp [step, tick, h, tickBody]

theorem step_not_running {s : State} (h : s.mode ≠ .running) : step s = .next s := by
  unfold step tick
  split
  · rename_i e; exact absurd e h
  · rfl
  · rfl

theorem advance_dataStall {s : State} (h : 0 < s.dataStall) :
    advance s = (backEnd s.slotMEM s.slotWB { s with dataStall := s.dataStall - 1 }).1 := by
  simp [advance, h]

theorem advance_mispStall {s : State} (h : s.dataStall = 0) (h' : 0 < s.mispStall) :
    advance s = (backEnd s.slotMEM s.slotWB { s with mispStall := s.mispStall - 1 }).1 := by
  simp [advance, h, h']

theorem advance_full {s : State} (h : s.dataStall = 0) (h' : s.mispStall = 0) :
    advance s = doIF (doID (backEnd s.slotMEM s.slotWB s)) := by
  simp [advance, h, h']

end Sys2Proof.Machine
end

