-- ==== Sys2Proof/Laws/Occupancy.lean ====
section
/-! SUPPORT. Where records can go (spec rules R36, R48, R294): every stage function moves records along,
changes none of `idx`, `pc` and `word`, and never brings in a second copy of an entry in flight. -/

namespace Sys2Proof.Machine

/-- Every record carries its program entry, and no two slots hold the same one. -/
structure State.Occupancy (s : State) : Prop where
  records : ∀ S L, s.slot S = some L → s.recordOk L
  distinct : ∀ S S' L L', S ≠ S' → s.slot S = some L → s.slot S' = some L' → L.idx ≠ L'.idx

/-- The same program entry, with a stall count in range. -/
structure sameEntry (L' L : Latch) : Prop where
  idx : L'.idx = L.idx
  pc : L'.pc = L.pc
  word : L'.word = L.word
  stall : L.stall ≤ 2 → L'.stall ≤ 2

theorem sameEntry.rfl {L : Latch} : sameEntry L L := ⟨Eq.refl _, Eq.refl _, Eq.refl _, id⟩

/-- Records moved along injectively keep the occupancy. -/
theorem Occupancy_of_moves {s t : State} (h : s.Occupancy) (hp : t.prog = s.prog)
    (hb : t.params = s.params) (f : Stage → Stage)
    (move : ∀ S L', t.slot S = some L' → ∃ L, s.slot (f S) = some L ∧ sameEntry L' L)
    (inj : ∀ S S' L L', t.slot S = some L → t.slot S' = some L' → f S = f S' → S = S') :
    t.Occupancy := by
  refine ⟨fun S L' hL => ?_, fun S S' L L' hS hL hL' => ?_⟩
  · obtain ⟨L, hs, e⟩ := move S L' hL
    have ok := h.records _ _ hs
    refine ⟨?_, ?_, e.stall ok.stall⟩
    · rw [hp, e.idx, e.word]; exact ok.word
    · have : t.indexOf L'.pc = s.indexOf L.pc := by
        unfold State.indexOf State.programLength; rw [hp, hb, e.pc]
      rw [this, e.idx]; exact ok.index
  · obtain ⟨M, hs, e⟩ := move S L hL
    obtain ⟨M', hs', e'⟩ := move S' L' hL'
    rw [e.idx, e'.idx]
    exact h.distinct _ _ _ _ (fun hf => hS (inj S S' L L' hL hL' hf)) hs hs'

/-- Some slots emptied, the rest untouched. -/
theorem Occupancy_of_subset {s t : State} (h : s.Occupancy) (hp : t.prog = s.prog)
    (hb : t.params = s.params) (sub : ∀ S L, t.slot S = some L → s.slot S = some L) : t.Occupancy :=
  Occupancy_of_moves h hp hb id (fun S L hL => ⟨L, sub S L hL, sameEntry.rfl⟩) (fun _ _ _ _ _ _ e => e)

/-- A record moved from one slot to another, the slot it leaves emptied. -/
theorem Occupancy_of_move {s t : State} (h : s.Occupancy) (hp : t.prog = s.prog)
    (hb : t.params = s.params) {src dst : Stage} {L M : Latch} (hL : s.slot src = some L)
    (hM : t.slot dst = some M) (hs : t.slot src = none) (e : sameEntry M L)
    (rest : ∀ S N, S ≠ dst → t.slot S = some N → s.slot S = some N) : t.Occupancy := by
  refine Occupancy_of_moves h hp hb (fun S => if S = dst then src else S) (fun S N hN => ?_)
    (fun S S' N N' hN hN' hf => ?_)
  · by_cases hd : S = dst
    · subst hd
      rw [hM] at hN; cases hN
      exact ⟨L, by simpa using hL, e⟩
    · exact ⟨N, by simpa [hd] using rest S N hd hN, sameEntry.rfl⟩
  · by_cases h1 : S = dst <;> by_cases h2 : S' = dst <;> simp only [h1, h2, if_true, if_false] at hf
    · rw [h1, h2]
    · rw [← hf, hs] at hN'; cases hN'
    · rw [hf, hs] at hN; cases hN
    · exact hf

theorem doWB_Occupancy {s : State} (h : s.Occupancy) : (doWB s).Occupancy :=
  Occupancy_of_subset h (by simp) (by simp) fun S L hL => by
    cases S <;> simp [State.slot] at hL ⊢ <;> exact hL

theorem doMEM_Occupancy {s : State} (h : s.Occupancy) : (doMEM s).Occupancy := by
  cases hs : s.slotMEM with
  | none => rw [doMEM_empty hs]; exact h
  | some L =>
    refine Occupancy_of_move h (by simp) (by simp) (src := .MEM) (dst := .WB) hs
      (M := { L with wbValue := s.memValue (ruleOf L.instr).mem L.result }) ?_ ?_
      ⟨rfl, rfl, rfl, id⟩ ?_
    · rw [doMEM_occupied hs]; rfl
    · rw [doMEM_occupied hs]; rfl
    · intro S N hS hN
      rw [doMEM_occupied hs] at hN
      cases S <;> simp [State.slot] at hS hN ⊢ <;> exact hN

/-- Steering keeps or empties slots. -/
theorem steerEX_slots (s : State) (L : Latch) (st : Steer) (S : Stage) (N : Latch)
    (h : (steerEX s L st).1.slot S = some N) : s.slot S = some N := by
  rcases steerEX_cases s L st with ⟨c, e⟩ | ⟨c, m, p, a, e, -⟩ <;> rw [e] at h <;>
    cases S <;> simp [State.slot] at h ⊢ <;> exact h

theorem doEX_Occupancy {s : State} (h : s.Occupancy) (P1 P2 : Option Latch) :
    (doEX P1 P2 s).1.Occupancy := by
  cases hs : s.slotEX with
  | none => rw [doEX_empty hs]; exact h
  | some L =>
    refine Occupancy_of_move h (by simp) (by simp) (src := .EX) (dst := .MEM) hs
      (M := executed L (exOut s P1 P2 L)) ?_ ?_ ⟨rfl, rfl, rfl, id⟩ ?_
    · rw [doEX_occupied hs]; rfl
    · rw [doEX_occupied hs]; rfl
    · intro S N hS hN
      rw [doEX_occupied hs] at hN
      cases S <;> simp only [State.slot] at hS hN
      · exact steerEX_slots s L _ .IF N hN
      · exact steerEX_slots s L _ .ID N hN
      · cases hN
      · exact absurd rfl hS
      · exact steerEX_slots s L _ .WB N hN

theorem doID_Occupancy {w : State × Bool} (h : w.1.Occupancy) : (doID w).1.Occupancy := by
  cases hs : w.1.slotID with
  | none => rw [doID_empty hs]; exact h
  | some L =>
    refine Occupancy_of_move h (by simp) (by simp) (src := .ID) (dst := .EX) hs
      (M := decoded w.1 L) ?_ ?_ (by rw [decoded_eq]; exact ⟨rfl, rfl, rfl, id⟩) ?_
    · rw [doID_occupied hs]; split <;> rfl
    · rw [doID_occupied hs]; split <;> rfl
    · intro S N hS hN
      rw [doID_occupied hs] at hN
      split at hN <;> cases S <;> simp [State.slot] at hS hN ⊢ <;> exact hN

/-- A stall count is at most 2 (R231). -/
theorem hazard_stall_le (s : State) (i : Nat) : (s.hazard i).stall ≤ 2 := by
  have policy : ∀ f l d, 1 ≤ d → stallNeed f l d ≤ 2 := by
    intro f l d; unfold stallNeed; split
    · split <;> omega
    · omega
  have one : ∀ C d, 1 ≤ d → (s.findingAt C i d).need ≤ 2 := by
    intro C d hd
    by_cases h : (s.findingAt C i d).raw = true
    · obtain ⟨P, r, h1, h2, h3, h4⟩ := (findingAt_raw ..).1 h
      rw [findingAt_need s C P i d h1 h2 r h3 h4]; exact policy _ _ _ hd
    · rw [findingAt_need_of_not_raw _ _ _ _ (by simpa using h)]; omega
  cases hC : s.descAt i with
  | none => rw [hazard_of_no_desc hC]; decide
  | some C =>
    by_cases hs : s.cfg.stallsEnabled = true
    · rw [hazard_of_desc hs hC]
      simp only []
      have := one C 1 (by omega); have := one C 2 (by omega); omega
    · rw [hazard_of_stalls_off (by simpa using hs)]; decide

theorem enterID_Occupancy {s : State} (h : s.Occupancy) : (enterID s).Occupancy := by
  cases hs : s.slotIF with
  | none => rw [enterID_empty hs]; exact h
  | some L =>
    refine Occupancy_of_move h (by simp) (by simp) (src := .IF) (dst := .ID) hs
      (M := { L with stall := (s.hazard L.idx).stall }) ?_ ?_
      ⟨rfl, rfl, rfl, fun _ => hazard_stall_le s L.idx⟩ ?_
    · rw [enterID_occupied hs]; rfl
    · rw [enterID_occupied hs]; rfl
    · intro S N hS hN
      rw [enterID_occupied hs] at hN
      cases S <;> simp [State.slot] at hS hN ⊢ <;> exact hN

theorem fetch_Occupancy {s : State} (h : s.Occupancy) : (fetch s).Occupancy := by
  rcases fetch_cases s with e | ⟨k, w, h1, h2, h3, e⟩ <;> rw [e]
  · exact h
  · have fresh : ∀ S L, S ≠ .IF → s.slot S = some L → L.idx ≠ k := fun S L hS hL hk => by
      have := (inFlight_iff s k).2 ⟨S, L, hS, hL, hk⟩
      simp [h3] at this
    have other : ∀ S L, S ≠ .IF →
        ({ s with slotIF := some { idx := k, pc := s.cursor, word := w },
                  cursor := nextAddress s.cursor } : State).slot S = some L → s.slot S = some L := by
      intro S L hS hL; cases S <;> first | exact absurd rfl hS | exact hL
    refine ⟨fun S L hL => ?_, fun S S' L L' hS hL hL' => ?_⟩
    · by_cases hI : S = .IF
      · subst hI; cases hL; exact ⟨h2, h1, Nat.zero_le _⟩
      · have ok := h.records S L (other S L hI hL)
        exact ⟨ok.word, ok.index, ok.stall⟩
    · by_cases hI : S = .IF <;> by_cases hI' : S' = .IF
      · exact absurd (hI.trans hI'.symm) hS
      · subst hI; cases hL; exact (fresh S' L' hI' (other S' L' hI' hL')).symm
      · subst hI'; cases hL'; exact fresh S L hI (other S L hI hL)
      · exact h.distinct S S' L L' hS (other S L hI hL) (other S' L' hI' hL')

theorem doIF_Occupancy {w : State × Bool} (h : w.1.Occupancy) : (doIF w).Occupancy := by
  unfold doIF
  split
  · exact h
  · exact fetch_Occupancy (enterID_Occupancy h)

end Sys2Proof.Machine
end

