-- ==== Sys2Proof/Laws/Pipeline.lean ====
section
/-! SUPPORT. The tick as a whole: what registers and memory depend on, what the back end can do to the
young half, and what a tick leaves to execute next (spec rules R281 to R296). -/

namespace Sys2Proof.Machine

/-! ### Inputs, mode and cycle -/

theorem advance_inputs (s : State) :
    (advance s).prog = s.prog ∧ (advance s).cfg = s.cfg ∧ (advance s).params = s.params := by
  unfold advance backEnd
  simp only []
  split
  · simp
  · split <;> simp

theorem advance_mode (s : State) : (advance s).mode = s.mode := by
  unfold advance backEnd
  simp only []
  split
  · simp
  · split <;> simp

theorem advance_cycle (s : State) : (advance s).cycle = s.cycle := by
  unfold advance backEnd
  simp only []
  split
  · simp
  · split <;> simp

/-- `conclude` finishes exactly on an empty pipeline with the cursor past the end (R298). -/
theorem conclude_finishes {s : State} (h : s.empty = true) (h' : s.pastEnd s.cursor = true) :
    conclude s = { s with mode := .finished } := by
  simp [conclude, h, h']

theorem conclude_continues {s : State} (h : (s.empty && s.pastEnd s.cursor) = false) :
    conclude s = { s with cycle := s.cycle + 1 } := by
  simp [conclude, h]

/-! ### Registers and memory: what the older half depends on -/

/-- Equal registers, memory, parameters and occupants of MEM and WB. -/
structure sameData (s t : State) : Prop where
  regs : t.regs = s.regs
  mem : t.mem = s.mem
  params : t.params = s.params
  slotMEM : t.slotMEM = s.slotMEM
  slotWB : t.slotWB = s.slotWB

theorem sameData.rfl {s : State} : sameData s s :=
  ⟨Eq.refl _, Eq.refl _, Eq.refl _, Eq.refl _, Eq.refl _⟩

theorem sameData.trans {s t u : State} (h : sameData s t) (h' : sameData t u) : sameData s u :=
  ⟨h'.1.trans h.1, h'.2.trans h.2, h'.3.trans h.3, h'.4.trans h.4, h'.5.trans h.5⟩

theorem memAccess_mem_congr {s t : State} (h : t.mem = s.mem) (hp : t.params = s.params)
    (work : MemWork) (x v : Word) : (t.memAccess work x v).mem = (s.memAccess work x v).mem := by
  cases work with
  | pass => exact h
  | load => exact h
  | store w => simp only [State.memAccess, State.memWrite, hp, h]; split <;> simp [h]

theorem memValue_congr {s t : State} (h : t.mem = s.mem) (hp : t.params = s.params)
    (work : MemWork) (x : Word) : t.memValue work x = s.memValue work x := by
  cases work <;> simp only [State.memValue, State.memRead, h, hp]

theorem doWB_congr {s t : State} (h : sameData s t) : sameData (doWB s) (doWB t) := by
  refine ⟨?_, by simp [h.mem], by simp [h.params], by simp [h.slotMEM], by simp⟩
  cases hw : s.slotWB with
  | none => rw [doWB_empty hw, doWB_empty (h.slotWB.trans hw)]; exact h.regs
  | some L =>
    rw [doWB_occupied hw, doWB_occupied (h.slotWB.trans hw)]
    exact writeDest_regs_congr h.regs _ _

theorem doMEM_congr {s t : State} (h : sameData s t) : sameData (doMEM s) (doMEM t) := by
  cases hm : s.slotMEM with
  | none => rw [doMEM_empty hm, doMEM_empty (h.slotMEM.trans hm)]; exact h
  | some L =>
    rw [doMEM_occupied hm, doMEM_occupied (h.slotMEM.trans hm)]
    refine ⟨by simp [h.regs], memAccess_mem_congr h.mem h.params _ _ _, by simp [h.params], rfl, ?_⟩
    simp only [memValue_congr h.mem h.params]

theorem drain_congr {s t : State} (h : sameData s t) : sameData s.drain t.drain :=
  doWB_congr (doMEM_congr (doWB_congr h))

/-- WB does not look at MEM. -/
theorem doWB_withMEM (u : State) (m : Option Latch) :
    doWB { u with slotMEM := m } = { doWB u with slotMEM := m } := by
  rcases u with ⟨_, _, _, _, _, _, _, _, _, _, wb, _, _, _, _, _, _⟩
  cases wb with
  | none => rfl
  | some L =>
    simp only [doWB]
    cases L.desc.dest with
    | none => rfl
    | some r => simp only [State.writeDest, State.writeReg]; split <;> rfl

/-- A tick does to registers, memory, MEM and WB what its back end does, whatever kind of tick it is. -/
theorem advance_sameData (s : State) :
    sameData (backEnd s.slotMEM s.slotWB s).1 (advance s) := by
  have key : ∀ u : State, u = s ∨ (∃ a b, u = { s with dataStall := a, mispStall := b }) →
      sameData (backEnd s.slotMEM s.slotWB s).1 (backEnd s.slotMEM s.slotWB u).1 := by
    intro u hu
    have su : sameData s u ∧ u.slotEX = s.slotEX ∧ u.cfg = s.cfg := by
      rcases hu with rfl | ⟨a, b, rfl⟩
      · exact ⟨sameData.rfl, rfl, rfl⟩
      · exact ⟨⟨rfl, rfl, rfl, rfl, rfl⟩, rfl, rfl⟩
    have sd := doMEM_congr (doWB_congr su.1)
    simp only [backEnd]
    refine ⟨by rw [doEX_regs, doEX_regs]; exact sd.regs, by rw [doEX_mem, doEX_mem]; exact sd.mem,
      by rw [doEX_params, doEX_params]; exact sd.params, ?_,
      by rw [doEX_slotWB, doEX_slotWB]; exact sd.slotWB⟩
    have e1 : (doMEM (doWB u)).slotEX = (doMEM (doWB s)).slotEX := by simp [su.2.1]
    have e2 : (doMEM (doWB u)).cfg = (doMEM (doWB s)).cfg := by simp [su.2.2]
    cases h : (doMEM (doWB s)).slotEX with
    | none => rw [doEX_empty h, doEX_empty (e1.trans h)]; exact sd.slotMEM
    | some L =>
      rw [doEX_occupied h, doEX_occupied (e1.trans h)]
      simp only [exOut, deliveredA, deliveredB, e2]
  unfold advance
  simp only []
  split
  · exact key _ (.inr ⟨_, _, rfl⟩)
  · split
    · exact key _ (.inr ⟨_, _, rfl⟩)
    · exact ⟨by simp, by simp, by simp, by simp, by simp⟩

theorem conclude_sameData (s : State) : sameData s (conclude s) :=
  ⟨by simp, by simp, by simp, by simp, by simp⟩

/-! ### Register values once MEM and WB have completed -/

theorem doWB_readReg (s : State) (r : Reg) : (doWB s).readReg r =
    (match s.slotWB with
     | some P => if P.desc.dest = some r then P.wbValue else s.readReg r
     | none => s.readReg r) := by
  cases h : s.slotWB with
  | none => rw [doWB_empty h]
  | some P =>
    rw [doWB_occupied h]
    exact readReg_writeDest _ _ (destination_ne_zero _) _ r

theorem drain_readReg (s : State) (r : Reg) : s.drain.readReg r =
    (match s.slotMEM with
     | some P =>
       if P.desc.dest = some r then (doWB s).memValue (ruleOf P.instr).mem P.result
       else (doWB s).readReg r
     | none => (doWB s).readReg r) := by
  show (doWB (doMEM (doWB s))).readReg r = _
  cases h : s.slotMEM with
  | none =>
    have : (doWB s).slotMEM = none := by simp [h]
    rw [doMEM_empty this, doWB_empty (s := doWB s) (by simp)]
  | some P =>
    have : (doWB s).slotMEM = some P := by simp [h]
    rw [doMEM_occupied this, doWB_occupied (L := { P with wbValue := _ }) rfl]
    refine (readReg_writeDest _ _ (destination_ne_zero _) _ r).trans ?_
    show (if P.desc.dest = some r then _ else _) = (if P.desc.dest = some r then _ else _)
    simp only
    congr 1
    exact readReg_congr (by simp) r

/-- A register writer that is not a load has its value when it leaves EX. -/
theorem mem_pass_of_dest (P : Latch) (r : Reg) (h : P.desc.dest = some r)
    (hl : P.desc.isLoad = false) : (ruleOf P.instr).mem = .pass := by
  have : ∀ i, destination i = some r → kindOf i ≠ .load → (ruleOf i).mem = .pass := by
    intro i h1 h2; cases i <;> first | rfl | (exact absurd rfl h2) | (cases h1)
  exact this _ h (by simp [Descriptor.isLoad] at hl; exact hl)

/-- A store's rule has store data. -/
theorem storeVal_of_store (i : Instr) (w : Width) (h : (ruleOf i).mem = .store w) (pc a b : Word) :
    ∃ v, ((ruleOf i).ex pc a b).storeVal = some v := by
  cases i <;> first | exact ⟨_, rfl⟩ | (cases h)

theorem steer_of_isJump (L : Latch) (hj : L.desc.isJump = true) (pc a b : Word) :
    ∃ tgt, ((ruleOf L.instr).ex pc a b).steer = .jump tgt := by
  have : ∀ i, kindOf i = .jump ∨ kindOf i = .jumpRegister →
      ∃ tgt, ((ruleOf i).ex pc a b).steer = .jump tgt := by
    intro i hi
    cases i <;> simp [kindOf] at hi <;> exact ⟨_, rfl⟩
  exact this _ (by simp [Descriptor.isJump] at hj; exact hj)

theorem steer_of_isBranch (L : Latch) (hb : L.desc.isBranch = true) (pc a b : Word) :
    ∃ k tgt, ((ruleOf L.instr).ex pc a b).steer = .branch k tgt ∧
      staticTarget pc L.instr = some tgt := by
  have : ∀ i, kindOf i = .conditionalBranch →
      ∃ k tgt, ((ruleOf i).ex pc a b).steer = .branch k tgt ∧ staticTarget pc i = some tgt := by
    intro i hi
    cases i <;> simp [kindOf] at hi <;> exact ⟨_, _, rfl, rfl⟩
  exact this _ (by simp [Descriptor.isBranch] at hb; exact hb)

@[simp] theorem runRule_cursor (r : StageRule) (a b : Word) (s : State) :
    (runRule r a b s).cursor = (r.ex s.cursor a b).steer.next s.cursor := by
  simp [runRule]

/-! ### What the back end does to the young half -/

/-- EX is emptied; without a redirect IF, ID, the stalls and the cursor stay, with one they are cleared
and the misprediction stall is as it was or holds the penalty. -/
theorem backEnd_cases (s : State) (P1 P2 : Option Latch) :
    (backEnd P1 P2 s).1.slotEX = none ∧
    ((backEnd P1 P2 s).2 = false ∧ (backEnd P1 P2 s).1.slotIF = s.slotIF ∧
        (backEnd P1 P2 s).1.slotID = s.slotID ∧ (backEnd P1 P2 s).1.dataStall = s.dataStall ∧
        (backEnd P1 P2 s).1.mispStall = s.mispStall ∧ (backEnd P1 P2 s).1.cursor = s.cursor ∨
      (backEnd P1 P2 s).2 = true ∧ s.slotEX ≠ none ∧ (backEnd P1 P2 s).1.slotIF = none ∧
        (backEnd P1 P2 s).1.slotID = none ∧ (backEnd P1 P2 s).1.dataStall = 0 ∧
        ((backEnd P1 P2 s).1.mispStall = s.mispStall ∨
          (backEnd P1 P2 s).1.mispStall = s.params.mispredictPenalty)) := by
  simp only [backEnd, doEX_slotEX, true_and]
  generalize hu : doMEM (doWB s) = u
  have u1 : u.slotIF = s.slotIF := by subst hu; simp
  have u2 : u.slotID = s.slotID := by subst hu; simp
  have u3 : u.cursor = s.cursor := by subst hu; simp
  have u4 : u.dataStall = s.dataStall := by subst hu; simp
  have u5 : u.slotEX = s.slotEX := by subst hu; simp
  have u6 : u.mispStall = s.mispStall := by subst hu; simp
  have u7 : u.params = s.params := by subst hu; simp
  cases h : u.slotEX with
  | none => rw [doEX_empty h]; exact .inl ⟨rfl, u1, u2, u4, u6, u3⟩
  | some L =>
    rw [doEX_occupied h]
    rcases steerEX_cases u L (exOut u P1 P2 L).steer with ⟨c, hc⟩ | ⟨c, m, p, a, hc, hp⟩
    · rw [hc]; exact .inl ⟨rfl, u1, u2, u4, u6, u3⟩
    · rw [hc]; right; refine ⟨rfl, by rw [← u5, h]; simp, rfl, rfl, rfl, ?_⟩
      rw [← u6, ← u7]; exact hp

/-- Whatever EX does, the occupants of EX and MEM go on to MEM and WB as the same program entries. -/
theorem backEnd_moves (s : State) (P1 P2 : Option Latch) :
    (backEnd P1 P2 s).1.slotMEM.map (fun L => (L.idx, L.pc, L.word)) =
      s.slotEX.map (fun L => (L.idx, L.pc, L.word)) ∧
    (backEnd P1 P2 s).1.slotWB.map (fun L => (L.idx, L.pc, L.word)) =
      s.slotMEM.map (fun L => (L.idx, L.pc, L.word)) := by
  simp only [backEnd, doEX_slotWB]
  constructor
  · cases h : s.slotEX with
    | none => rw [doEX_empty (by simp [h])]; simp
    | some L => rw [doEX_occupied (L := L) (by simp [h])]; rfl
  · cases h : s.slotMEM with
    | none => rw [doMEM_empty (by simp [h])]; simp
    | some L => rw [doMEM_occupied (s := doWB s) (L := L) (by simp [h])]; rfl

theorem backEnd_of_empty_EX {s : State} (h : s.slotEX = none) (P1 P2 : Option Latch) :
    (backEnd P1 P2 s).2 = false := by
  simp only [backEnd]; rw [doEX_empty (by simp [h])]

/-- The back end on an occupied EX, in terms of the state at the start of the tick. -/
theorem backEnd_occupied {s : State} {L : Latch} (hL : s.slotEX = some L) (P1 P2 : Option Latch) :
    backEnd P1 P2 s =
      ({ (steerEX (doMEM (doWB s)) L (exOut s P1 P2 L).steer).1 with
          slotMEM := some (executed L (exOut s P1 P2 L)), slotEX := none },
        (steerEX (doMEM (doWB s)) L (exOut s P1 P2 L).steer).2) := by
  have hL' : (doMEM (doWB s)).slotEX = some L := by simp [hL]
  have ho : exOut (doMEM (doWB s)) P1 P2 L = exOut s P1 P2 L := by
    simp [exOut, deliveredA, deliveredB]
  simp only [backEnd]
  rw [doEX_occupied hL', ho]

/-- The EX outputs depend on the configuration only. -/
theorem exOut_congr {s t : State} (h : t.cfg = s.cfg) (P1 P2 : Option Latch) (L : Latch) :
    exOut t P1 P2 L = exOut s P1 P2 L := by
  simp [exOut, deliveredA, deliveredB, h]

/-- When the back end redirects, whatever the stall counters are, the young half is gone and the cursor
is the redirected one. -/
theorem advance_of_redirect (s : State) (tgt : Word)
    (h : ∀ u : State, u.slotEX = s.slotEX → u.cfg = s.cfg →
      (backEnd s.slotMEM s.slotWB u).2 = true ∧ (backEnd s.slotMEM s.slotWB u).1.cursor = tgt) :
    (advance s).slotIF = none ∧ (advance s).slotID = none ∧ (advance s).slotEX = none ∧
      (advance s).cursor = tgt := by
  have key : ∀ u : State, u.slotEX = s.slotEX → u.cfg = s.cfg →
      (backEnd s.slotMEM s.slotWB u).1.slotIF = none ∧
      (backEnd s.slotMEM s.slotWB u).1.slotID = none ∧
      (backEnd s.slotMEM s.slotWB u).1.slotEX = none ∧
      (backEnd s.slotMEM s.slotWB u).1.cursor = tgt := by
    intro u h1 h2
    obtain ⟨b1, b2⟩ := backEnd_cases u s.slotMEM s.slotWB
    rcases b2 with ⟨c0, -⟩ | ⟨c0, -, c1, c2, -⟩
    · rw [(h u h1 h2).1] at c0; cases c0
    · exact ⟨c1, c2, b1, (h u h1 h2).2⟩
  unfold advance
  simp only []
  split
  · exact key { s with dataStall := s.dataStall - 1 } rfl rfl
  · split
    · exact key { s with mispStall := s.mispStall - 1 } rfl rfl
    · have := (h s rfl rfl).1
      have k := key s rfl rfl
      generalize backEnd s.slotMEM s.slotWB s = b at *
      rw [doID_empty k.2.1, doIF, if_pos this]; exact k

/-! ### The instruction that executes next -/

/-- The address of the oldest instruction younger than the one in EX, or the cursor. -/
def State.pcBehindEX (s : State) : Word := ({ s with slotEX := none } : State).archPc

theorem pcBehindEX_eq (s : State) : s.pcBehindEX =
    match s.slotID, s.slotIF with
    | some L, _ => L.pc
    | none, some L => L.pc
    | none, none => s.cursor := by
  unfold State.pcBehindEX State.archPc
  rcases s with ⟨_, _, _, _, _, _, a, b, _, _, _, _, _, _, _, _, _⟩
  cases a <;> cases b <;> rfl

theorem archPc_eq (s : State) : s.archPc =
    match s.slotEX with
    | some L => L.pc
    | none => s.pcBehindEX := by
  unfold State.pcBehindEX State.archPc
  cases s.slotEX <;> rfl

theorem fetch_pcBehindEX (s : State) (h : s.slotIF = none) :
    (fetch s).pcBehindEX = s.pcBehindEX := by
  rcases fetch_cases s with e | ⟨k, w, h1, h2, h3, e⟩ <;> rw [e]
  simp only [pcBehindEX_eq, h]
  cases s.slotID <;> rfl

/-- Fetching never changes what executes next. -/
theorem doIF_archPc (s : State) (h : s.slotID = none) : (doIF (s, false)).archPc = s.archPc := by
  show (fetch (enterID s)).archPc = _
  have e1 : (fetch (enterID s)).slotEX = s.slotEX := by simp
  rw [archPc_eq, archPc_eq, e1]
  have : (fetch (enterID s)).pcBehindEX = s.pcBehindEX := by
    rw [fetch_pcBehindEX _ (enterID_slotIF s)]
    cases hI : s.slotIF with
    | none => rw [enterID_empty hI]
    | some L => rw [enterID_occupied hI]; simp only [pcBehindEX_eq, h, hI]
  cases s.slotEX <;> simp [this]

/-- Without a redirect in EX, a tick leaves to execute next what stood behind EX. -/
theorem advance_archPc (s : State)
    (hb : ∀ u : State, u.slotEX = s.slotEX → u.cfg = s.cfg →
      (backEnd s.slotMEM s.slotWB u).2 = false) : (advance s).archPc = s.pcBehindEX := by
  have keep : ∀ u : State, u.slotEX = s.slotEX → u.cfg = s.cfg → u.slotIF = s.slotIF →
      u.slotID = s.slotID → u.cursor = s.cursor →
      (backEnd s.slotMEM s.slotWB u).1.pcBehindEX = s.pcBehindEX ∧
      (backEnd s.slotMEM s.slotWB u).1.slotEX = none := by
    intro u h1 h2 h3 h4 h5
    obtain ⟨b1, b2⟩ := backEnd_cases u s.slotMEM s.slotWB
    rcases b2 with ⟨-, c1, c2, -, -, c5⟩ | ⟨c0, -⟩
    · refine ⟨?_, b1⟩; simp only [pcBehindEX_eq]; rw [c1, c2, c5, h3, h4, h5]
    · rw [hb u h1 h2] at c0; cases c0
  unfold advance
  simp only []
  split
  · obtain ⟨k1, k2⟩ := keep { s with dataStall := s.dataStall - 1 } rfl rfl rfl rfl rfl
    rw [archPc_eq, k2]; exact k1
  · split
    · obtain ⟨k1, k2⟩ := keep { s with mispStall := s.mispStall - 1 } rfl rfl rfl rfl rfl
      rw [archPc_eq, k2]; exact k1
    · obtain ⟨k1, k2⟩ := keep s rfl rfl rfl rfl rfl
      have hb2 := hb s rfl rfl
      generalize backEnd s.slotMEM s.slotWB s = b at *
      rw [← k1]
      obtain ⟨b, r⟩ := b
      simp only at *
      subst hb2
      cases hI : b.slotID with
      | none => rw [doID_empty hI, doIF_archPc _ hI, archPc_eq, k2]
      | some L =>
        rw [doID_occupied hI]
        have : b.pcBehindEX = (decoded b L).pc := by rw [pcBehindEX_eq, hI, decoded_eq]
        rw [this]
        split
        · rw [doIF_redirected]; rfl
        · rw [doIF_archPc _ rfl]; rfl

/-! ### Program order and the static hazards -/

/-- A good record's descriptor is the program's at its index. -/
theorem descAt_of_recordOk {s : State} {L : Latch} (h : s.recordOk L) :
    s.descAt L.idx = some L.desc := by
  unfold State.descAt
  rw [h.word]
  have := (indexOf_eq_some s L.pc L.idx).1 h.index
  have e : s.entryAddress L.idx = L.pc := by
    apply BitVec.eq_of_toNat_eq
    have := L.pc.isLt
    simp [State.entryAddress, BitVec.toNat_add]; omega
  rw [e]; rfl

/-- In a program that ends below the top of the address space, the entry at `pc + 4` is the next one. -/
theorem idx_of_next {s : State} (hfit : s.programFits) {P C : Latch} (hP : s.recordOk P)
    (hC : s.recordOk C) (h : C.pc = nextAddress P.pc) : C.idx = P.idx + 1 := by
  have h1 := (indexOf_eq_some s P.pc P.idx).1 hP.index
  have h2 := (indexOf_eq_some s C.pc C.idx).1 hC.index
  rw [h] at h2
  have e : (nextAddress P.pc).toNat = (P.pc.toNat + 4) % 2 ^ 32 := by
    simp [nextAddress, BitVec.toNat_add]
  have := P.pc.isLt
  unfold State.programFits at hfit
  omega

/-- A conflicting producer one or two entries before makes the stall count at least its need (R231). -/
theorem stall_ge_need {s : State} {P C : Latch} (hs : s.cfg.stallsEnabled = true)
    (hP : s.recordOk P) (hC : s.recordOk C) (d : Nat) (hd : d = 1 ∨ d = 2) (hi : C.idx = P.idx + d)
    (hc : conflicts P C) :
    stallNeed s.cfg.forwardingEnabled P.desc.isLoad d ≤ (s.hazard C.idx).stall := by
  obtain ⟨r, h1, h2⟩ := hc
  rw [hazard_of_desc hs (descAt_of_recordOk hC)]
  have hp := descAt_of_recordOk hP
  have e : C.idx - d = P.idx := by omega
  rw [← e] at hp
  have := findingAt_need s C.desc P.desc C.idx d (by omega) hp r h1 h2
  simp only
  rcases hd with rfl | rfl <;> omega

theorem not_conflicts_of_isBranch {P C : Latch} (h : P.desc.isBranch = true) : ¬ conflicts P C := by
  rintro ⟨r, h1, -⟩
  have : ∀ i, kindOf i = .conditionalBranch → destination i = none := by
    intro i hi; cases i <;> first | rfl | exact absurd hi (by simp [kindOf])
  have e : P.desc.dest = none := this _ (by simp [Descriptor.isBranch] at h; exact h)
  rw [e] at h1; cases h1

theorem conflicts_congr {P P' C C' : Latch} (h1 : P'.desc = P.desc) (h2 : C'.desc = C.desc) :
    conflicts P' C' ↔ conflicts P C := by
  unfold conflicts; rw [h1, h2]

/-- Records good in `s` are good where the inputs are the same. -/
theorem recordOk_congr {s t : State} (hp : t.prog = s.prog) (hb : t.params = s.params) {L : Latch}
    (h : s.recordOk L) : t.recordOk L := by
  refine ⟨by rw [hp]; exact h.word, ?_, h.stall⟩
  have : t.indexOf L.pc = s.indexOf L.pc := by
    unfold State.indexOf State.programLength; rw [hp, hb]
  rw [this]; exact h.index

theorem backEnd_Occupancy {s : State} (h : s.Occupancy) (P1 P2 : Option Latch) :
    (backEnd P1 P2 s).1.Occupancy :=
  doEX_Occupancy (doMEM_Occupancy (doWB_Occupancy h)) _ _

/-- A cursor past the end names no entry (R27). -/
theorem indexOf_of_pastEnd {s : State} {a : Word} (h : s.pastEnd a = true) : s.indexOf a = none := by
  cases hk : s.indexOf a with
  | none => rfl
  | some k =>
    have := (indexOf_eq_some s a k).1 hk
    have h := of_decide_eq_true h
    unfold State.programLength at h
    omega

end Sys2Proof.Machine
end

