-- ==== Sys2Proof/Tests/Slice0.lean ====
section
/-! SUPPORT. Tests. The words are written out from the encodings of spec/30_encoding.md, the expected
values are those of spec/95_test_vectors.md (the row is named) or of the worked examples of the rules
named. At the end, for every obligation with hypotheses, a witness that meets them. -/

namespace Sys2Proof.Tests

open Sys2Proof Sys2Proof.Machine

/-! ### Well-formedness (R97, R98, R100) -/

/-- The one check: a word that names an instruction is no `unsupported`. -/
theorem test_wf_refuses_a_named_word : (Instr.unsupported 0x20080005#32).wf = false := by decide
theorem test_wf_refuses_nop_as_unsupported : (Instr.unsupported 0x00000000#32).wf = false := by decide
theorem test_wf_accepts_an_unnamed_word : (Instr.unsupported 0xFFFFFFFF#32).wf = true := by decide
theorem test_wf_accepts_an_unnamed_funct : (Instr.unsupported 0x0000000C#32).wf = true := by decide

/-! ### Decoding, one word for each constructor (R91 to R98), field by field -/

theorem test_decode_sll :
    decodeWord 0b000000_00000_01001_01000_00010_000000#32 = .sll 8 9 2 := by decide
theorem test_decode_srl :
    decodeWord 0b000000_00000_01001_01010_11111_000010#32 = .srl 10 9 31 := by decide
theorem test_decode_sra :
    decodeWord 0b000000_00000_10001_10000_00100_000011#32 = .sra 16 17 4 := by decide
theorem test_decode_jr :
    decodeWord 0b000000_11111_00000_00000_00000_001000#32 = .jr 31 := by decide
theorem test_decode_add :
    decodeWord 0b000000_01000_01001_01010_00000_100000#32 = .add 10 8 9 := by decide
theorem test_decode_addu :
    decodeWord 0b000000_00001_00010_00011_00000_100001#32 = .addu 3 1 2 := by decide
theorem test_decode_sub :
    decodeWord 0b000000_10000_10001_10010_00000_100010#32 = .sub 18 16 17 := by decide
theorem test_decode_subu :
    decodeWord 0b000000_00100_00101_00110_00000_100011#32 = .subu 6 4 5 := by decide
theorem test_decode_and :
    decodeWord 0b000000_00111_01000_01001_00000_100100#32 = .and 9 7 8 := by decide
theorem test_decode_or :
    decodeWord 0b000000_10100_10101_10110_00000_100101#32 = .or 22 20 21 := by decide
theorem test_decode_xor :
    decodeWord 0b000000_11000_11001_11010_00000_100110#32 = .xor 26 24 25 := by decide
theorem test_decode_nor :
    decodeWord 0b000000_11011_11100_11101_00000_100111#32 = .nor 29 27 28 := by decide
theorem test_decode_slt :
    decodeWord 0b000000_01000_01001_01011_00000_101010#32 = .slt 11 8 9 := by decide
theorem test_decode_sltu :
    decodeWord 0b000000_11110_11111_00001_00000_101011#32 = .sltu 1 30 31 := by decide
theorem test_decode_j :
    decodeWord 0b000010_00000100000000000000000000#32 = .j 0x0100000 := by decide
theorem test_decode_jal :
    decodeWord 0b000011_10000000000000000000000100#32 = .jal 0x2000004 := by decide
theorem test_decode_beq :
    decodeWord 0b000100_01000_01001_0000000000000010#32 = .beq 8 9 2 := by decide
theorem test_decode_bne :
    decodeWord 0b000101_01000_00000_1111111111111110#32 = .bne 8 0 0xFFFE := by decide
theorem test_decode_addi :
    decodeWord 0b001000_00000_01000_0000000000000101#32 = .addi 8 0 5 := by decide
theorem test_decode_addiu :
    decodeWord 0b001001_01001_01000_1000000000000001#32 = .addiu 8 9 0x8001 := by decide
theorem test_decode_slti :
    decodeWord 0b001010_00011_00100_0111111111111111#32 = .slti 4 3 0x7FFF := by decide
theorem test_decode_sltiu :
    decodeWord 0b001011_00101_00110_1111111111111111#32 = .sltiu 6 5 0xFFFF := by decide
theorem test_decode_andi :
    decodeWord 0b001100_00111_01000_1111111100000000#32 = .andi 8 7 0xFF00 := by decide
theorem test_decode_ori :
    decodeWord 0b001101_01001_01010_0000000011111111#32 = .ori 10 9 0x00FF := by decide
theorem test_decode_xori :
    decodeWord 0b001110_01011_01100_1010010110100101#32 = .xori 12 11 0xA5A5 := by decide
theorem test_decode_lui :
    decodeWord 0b001111_00000_01000_0001001000110100#32 = .lui 8 0x1234 := by decide
theorem test_decode_lb :
    decodeWord 0b100000_01001_01000_0000000000000001#32 = .lb 8 9 1 := by decide
theorem test_decode_lh :
    decodeWord 0b100001_01001_01000_0000000000000010#32 = .lh 8 9 2 := by decide
theorem test_decode_lw :
    decodeWord 0b100011_01001_01000_0000000000000100#32 = .lw 8 9 4 := by decide
theorem test_decode_lbu :
    decodeWord 0b100100_11101_00010_1111111111111111#32 = .lbu 2 29 0xFFFF := by decide
theorem test_decode_lhu :
    decodeWord 0b100101_11101_00011_1111111111111110#32 = .lhu 3 29 0xFFFE := by decide
theorem test_decode_sb :
    decodeWord 0b101000_01001_01000_0000000000000001#32 = .sb 8 9 1 := by decide
theorem test_decode_sh :
    decodeWord 0b101001_01001_01000_0000000000000010#32 = .sh 8 9 2 := by decide
theorem test_decode_sw :
    decodeWord 0b101011_01001_01000_0000000000000100#32 = .sw 8 9 4 := by decide
theorem test_decode_unsupported_opcode :
    decodeWord 0b011100_00000_00000_00000_00000_000000#32 = .unsupported 0x70000000#32 := by decide
theorem test_decode_unsupported_funct :
    decodeWord 0b000000_00000_00000_00000_00000_001100#32 = .unsupported 0x0000000C#32 := by decide
/-- `shamt` of an addition and `rs` of a shift are ignored (R99). -/
theorem test_decode_ignores_unused_fields :
    decodeWord 0b000000_01000_01001_01010_11111_100000#32 = .add 10 8 9 ∧
    decodeWord 0b000000_11111_01001_01000_00010_000000#32 = .sll 8 9 2 := by decide

/-- The submission boundary (R44): 32 bits, no other length. -/
theorem test_decode_rejects_a_halfword : decode 16 0x2008 = .error (.wrongLength 16) := by decide
theorem test_decode_rejects_a_long_number : decode 32 0x120080005 = .error (.tooLarge 0x120080005) := by
  decide
theorem test_decodeTableWord : decodeTableWord 32 0x20080005 = some (.addi 8 0 5) := by decide

/-! ### Descriptors (vectors D1, D7, D10, D13, D19, D26) -/

theorem test_descriptor_add : (decodeUnit 0x01095020#32 0x00400000#32 0).reads = [8, 9] ∧
    (decodeUnit 0x01095020#32 0x00400000#32 0).dest = some 10 ∧
    (decodeUnit 0x01095020#32 0x00400000#32 0).imm = 0x00005020#32 := by decide
theorem test_descriptor_register_zero : (decodeUnit 0x20000005#32 0x00400000#32 0).reads = [] ∧
    (decodeUnit 0x20000005#32 0x00400000#32 0).dest = none := by decide
theorem test_descriptor_store : (decodeUnit 0xAD280004#32 0x00400000#32 0).reads = [9, 8] ∧
    (decodeUnit 0xAD280004#32 0x00400000#32 0).isStore = true ∧
    (decodeUnit 0xAD280004#32 0x00400000#32 0).dest = none := by decide
theorem test_descriptor_branch_to_itself :
    (decodeUnit 0x1000FFFF#32 0x00400010#32 4).target = some 0x00400010#32 := by decide
theorem test_descriptor_target_wraps :
    (decodeUnit 0x10000001#32 0xFFFFFFFC#32 0).target = some 0x00000004#32 := by decide
theorem test_descriptor_jump_region :
    (decodeUnit 0x08000000#32 0x0FFFFFFC#32 0).target = some 0x10000000#32 := by decide

/-! ### One instruction on a small state -/

/-- The reset state with `$t0` and `$t1` set. -/
def operands (t0 t1 : Word) : State := (State.reset.writeReg 8#5 t0).writeReg 9#5 t1

/-- The same with one memory word, in a byte order. -/
def withWord (order : ByteOrder) (t0 t1 : Word) (k : Nat) (v : Word) : State :=
  let s := { operands t0 t1 with params := { Params.default with byteOrder := order } }
  { s with mem := s.mem.writeValue order .word (4 * k) v }

/-- A register after the instruction of a word. -/
def regAfter (w : Word) (s : State) (r : Reg) : Option Word :=
  match exec (decodeWord w) s with
  | .next t => some (t.readReg r)
  | .fault _ => none
  | .refused _ => none

/-- A memory word after the instruction of a word. -/
def memAfter (w : Word) (s : State) (k : Nat) : Option Word :=
  match exec (decodeWord w) s with
  | .next t => some (t.memWord k)
  | .fault _ => none
  | .refused _ => none

/-- The cursor after the instruction of a word. -/
def cursorAfter (w : Word) (s : State) : Option Word :=
  match exec (decodeWord w) s with
  | .next t => some t.cursor
  | .fault _ => none
  | .refused _ => none

/-- Vector A2. -/
theorem test_add_wraps :
    regAfter 0x01095020#32 (operands 0x7FFFFFFF#32 0x00000001#32) 10 = some 0x80000000#32 := by decide
/-- Vector A36. -/
theorem test_add_same_register :
    regAfter 0x01084020#32 (operands 0x00000007#32 0x00000000#32) 8 = some 0x0000000E#32 := by decide
/-- Vector A5. -/
theorem test_addu_wraps :
    regAfter 0x01095021#32 (operands 0xFFFFFFFF#32 0x00000002#32) 10 = some 0x00000001#32 := by decide
/-- Vector A6. -/
theorem test_sub_wraps :
    regAfter 0x01095022#32 (operands 0x80000000#32 0x00000001#32) 10 = some 0x7FFFFFFF#32 := by decide
/-- Vector A9. -/
theorem test_subu_borrows :
    regAfter 0x01095023#32 (operands 0x00000003#32 0x00000005#32) 10 = some 0xFFFFFFFE#32 := by decide
/-- Vector A10. -/
theorem test_and :
    regAfter 0x01095024#32 (operands 0xF0F0F0F0#32 0xFF00FF00#32) 10 = some 0xF000F000#32 := by decide
/-- Vector A11. -/
theorem test_or :
    regAfter 0x01095025#32 (operands 0xF0F0F0F0#32 0x0F0F0000#32) 10 = some 0xFFFFF0F0#32 := by decide
/-- Vector A12. -/
theorem test_xor :
    regAfter 0x01095026#32 (operands 0xFFFF0000#32 0xFF00FF00#32) 10 = some 0x00FFFF00#32 := by decide
/-- Vector A15. -/
theorem test_nor :
    regAfter 0x01095027#32 (operands 0xF0F0F0F0#32 0x0F0F0000#32) 10 = some 0x00000F0F#32 := by decide
/-- Vector A16. -/
theorem test_slt_signed :
    regAfter 0x0109502A#32 (operands 0x80000000#32 0x7FFFFFFF#32) 10 = some 0x00000001#32 := by decide
/-- Vector A17. -/
theorem test_slt_swapped :
    regAfter 0x0109502A#32 (operands 0x7FFFFFFF#32 0x80000000#32) 10 = some 0x00000000#32 := by decide
/-- Vector A20. -/
theorem test_sltu_unsigned :
    regAfter 0x0109502B#32 (operands 0x80000000#32 0x7FFFFFFF#32) 10 = some 0x00000000#32 := by decide
/-- Vector A21. -/
theorem test_sltu_below :
    regAfter 0x0109502B#32 (operands 0x00000000#32 0x00000001#32) 10 = some 0x00000001#32 := by decide
/-- Vector A25. -/
theorem test_sll_loses_bit_31 :
    regAfter 0x00095040#32 (operands 0x00000000#32 0x80000001#32) 10 = some 0x00000002#32 := by decide
/-- Vector A26. -/
theorem test_sll_by_31 :
    regAfter 0x000957C0#32 (operands 0x00000000#32 0x00000001#32) 10 = some 0x80000000#32 := by decide
/-- Vector A30. -/
theorem test_srl_zero_fills :
    regAfter 0x00095102#32 (operands 0x00000000#32 0xFFFFFFFF#32) 10 = some 0x0FFFFFFF#32 := by decide
/-- Vector A32. -/
theorem test_sra_copies_the_sign :
    regAfter 0x00095103#32 (operands 0x00000000#32 0x80000000#32) 10 = some 0xF8000000#32 := by decide
/-- Vector A34. -/
theorem test_sra_rounds_down :
    regAfter 0x00095043#32 (operands 0x00000000#32 0xFFFFFFF1#32) 10 = some 0xFFFFFFF8#32 := by decide
/-- Vector A37. -/
theorem test_add_to_register_zero :
    regAfter 0x01090020#32 (operands 0x00000007#32 0x00000009#32) 0 = some 0x00000000#32 := by decide
/-- Vector I2. -/
theorem test_addi_sign_extends :
    regAfter 0x21288000#32 (operands 0x00000000#32 0x00000000#32) 8 = some 0xFFFF8000#32 := by decide
/-- Vector I3. -/
theorem test_addi_wraps :
    regAfter 0x21280001#32 (operands 0x00000000#32 0x7FFFFFFF#32) 8 = some 0x80000000#32 := by decide
/-- Vector I7. -/
theorem test_addiu_sign_extends :
    regAfter 0x2528FFFF#32 (operands 0x00000000#32 0x00000000#32) 8 = some 0xFFFFFFFF#32 := by decide
/-- Vector I9. -/
theorem test_slti_negative_immediate :
    regAfter 0x2928FFFF#32 (operands 0x00000000#32 0x00000000#32) 8 = some 0x00000000#32 := by decide
/-- Vector I8. -/
theorem test_slti_most_negative :
    regAfter 0x29288000#32 (operands 0x00000000#32 0x80000000#32) 8 = some 0x00000001#32 := by decide
/-- Vector I14. -/
theorem test_sltiu_sign_extends :
    regAfter 0x2D288000#32 (operands 0x00000000#32 0xFFFF7FFF#32) 8 = some 0x00000001#32 := by decide
/-- Vector I16. -/
theorem test_sltiu_nothing_below_zero :
    regAfter 0x2D280000#32 (operands 0x00000000#32 0x00000000#32) 8 = some 0x00000000#32 := by decide
/-- Vector I18. -/
theorem test_andi_zero_extends :
    regAfter 0x3128FFFF#32 (operands 0x00000000#32 0xFFFFFFFF#32) 8 = some 0x0000FFFF#32 := by decide
/-- Vector I21. -/
theorem test_ori_zero_extends :
    regAfter 0x35288765#32 (operands 0x00000000#32 0x12340000#32) 8 = some 0x12348765#32 := by decide
/-- Vector I23. -/
theorem test_xori_zero_extends :
    regAfter 0x3928FFFF#32 (operands 0x00000000#32 0xFFFFFFFF#32) 8 = some 0xFFFF0000#32 := by decide
/-- Vector I28. -/
theorem test_lui :
    regAfter 0x3C088000#32 (operands 0xDEADBEEF#32 0x00000000#32) 8 = some 0x80000000#32 := by decide
/-- Vector M2. -/
theorem test_lb_little :
    regAfter 0x81280001#32 (withWord .little 0#32 0x00000004#32 1 0x8192A3F4#32) 8 =
      some 0xFFFFFFA3#32 := by decide
/-- Vector M2. -/
theorem test_lb_big :
    regAfter 0x81280001#32 (withWord .big 0#32 0x00000004#32 1 0x8192A3F4#32) 8 =
      some 0xFFFFFF92#32 := by decide
/-- Vector M10. -/
theorem test_lh_misaligned :
    regAfter 0x85280003#32 (withWord .little 0#32 0x00000004#32 1 0x8192A3F4#32) 8 =
      some 0xFFFF8192#32 := by decide
/-- Vector M7. -/
theorem test_lh_big :
    regAfter 0x85280000#32 (withWord .big 0#32 0x00000004#32 1 0x8192A3F4#32) 8 =
      some 0xFFFF8192#32 := by decide
/-- Vector M15. -/
theorem test_lw_misaligned :
    regAfter 0x8D280003#32 (withWord .big 0#32 0x00000004#32 1 0x8192A3F4#32) 8 =
      some 0x8192A3F4#32 := by decide
/-- Vector M32. -/
theorem test_lw_address_wraps :
    regAfter 0x8D280008#32 (withWord .little 0#32 0xFFFFFFFC#32 1 0x77777777#32) 8 =
      some 0x77777777#32 := by decide
/-- Vector M6. -/
theorem test_lbu_little :
    regAfter 0x91280003#32 (withWord .little 0#32 0x00000004#32 1 0x8192A3F4#32) 8 =
      some 0x00000081#32 := by decide
/-- Vector M6. -/
theorem test_lbu_big :
    regAfter 0x91280003#32 (withWord .big 0#32 0x00000004#32 1 0x8192A3F4#32) 8 =
      some 0x000000F4#32 := by decide
/-- Vector M12. -/
theorem test_lhu_little :
    regAfter 0x95280002#32 (withWord .little 0#32 0x00000004#32 1 0x8192A3F4#32) 8 =
      some 0x00008192#32 := by decide
/-- Vector M12. -/
theorem test_lhu_big :
    regAfter 0x95280002#32 (withWord .big 0#32 0x00000004#32 1 0x8192A3F4#32) 8 =
      some 0x0000A3F4#32 := by decide
/-- Vector M28: a load out of bounds reads 0. -/
theorem test_lw_out_of_bounds : regAfter 0x8D28FFFC#32 (operands 0x55555555#32 0#32) 8 = some 0#32 := by
  decide
/-- Vector M17. -/
theorem test_sb_little :
    memAfter 0xA1280001#32 (withWord .little 0xAABBCCDD#32 0x00000004#32 1 0x11223344#32) 1 =
      some 0x1122DD44#32 := by decide
/-- Vector M19. -/
theorem test_sb_big :
    memAfter 0xA1280003#32 (withWord .big 0xAABBCCDD#32 0x00000004#32 1 0x11223344#32) 1 =
      some 0x112233DD#32 := by decide
/-- Vector M23. -/
theorem test_sh_misaligned :
    memAfter 0xA5280003#32 (withWord .little 0xAABBCCDD#32 0x00000004#32 1 0x11223344#32) 1 =
      some 0xCCDD3344#32 := by decide
/-- Vector M20. -/
theorem test_sh_big :
    memAfter 0xA5280000#32 (withWord .big 0xAABBCCDD#32 0x00000004#32 1 0x11223344#32) 1 =
      some 0xCCDD3344#32 := by decide
/-- Vector M25. -/
theorem test_sw_misaligned :
    memAfter 0xAD280003#32 (withWord .little 0xAABBCCDD#32 0x00000004#32 1 0x11223344#32) 1 =
      some 0xAABBCCDD#32 := by decide
/-- Vector M24. -/
theorem test_sw_big :
    memAfter 0xAD280000#32 (withWord .big 0xAABBCCDD#32 0x00000004#32 1 0x11223344#32) 1 =
      some 0xAABBCCDD#32 := by decide
/-- Vector M36: a store out of bounds is dropped. -/
theorem test_sw_out_of_bounds : (match exec (decodeWord 0xAD28FFFC#32) (operands 0xAABBCCDD#32 0#32) with
    | .next t => some t.mem
    | .fault _ => none
    | .refused _ => none) = some [] := by decide
/-- A write of zero leaves no entry: the memory is in canonical form again (log entry 5). -/
theorem test_write_of_zero_removes_the_entry :
    ((Memory.writeByte [] 7 0x55#8).writeByte 7 0#8) = [] := by decide

/-- Vector B1. -/
theorem test_beq_taken :
    cursorAfter 0x11090002#32 (operands 0x00000007#32 0x00000007#32) = some 0x0040000C#32 := by decide
/-- Vector B2. -/
theorem test_beq_not_taken :
    cursorAfter 0x11090002#32 (operands 0x00000007#32 0x00000008#32) = some 0x00400004#32 := by decide
/-- Vector B3. -/
theorem test_bne_taken :
    cursorAfter 0x15090002#32 (operands 0x00000001#32 0x00000000#32) = some 0x0040000C#32 := by decide
/-- Vector B4. -/
theorem test_bne_not_taken :
    cursorAfter 0x15090002#32 (operands 0x00000007#32 0x00000007#32) = some 0x00400004#32 := by decide
/-- Vector B7. -/
theorem test_j :
    cursorAfter 0x08100003#32 (operands 0x00000000#32 0x00000000#32) = some 0x0040000C#32 := by decide
/-- Vector B8. -/
theorem test_jal_cursor :
    cursorAfter 0x0C100004#32 (operands 0x00000000#32 0x00000000#32) = some 0x00400010#32 := by decide
/-- Vector B10. -/
theorem test_jr_unaligned :
    cursorAfter 0x01000008#32 (operands 0x00400006#32 0x00000000#32) = some 0x00400006#32 := by decide
/-- R220. -/
theorem test_unsupported_moves_on :
    cursorAfter 0xFFFFFFFF#32 (operands 0x00000000#32 0x00000000#32) = some 0x00400004#32 := by decide
/-- Vector B8. -/
theorem test_jal_link :
    regAfter 0x0C100004#32 (operands 0x00000000#32 0x00000000#32) 31 = some 0x00400004#32 := by decide

/-! ### One step on a placed instruction -/

/-- `addi $t0,$zero,5` is in EX when placed and leaves it with result 5. -/
theorem test_step_runs_addi :
    (match step (State.reset.withFetchWord 32 0x20080005) with
     | .next t => t.slotMEM.map (fun L => (L.instr, L.result))
     | .fault _ => none
     | .refused _ => none) = some (.addi 8 0 5, 5#32) := by decide
/-- `j 0x00400008` placed at reset redirects the cursor (R204). -/
theorem test_step_runs_j :
    (match step (State.reset.withFetchWord 32 0x08100002) with
     | .next t => some t.cursor
     | .fault _ => none
     | .refused _ => none) = some 0x00400008#32 := by decide
/-- `beq $zero,$zero,2` predicted not taken is mispredicted: the target, one miss, the penalty (R290). -/
theorem test_step_runs_beq :
    (match step (State.reset.withFetchWord 32 0x10000002) with
     | .next t => some (t.cursor, t.missCount, t.mispStall)
     | .fault _ => none
     | .refused _ => none) = some (0x0040000C#32, 1, 2) := by decide
/-- A paused machine does not move (R281). -/
theorem test_step_paused : step State.reset = .next State.reset := by rfl

/-! ### Hazards, forwarding, prediction -/

/-- A state with a program loaded and a forwarding setting. -/
def loaded (forwarding : Bool) (p : List Word) : State :=
  { State.reset with cfg := { Configuration.powerOn with forwardingEnabled := forwarding } }.submitProgram p

/-- Vector H1. -/
theorem test_hazard_forwarding_off :
    ((loaded false [0x20080005, 0x20090003, 0x01095020]).hazard 2).type = .raw ∧
    ((loaded false [0x20080005, 0x20090003, 0x01095020]).hazard 2).stall = 2 := by decide
theorem test_hazard_forwarding_on :
    ((loaded true [0x20080005, 0x20090003, 0x01095020]).hazard 2).records =
      [⟨1, 2, .EX, .EX, 9⟩, ⟨0, 2, .MEM, .EX, 8⟩] := by decide
/-- Vector H2. -/
theorem test_hazard_load_use :
    ((loaded true [0x8C080000, 0x01084820]).hazard 1).stall = 1 := by decide
/-- Vector H6. -/
theorem test_hazard_waw : ((loaded false [0x20080001, 0x20080002]).hazard 1).type = .waw := by decide
/-- Vector H11. -/
theorem test_hazard_control :
    ((loaded false [0x20080001, 0x11000001, 0x08100000]).hazard 2).type = .control := by decide

/-- A record of `addi $t0,$zero,5`, of `lw $t0,0($zero)`, of `addi $t1,$zero,3`. -/
def addiT0 : Latch := { idx := 0, pc := 0x00400000#32, word := 0x20080005#32, result := 5#32, wbValue := 9#32 }
def lwT0 : Latch := { idx := 0, pc := 0x00400000#32, word := 0x8C080000#32, result := 4#32 }
def addiT1 : Latch := { idx := 0, pc := 0x00400000#32, word := 0x20090003#32, result := 5#32 }
/-- A record of `beq $zero,$zero,2` at address 0x00400000. -/
def beqZero : Latch := { idx := 0, pc := 0x00400000#32, word := 0x10000002#32 }

/-- Vectors F2, F3, F5, F6, F8. -/
theorem test_forward_near : forward true 8#5 0#32 (some addiT0) (some addiT0) = 5#32 := by decide
theorem test_forward_far : forward true 8#5 0#32 (some addiT1) (some addiT0) = 9#32 := by decide
theorem test_forward_load_has_no_value : forward true 8#5 0#32 (some lwT0) none = 0#32 := by decide
theorem test_forward_past_a_load : forward true 8#5 0#32 (some lwT0) (some addiT0) = 9#32 := by decide
theorem test_forward_off : forward false 8#5 0#32 (some addiT0) (some addiT0) = 0#32 := by decide
/-- R263, R265: saturation at both ends. -/
theorem test_counter_saturates : BpCounter.stronglyTaken.update true = .stronglyTaken ∧
    BpCounter.stronglyNotTaken.update false = .stronglyNotTaken ∧
    BpCounter.weaklyNotTaken.update true = .weaklyTaken := by decide

/-! ### Witnesses: for every obligation with hypotheses, a concrete input that meets them -/

theorem witness_DecodeEncodeRoundTrip :
    (Instr.addi 8 0 5).wf = true ∧ (Instr.unsupported 0xFFFFFFFF#32).wf = true := by decide

theorem witness_UnusedFieldsAreIgnored_three_registers :
    let v := 0x01095FE0#32
    let w := 0x01095820#32
    v ≠ w ∧ opField v = opField w ∧ opField w = 0#6 ∧ functField v = functField w ∧
      functField w ∈ [0x20#6, 0x21#6, 0x22#6, 0x23#6, 0x24#6, 0x25#6, 0x26#6, 0x27#6, 0x2A#6, 0x2B#6] ∧
      rsField v = rsField w ∧ rtField v = rtField w ∧ rdField v = rdField w := by decide
theorem witness_UnusedFieldsAreIgnored_shift :
    let v := 0x03E95040#32
    let w := 0x00095040#32
    v ≠ w ∧ opField v = opField w ∧ opField w = 0#6 ∧ functField v = functField w ∧
      functField w ∈ [0x00#6, 0x02#6, 0x03#6] ∧
      rtField v = rtField w ∧ rdField v = rdField w ∧ shamtField v = shamtField w := by decide
theorem witness_UnusedFieldsAreIgnored_jr :
    let v := 0x03FFFFC8#32
    let w := 0x03E00008#32
    v ≠ w ∧ opField v = opField w ∧ opField w = 0#6 ∧ functField v = functField w ∧
      functField w = 0x08#6 ∧ rsField v = rsField w := by decide
theorem witness_UnusedFieldsAreIgnored_lui :
    let v := 0x3FE81234#32
    let w := 0x3C081234#32
    v ≠ w ∧ opField v = opField w ∧ opField w = 0x0F#6 ∧ rtField v = rtField w ∧
      imm16Field v = imm16Field w := by decide

theorem witness_StaticTargets :
    opField 0x1000FFFF#32 = 0x04#6 ∧ opField 0x15090002#32 = 0x05#6 ∧ opField 0x08100002#32 = 0x02#6 ∧
      opField 0x0C100004#32 = 0x03#6 ∧
      opField 0x03E00008#32 ∉ [0x02#6, 0x03#6, 0x04#6, 0x05#6] := by decide

/-- One word for each row of the table of R127. -/
theorem witness_RegisterSetsOmitRegisterZero :
    (0x01095020#32).extractLsb' 26 6 = 0#6 ∧ (0x01095020#32).extractLsb' 0 6 = 0x20#6 ∧
    (0x00095040#32).extractLsb' 26 6 = 0#6 ∧ (0x00095040#32).extractLsb' 0 6 = 0x00#6 ∧
    (0x03E00008#32).extractLsb' 26 6 = 0#6 ∧ (0x03E00008#32).extractLsb' 0 6 = 0x08#6 ∧
    (0x0000000C#32).extractLsb' 26 6 = 0#6 ∧
    (0x0000000C#32).extractLsb' 0 6 ∉ [0x00#6, 0x02#6, 0x03#6, 0x08#6, 0x20#6, 0x21#6, 0x22#6, 0x23#6,
      0x24#6, 0x25#6, 0x26#6, 0x27#6, 0x2A#6, 0x2B#6] ∧
    (0x20080005#32).extractLsb' 26 6 = 0x08#6 ∧ (0x3C081234#32).extractLsb' 26 6 = 0x0F#6 ∧
    (0x8D280004#32).extractLsb' 26 6 = 0x23#6 ∧ (0xAD280004#32).extractLsb' 26 6 = 0x2B#6 ∧
    (0x11090002#32).extractLsb' 26 6 = 0x04#6 ∧ (0x08100002#32).extractLsb' 26 6 = 0x02#6 ∧
    (0x0C100004#32).extractLsb' 26 6 = 0x03#6 ∧
    (0xFFFFFFFF#32).extractLsb' 26 6 ∉ [0x00#6, 0x02#6, 0x03#6, 0x04#6, 0x05#6, 0x08#6, 0x09#6, 0x0A#6,
      0x0B#6, 0x0C#6, 0x0D#6, 0x0E#6, 0x0F#6, 0x20#6, 0x21#6, 0x23#6, 0x24#6, 0x25#6, 0x28#6, 0x29#6,
      0x2B#6] := by decide

theorem witness_RegisterFileReadsAndWrites : (31#5 : Reg) ≠ 0#5 ∧ (0#5 : Reg) ≠ 31#5 := by decide

/-- A register form; every register but 10 is outside its destination, no byte is stored to. -/
theorem witness_InstructionFrame_register :
    (∃ t, exec (.add 10 8 9) State.reset = .next t) ∧ destination (.add 10 8 9) ≠ some 9 ∧
      ¬ storesTo (.add 10 8 9) State.reset 0 := by
  refine ⟨⟨_, rfl⟩, by decide, ?_⟩
  rintro ⟨w, ea, h, -⟩
  cases h
/-- A store of a halfword at address 4 stores to bytes 4 and 5, and to neither 3 nor 6. -/
theorem witness_InstructionFrame_store :
    (∃ t, exec (.sh 8 0 5) State.reset = .next t) ∧
      storesTo (.sh 8 0 5) State.reset 4 ∧ storesTo (.sh 8 0 5) State.reset 5 ∧
      ¬ storesTo (.sh 8 0 5) State.reset 3 ∧ ¬ storesTo (.sh 8 0 5) State.reset 6 := by
  have h : storeAccess (.sh 8 0 5) State.reset = some (.half, 5#32) := by decide
  refine ⟨⟨_, rfl⟩, ⟨_, _, h, by decide⟩, ⟨_, _, h, by decide⟩, ?_, ?_⟩ <;>
  · rintro ⟨w, ea, h', h''⟩
    rw [h] at h'
    cases h'
    revert h''
    decide

/-- The last word of the data memory and the first address behind it, in both byte orders. -/
theorem witness_MemWriteFollowsTheFormula :
    (withWord .little 0#32 0#32 1023 0x8192A3F4#32).mem.wf ∧
    (withWord .big 0#32 0#32 1023 0x8192A3F4#32).mem.wf ∧
    (0x0FFF#32).toNat / 4 < (withWord .big 0#32 0#32 1023 0x8192A3F4#32).params.memWords ∧
    ¬ (0x1000#32).toNat / 4 < (withWord .big 0#32 0#32 1023 0x8192A3F4#32).params.memWords := by decide

theorem witness_MisalignedAndOutOfBoundsAccesses :
    4 * State.reset.params.memWords ≤ (0x1000#32).toNat - (0x1000#32).toNat % Width.byte.bytes ∧
    4 * State.reset.params.memWords ≤ (0x1001#32).toNat - (0x1001#32).toNat % Width.half.bytes ∧
    4 * State.reset.params.memWords ≤ (0x1003#32).toNat - (0x1003#32).toNat % Width.word.bytes := by
  decide

theorem witness_LoadAfterStoreReadsTheStoredValue :
    (withWord .big 0#32 0#32 1 0x8192A3F4#32).mem.wf ∧
    inBounds State.reset.params.memWords .byte 0x0FFF#32 = true ∧
    inBounds State.reset.params.memWords .half 0x0FFF#32 = true ∧
    inBounds State.reset.params.memWords .word 0x0FFF#32 = true := by decide

theorem witness_ByteOrderOfAStoredWord :
    (withWord .little 0#32 0#32 1 0x8192A3F4#32).params.byteOrder = .little ∧
    (withWord .big 0#32 0#32 1 0x8192A3F4#32).params.byteOrder = .big ∧
    (withWord .little 0#32 0#32 1 0x8192A3F4#32).mem.wf ∧
    (withWord .big 0#32 0#32 1 0x8192A3F4#32).mem.wf ∧
    (0x0FFC#32).toNat % 4 = 0 ∧ 3 < 4 ∧
    inBounds State.reset.params.memWords .word 0x0FFC#32 = true := by decide

theorem witness_StoresKeepTheMemoryForm :
    (withWord .little 0#32 0#32 1023 0x8192A3F4#32).mem.wf ∧
    ∀ c ∈ (withWord .little 0#32 0#32 1023 0x8192A3F4#32).mem, c.1 < 4 * 1024 := by decide

/-! Hazards -/

/-- The consumer `add $t2,$t0,$t1`. -/
def consumer : Descriptor := decodeUnit 0x01095020#32 0x00400004#32 1

theorem witness_StallPolicyTable :
    lwT0.desc.dest = some 8#5 ∧ 8#5 ∈ consumer.reads ∧ lwT0.desc.isLoad = true ∧
    addiT0.desc.dest = some 8#5 ∧ addiT0.desc.isLoad = false := by decide

/-- The state of the source's example with a store behind it: entry 2 has a producer at both
distances, entry 1 none, entry 3 none. -/
def threeAdds (forwarding : Bool) : State :=
  loaded forwarding [0x20080005, 0x20090003, 0x01095020, 0xAC000000]

theorem witness_HazardClassification_raw :
    (threeAdds true).cfg.stallsEnabled = true ∧
    ∃ C, (threeAdds true).descAt 2 = some C ∧ ∃ d P r, (d = 1 ∨ d = 2) ∧ d ≤ 2 ∧
      (threeAdds true).descAt (2 - d) = some P ∧ P.dest = some r ∧ r ∈ C.reads :=
  ⟨rfl, _, rfl, 1, _, 9#5, .inl rfl, by decide, rfl, by decide⟩
theorem witness_HazardClassification_waw :
    let s := loaded false [0x20080001, 0x20080002]
    s.cfg.stallsEnabled = true ∧ ∃ C, s.descAt 1 = some C ∧ C.reads = [] ∧
      ∃ d P r, (d = 1 ∨ d = 2) ∧ d ≤ 1 ∧ s.descAt (1 - d) = some P ∧ P.dest = some r ∧
        C.dest = some r :=
  ⟨rfl, _, rfl, by decide, 1, _, 8#5, .inl rfl, by decide, rfl, by decide⟩
theorem witness_HazardClassification_control :
    let s := loaded false [0x20080001, 0x08100000]
    s.cfg.stallsEnabled = true ∧ ∃ C, s.descAt 1 = some C ∧ C.reads = [] ∧ C.dest = none ∧
      C.isJump = true :=
  ⟨rfl, _, rfl, by decide⟩
theorem witness_HazardClassification_none :
    (threeAdds false).cfg.stallsEnabled = true ∧ ∃ C, (threeAdds false).descAt 0 = some C ∧
      C.isBranch = false ∧ C.isJump = false :=
  ⟨rfl, _, rfl, by decide⟩

theorem witness_NearestProducerDecidesTheStall_off :
    { State.reset with cfg := { Configuration.powerOn with stallsEnabled := false } }.cfg.stallsEnabled
      = false := rfl
theorem witness_NearestProducerDecidesTheStall_distance_1 :
    ∃ C P r, (threeAdds true).descAt 2 = some C ∧ (threeAdds true).descAt 1 = some P ∧
      P.dest = some r ∧ r ∈ C.reads :=
  ⟨_, _, 9#5, rfl, rfl, by decide⟩
/-- `addi $t0`, `addi $t2`, `add $t1,$t0,$t0`: the producer is two places before. -/
theorem witness_NearestProducerDecidesTheStall_distance_2 :
    let s := loaded false [0x20080005, 0x200A0003, 0x01084820]
    ∃ C P Q r, s.descAt 2 = some C ∧ s.descAt 1 = some P ∧ P.dest = some 10#5 ∧ 10#5 ∉ C.reads ∧
      s.descAt 0 = some Q ∧ Q.dest = some r ∧ r ∈ C.reads :=
  ⟨_, _, _, 8#5, rfl, rfl, by decide, by decide, rfl, by decide⟩
theorem witness_NearestProducerDecidesTheStall_none :
    (threeAdds false).cfg.stallsEnabled = true ∧
      ∃ C, (threeAdds false).descAt 1 = some C ∧ C.reads = [] :=
  ⟨rfl, _, rfl, by decide⟩

theorem witness_ForwardingMuxPriority_near :
    (8#5 : Reg) ≠ 0#5 ∧ addiT0.desc.dest = some 8#5 ∧ addiT0.desc.isLoad = false := by decide
/-- A load in MEM and one in WB that write the register: the near clause does not apply. -/
theorem witness_ForwardingMuxPriority_far :
    (8#5 : Reg) ≠ 0#5 ∧ lwT0.desc.dest = some 8#5 ∧
      ¬ ∃ L, some lwT0 = some L ∧ L.desc.dest = some 8#5 ∧ L.desc.isLoad = false := by
  refine ⟨by decide, by decide, ?_⟩
  rintro ⟨L, h, -, h'⟩
  cases h
  revert h'
  decide
theorem witness_ForwardingMuxPriority_neither :
    (¬ ∃ L, some addiT1 = some L ∧ L.desc.dest = some 8#5 ∧ L.desc.isLoad = false) ∧
      ∀ L, some addiT1 = some L → L.desc.dest ≠ some 8#5 := by
  refine ⟨?_, ?_⟩
  · rintro ⟨L, h, h', -⟩
    cases h
    revert h'
    decide
  · rintro L h
    cases h
    decide

theorem witness_MispredictionIsAWrongOutcome : beqZero.desc.isBranch = true := by decide

/-! The stages -/

theorem witness_StepAnswersNextAndKeepsTheInputs : State.reset.mode ≠ .running := by decide

/-- Records of `sw $t0,4($zero)`, `j 0x00400008`, `jal 0x00400010`, `jr $ra`, an unsupported word. -/
def swT0 : Latch := { idx := 0, pc := 0x00400000#32, word := 0xAC080004#32, result := 4#32, storeVal := 7#32 }
def jRec : Latch := { idx := 0, pc := 0x00400000#32, word := 0x08100002#32 }
def jalRec : Latch := { idx := 0, pc := 0x00400000#32, word := 0x0C100004#32 }
def jrRec : Latch := { idx := 0, pc := 0x00400000#32, word := 0x03E00008#32 }
def badRec : Latch := { idx := 0, pc := 0x00400000#32, word := 0xFFFFFFFF#32 }
def addRec : Latch := { idx := 0, pc := 0x00400000#32, word := 0x01095020#32 }

/-- The reset state, running, with the three back stages occupied as given. -/
def stages (ex mem wb : Option Latch) : State :=
  { State.reset with mode := .running, slotEX := ex, slotMEM := mem, slotWB := wb }

theorem witness_WritebackStage :
    (stages none none none).slotWB = none ∧ (stages none none (some addiT0)).slotWB = some addiT0 ∧
      addiT0.desc.dest = some 8#5 ∧ beqZero.desc.dest = none := by decide

theorem witness_MemoryStage :
    (stages none none none).slotMEM = none ∧ (stages none (some lwT0) none).slotMEM = some lwT0 ∧
    opField 0x81280001#32 = 0x20#6 ∧ opField 0x85280002#32 = 0x21#6 ∧ opField lwT0.word = 0x23#6 ∧
    opField 0x91280001#32 = 0x24#6 ∧ opField 0x95280002#32 = 0x25#6 ∧ opField 0xA1280001#32 = 0x28#6 ∧
    opField 0xA5280002#32 = 0x29#6 ∧ opField swT0.word = 0x2B#6 ∧
    addiT0.desc.kind ≠ .load ∧ addiT0.desc.kind ≠ .store := by decide

theorem witness_ExecuteStageRecord :
    (stages (some lwT0) none none).slotEX = some lwT0 ∧ lwT0.desc.kind = .load ∧
      swT0.desc.kind = .store ∧ beqZero.desc.kind = .conditionalBranch ∧ jRec.desc.kind = .jump ∧
      opField jalRec.word = 0x03#6 ∧ jrRec.desc.kind = .jumpRegister ∧
      badRec.desc.kind = .unsupported ∧ addRec.desc.kind = .rAlu ∧
      addiT0.desc.kind = .iAluImmediate := by decide

/-- `beq $zero,$zero,2` predicted not taken is a miss; predicted taken with its target it is none;
predicted taken with another target it is one. -/
theorem witness_BranchResolution :
    (stages (some beqZero) none none).slotEX = some beqZero ∧ beqZero.desc.isBranch = true ∧
    deliveredA (stages (some beqZero) none none) none none beqZero =
      deliveredB (stages (some beqZero) none none) none none beqZero ∧
    beqZero.predTaken ≠ true ∧
    { beqZero with predTaken := true, predTarget := 0x0040000C#32 }.predTarget =
      0x00400000#32 + 4#32 + ((beqZero.word.extractLsb' 0 16).signExtend 32 <<< 2) ∧
    { beqZero with predTaken := true }.predTarget ≠
      0x00400000#32 + 4#32 + ((beqZero.word.extractLsb' 0 16).signExtend 32 <<< 2) := by decide

theorem witness_OnlyControlTransfersSteerInEX :
    (stages (some jrRec) none none).slotEX = some jrRec ∧
    jrRec.desc.isJump = true ∧ jrRec.desc.kind = .jumpRegister ∧
    jRec.desc.isJump = true ∧ jRec.desc.kind = .jump ∧
    addiT0.desc.isBranch = false ∧ addiT0.desc.isJump = false := by decide

/-- A branch in ID, predicted taken under `static-taken` and not under `none`; and no branch. -/
theorem witness_DecodeStage :
    { State.reset with slotID := some beqZero }.slotID = some beqZero ∧ beqZero.desc.isBranch = true ∧
    predict .staticTaken State.reset.bpCounter = true ∧
    predict State.reset.cfg.branchPredictionMode State.reset.bpCounter = false ∧
    addiT0.desc.isBranch = false := by decide

/-- Entry 2 enters ID with a stall of 2, entry 1 with none. -/
theorem witness_EnteringIDArmsTheStall :
    { threeAdds false with slotIF := some { idx := 2, pc := 0x00400008#32, word := 0x01095020#32 } }.slotIF
      = some { idx := 2, pc := 0x00400008#32, word := 0x01095020#32 } ∧
    ((threeAdds false).hazard 2).stall = 2 ∧ ((threeAdds false).hazard 1).stall = 0 := by decide

/-- Right after submission entry 0 can be fetched: no slot is occupied. -/
theorem witness_FetchFollowsTheCursor_fetches :
    (threeAdds false).prog[0]? = some 0x20080005#32 ∧
    (threeAdds false).cursor.toNat = (threeAdds false).params.programBase.toNat + 4 * 0 ∧
    ∀ S L, S ≠ .IF → (threeAdds false).slot S = some L → L.idx ≠ 0 := by
  refine ⟨by decide, by decide, ?_⟩
  rintro (_ | _ | _ | _ | _) L - h <;> cases h
/-- With entry 0 still in WB (a loop back to it), or with no program, nothing is fetched. -/
theorem witness_FetchFollowsTheCursor_waits :
    (∀ k < { threeAdds false with slotWB := some addiT0 }.prog.length,
      { threeAdds false with slotWB := some addiT0 }.cursor.toNat = 0x00400000 + 4 * k →
      ∃ S L, S ≠ .IF ∧ { threeAdds false with slotWB := some addiT0 }.slot S = some L ∧ L.idx = k) ∧
    State.reset.prog.length = 0 := by
  refine ⟨fun k _ hk => ⟨.WB, addiT0, by decide, rfl, ?_⟩, by decide⟩
  have hc : { threeAdds false with slotWB := some addiT0 }.cursor.toNat = 0x00400000 := by decide
  have h0 : addiT0.idx = 0 := by decide
  omega

/-- Four ticks after submission of the source's example the consumer is in ID with a stall of 2. -/
theorem witness_DataStallTick_holds :
    (ticks 4 (threeAdds false)).mode = .running ∧ 0 < (ticks 4 (threeAdds false)).dataStall ∧
      (∃ t, step (ticks 4 (threeAdds false)) = .next t) ∧
      (backEnd (ticks 4 (threeAdds false)).slotMEM (ticks 4 (threeAdds false)).slotWB
        { ticks 4 (threeAdds false) with dataStall := 1 }).2 = false :=
  ⟨by decide, by decide, ⟨_, rfl⟩, by decide⟩
/-- The same with a jump in EX. -/
theorem witness_DataStallTick_redirect :
    let s := { stages (some jRec) none none with dataStall := 1, slotID := some addRec }
    s.mode = .running ∧ 0 < s.dataStall ∧ (∃ t, step s = .next t) ∧
      (backEnd s.slotMEM s.slotWB { s with dataStall := s.dataStall - 1 }).2 = true :=
  ⟨rfl, by decide, ⟨_, rfl⟩, by decide⟩

theorem witness_RedirectWinsOverFetch :
    let s := stages (some jRec) none none
    s.mode = .running ∧ s.dataStall = 0 ∧ s.mispStall = 0 ∧ (∃ t, step s = .next t) ∧
      (doID (backEnd s.slotMEM s.slotWB s)).2 = true := by
  refine ⟨rfl, rfl, rfl, ⟨_, rfl⟩, by decide⟩

/-- In the second tick of the source's example IF is occupied and entry 1 is fetched; at the end of a
program IF stays empty. -/
theorem witness_FullTickMovesEveryStage_fetches :
    let s := tick (threeAdds false)
    s.mode = .running ∧ s.dataStall = 0 ∧ s.mispStall = 0 ∧ (∃ t, step s = .next t) ∧
      (doID (backEnd s.slotMEM s.slotWB s)).2 = false ∧ s.slotIF.isSome = true ∧
      s.prog[1]? = some 0x20090003#32 ∧ s.cursor.toNat = s.params.programBase.toNat + 4 * 1 ∧
      ∀ S ∈ [Stage.ID, .EX, .MEM, .WB], holds ((tick s).slot S) 1 = false := by
  refine ⟨rfl, rfl, rfl, ⟨_, rfl⟩, ?_⟩
  decide
theorem witness_FullTickMovesEveryStage_waits :
    let s := { stages (some addiT0) none none with cursor := 0x00400004#32, prog := [0x20080005#32] }
    s.mode = .running ∧ s.dataStall = 0 ∧ s.mispStall = 0 ∧ (∃ t, step s = .next t) ∧
      (doID (backEnd s.slotMEM s.slotWB s)).2 = false ∧ s.slotIF = none ∧
      ∀ k < s.prog.length, s.cursor.toNat ≠ s.params.programBase.toNat + 4 * k := by
  refine ⟨rfl, rfl, rfl, ⟨_, rfl⟩, ?_⟩
  decide

theorem witness_FinishRule :
    (loaded false []).mode = .running ∧ (tick (loaded false [])).mode = .finished ∧
      (threeAdds false).mode = .running ∧ (tick (threeAdds false)).mode = .running := by decide

/-- A writer of `$t0` in WB, a store to bytes 4 to 7 in MEM: register 9 and bytes 3 and 8 are outside. -/
theorem witness_StepChangesOnlyCommittedState :
    let s := stages none (some swT0) (some addiT0)
    (∃ t, step s = .next t) ∧ addiT0.desc.dest ≠ some 9#5 ∧
      (ruleOf swT0.instr).mem = .store .word ∧
      inBounds s.params.memWords .word swT0.result = true ∧
      3 < (alignedAddr .word swT0.result).toNat ∧
      (alignedAddr .word swT0.result).toNat + Width.word.bytes ≤ 8 :=
  ⟨⟨_, rfl⟩, by decide⟩

theorem witness_HostCommands :
    (threeAdds false).mode = .running ∧ State.reset.mode = .paused ∧
      (tick (loaded false [])).mode = .finished ∧
      ({ forwardingEnabled := some true, missThreshold := some ⟨3, by decide⟩ } :
        ConfigurationUpdate).forwardingEnabled = some true ∧
      ({ forwardingEnabled := some true } : ConfigurationUpdate).stallsEnabled = none := by decide

/-! Invariants -/

theorem witness_InvariantsHoldInitially :
    State.reset.cfg.stallsEnabled = true ∧
      (State.reset.submitProgram [0x20080005, 0x20090003]).programFits := by decide

/-- The state of `withFetchWord` from reset: one instruction, in EX, running. -/
def inEX (w : Word) : State :=
  { State.reset with
    prog := [w]
    mode := .running
    cursor := 0x00400004#32
    slotEX := some { idx := 0, pc := 0x00400000#32, word := w } }

theorem test_placed_addi : State.reset.withFetchWord 32 0x20080005 = inEX 0x20080005#32 := by decide

theorem inEX_slots (w : Word) : ∀ S L, (inEX w).slot S = some L →
    S = .EX ∧ L = { idx := 0, pc := 0x00400000#32, word := w } := by
  rintro (_ | _ | _ | _ | _) L h <;> cases h
  exact ⟨rfl, rfl⟩

/-- The invariant holds with an instruction in EX. -/
theorem inEX_inv (w : Word) : (inEX w).Inv where
  mem_wf := ⟨List.Pairwise.nil, fun c h => by cases h⟩
  mem_bound := fun c h => by cases h
  records := by
    intro S L h
    obtain ⟨-, rfl⟩ := inEX_slots w S L h
    exact ⟨rfl, by simp [State.indexOf, State.programLength, inEX, State.reset, State.initial,
      Params.default], Nat.zero_le 2⟩
  distinct := by
    intro S S' L L' hS h h'
    exact absurd ((inEX_slots w S L h).1.trans (inEX_slots w S' L' h').1.symm) hS
  dataStall_le := Nat.zero_le 2
  mispStall_le := Nat.zero_le _
  dataStall_active := fun h => absurd h (Nat.lt_irrefl 0)
  mispStall_active := fun h => absurd h (Nat.lt_irrefl 0)
  finished := fun h => by cases h

/-- A running state with no instruction in any slot and a pending misprediction stall. -/
def draining : State := { State.reset with mode := .running, mispStall := 1 }

theorem draining_inv : draining.Inv where
  mem_wf := ⟨List.Pairwise.nil, fun c h => by cases h⟩
  mem_bound := fun c h => by cases h
  records := by rintro (_ | _ | _ | _ | _) L h <;> cases h
  distinct := by rintro (_ | _ | _ | _ | _) S' L L' - h <;> cases h
  dataStall_le := Nat.zero_le 2
  mispStall_le := by decide
  dataStall_active := fun h => absurd h (Nat.lt_irrefl 0)
  mispStall_active := fun _ => ⟨rfl, rfl, rfl, rfl⟩
  finished := fun h => by cases h

theorem witness_MispredictionStallTick :
    draining.Inv ∧ draining.mode = .running ∧ 0 < draining.mispStall ∧
      ∃ t, step draining = .next t :=
  ⟨draining_inv, rfl, by decide, _, rfl⟩

theorem witness_StepKeepsInvariant :
    (inEX 0x20080005#32).Inv ∧ (inEX 0x20080005#32).mode = .running ∧
      ∃ t, step (inEX 0x20080005#32) = .next t :=
  ⟨inEX_inv _, rfl, _, rfl⟩

theorem witness_CommandsKeepInvariant : (inEX 0x0C100004#32).Inv := inEX_inv _

/-- With one instruction, in EX. -/
theorem witness_SnapshotShowsTheSlots :
    (inEX 0x0C100004#32).Inv ∧ 0 < (inEX 0x0C100004#32).prog.length ∧
      (inEX 0x0C100004#32).stageOf 0 = some .EX ∧ 1023 < (inEX 0x0C100004#32).params.memWords :=
  ⟨inEX_inv _, by decide, by decide, by decide⟩

/-! The instructions' meanings in the pipeline -/

/-- `add $t2,$t0,$t1` in EX, with the writer of `$t0` in MEM and forwarding on: the delivered operands
are the values after MEM and WB. -/
theorem witness_StepRunsTheInstructionInEX_forwarded :
    let s := { stages (some addRec) (some addiT0) none with
      cfg := { Configuration.powerOn with forwardingEnabled := true } }
    s.mode = .running ∧ s.slotEX = some addRec ∧ decodeWord addRec.word = .add 10 8 9 ∧
      deliveredA s s.slotMEM s.slotWB addRec = s.arch.readReg (rsField addRec.word) ∧
      deliveredB s s.slotMEM s.slotWB addRec = s.arch.readReg (rtField addRec.word) := by decide
/-- A jump, and a branch that is mispredicted. -/
theorem witness_StepRunsTheInstructionInEX_control :
    jRec.desc.isJump = true ∧ sourceFields (decodeWord jRec.word) = [] ∧
    beqZero.desc.isBranch = true ∧
    deliveredA (stages (some beqZero) none none) none none beqZero =
      (stages (some beqZero) none none).arch.readReg (rsField beqZero.word) ∧
    deliveredB (stages (some beqZero) none none) none none beqZero =
      (stages (some beqZero) none none).arch.readReg (rtField beqZero.word) ∧
    (tick (stages (some beqZero) none none)).missCount ≠ (stages (some beqZero) none none).missCount := by
  decide

theorem witness_StepWithEmptyEXExecutesNothing :
    (stages none (some swT0) (some addiT0)).slotEX = none ∧
      ∃ t, step (stages none (some swT0) (some addiT0)) = .next t :=
  ⟨rfl, _, rfl⟩

/-- Forwarding on behind a writer that is no load; behind a load of another register; forwarding off
behind writers of another register. -/
theorem witness_DeliveredOperandIsTheSequentialValue :
    { State.reset with cfg := { Configuration.powerOn with forwardingEnabled := true } }.cfg.forwardingEnabled
      = true ∧ addiT0.desc.isLoad = false ∧ lwT0.desc.isLoad = true ∧ lwT0.desc.dest ≠ some 9#5 ∧
    State.reset.cfg.forwardingEnabled = false ∧ addiT0.desc.dest ≠ some 9#5 := by decide

/-- `add $t2,$t0,$t1` behind a load: WB writes the `rs` register or the `rt` register, never both. -/
theorem witness_StaleOperandsAreDeterministic :
    let s := { stages (some addRec) (some lwT0) (some addiT0) with
      cfg := { Configuration.powerOn with forwardingEnabled := true } }
    s.slotEX = some addRec ∧ addRec.opA = s.readReg (rsField addRec.word) ∧
      addRec.opB = s.readReg (rtField addRec.word) ∧
      s.cfg.forwardingEnabled = true ∧ s.slotMEM = some lwT0 ∧ lwT0.desc.isLoad = true ∧
      s.slotWB = some addiT0 ∧ addiT0.desc.dest = some (rsField addRec.word) ∧
      addiT0.desc.dest ≠ some (rtField addRec.word) ∧ addiT1.desc.dest = some (rtField addRec.word) ∧
      addiT1.desc.dest ≠ some (rsField addRec.word) ∧
      (stages (some addRec) none none).cfg.forwardingEnabled = false := by decide

/-- The sequential invariant right after a submission, with nothing in EX. -/
theorem submitted_seqInv : (loaded false [0x20080005#32]).SeqInv where
  stalls := rfl
  fits := by decide
  inv := {
    mem_wf := ⟨List.Pairwise.nil, fun c h => by cases h⟩
    mem_bound := fun c h => by cases h
    records := by rintro (_ | _ | _ | _ | _) L h <;> cases h
    distinct := by rintro (_ | _ | _ | _ | _) S' L L' - h <;> cases h
    dataStall_le := Nat.zero_le 2
    mispStall_le := Nat.zero_le _
    dataStall_active := fun h => absurd h (Nat.lt_irrefl 0)
    mispStall_active := fun h => absurd h (Nat.lt_irrefl 0)
    finished := fun h => by cases h }
  operands := fun L h => by cases h
  prediction := fun L h => by cases h
  afterEX := fun L h => by cases h
  afterID := fun L h => by cases h
  afterIF := fun L h => by cases h
  hazardsEX := fun L h => by cases h
  hazardsID := fun L h => by cases h

/-- The sequential invariant with `addi $t0,$zero,5` in EX. -/
theorem inEX_seqInv : (inEX 0x20080005#32).SeqInv where
  stalls := rfl
  fits := by decide
  inv := inEX_inv _
  operands := fun L h => by cases h; decide
  prediction := fun L h hb => by cases h; revert hb; decide
  afterEX := fun L h => by cases h; decide
  afterID := fun L h => by cases h
  afterIF := fun L h => by cases h
  hazardsEX := fun L h => ⟨fun P hP => (by cases hP), fun P hP => (by cases hP)⟩
  hazardsID := fun L h => by cases h

theorem witness_StepRefinesTheSequentialMachine :
    (loaded false [0x20080005#32]).SeqInv ∧ (loaded false [0x20080005#32]).mode = .running ∧
      (loaded false [0x20080005#32]).slotEX = none ∧
      (inEX 0x20080005#32).SeqInv ∧ (inEX 0x20080005#32).mode = .running ∧
      (inEX 0x20080005#32).slotEX ≠ none ∧ ∃ t, step (inEX 0x20080005#32) = .next t :=
  ⟨submitted_seqInv, rfl, rfl, inEX_seqInv, rfl, by decide, _, rfl⟩

theorem witness_FinishedRunEqualsSequentialRun :
    State.reset.cfg.stallsEnabled = true ∧ (State.reset.submitProgram [0x20080005]).programFits ∧
      (ticks 6 (State.reset.submitProgram [0x20080005])).mode = .finished := by decide

/-- The sequential machine stops past the end after the one instruction. -/
theorem witness_FinishedRunEqualsSequentialRun_sequential :
    ∃ u, seqRun 1 (State.reset.submitProgram [0x20080005]) = some u ∧ seqStep u = none ∧
      u.pastEnd u.cursor = true :=
  ⟨_, rfl, rfl, by decide⟩

theorem witness_ThroughputBaseline :
    (State.reset.submitProgram [0x20080005]).programFits ∧
      (∀ k < 1, ((State.reset.submitProgram [0x20080005]).hazard k).stall = 0) ∧
      (∀ w ∈ [0x20080005#32], (kindOf (decodeWord w)).isControl = false) ∧
      (State.reset.submitProgram []).programFits :=
  ⟨by decide, by decide, fun w hw => by rw [List.mem_singleton.mp hw]; decide, by decide⟩

end Sys2Proof.Tests
end

section
/-! PROOFS. A step runs the instruction in EX (O53): what completing the record that leaves EX does to
registers and memory, and what a redirect does to the cursor (spec rules R286 to R290). -/

namespace Sys2Proof.Machine

/-! ### Registers and memory: completing MEM and WB -/

/-- Completing a record put in MEM (R288, R286): its access, then its write. -/
theorem complete_record (s : State) (L : Latch) :
    (doWB (doMEM { s with slotMEM := some L })).regs =
        (s.writeDest L.desc.dest (s.memValue (ruleOf L.instr).mem L.result)).regs ∧
      (doWB (doMEM { s with slotMEM := some L })).mem =
        (s.memAccess (ruleOf L.instr).mem L.result L.storeVal).mem := by
  have hval := memValue_congr (s := s) (t := { s with slotMEM := some L }) rfl rfl
    (ruleOf L.instr).mem L.result
  have hmem := memAccess_mem_congr (s := s) (t := { s with slotMEM := some L }) rfl rfl
    (ruleOf L.instr).mem L.result L.storeVal
  rw [doMEM_occupied rfl, doWB_occupied rfl, hval]
  exact ⟨writeDest_regs_congr (s := s) (by simp) L.desc.dest _, (writeDest_mem ..).trans hmem⟩

/-- The data of a store is what its EX computes, so the store data held before EX is not used. -/
theorem memAccess_exOut_storeVal (s : State) (i : Instr) (pc a b x v v' : Word) :
    s.memAccess (ruleOf i).mem x (((ruleOf i).ex pc a b).storeVal.getD v) =
      s.memAccess (ruleOf i).mem x (((ruleOf i).ex pc a b).storeVal.getD v') := by
  cases hm : (ruleOf i).mem with
  | pass => rfl
  | load => rfl
  | store w =>
    obtain ⟨d, hd⟩ := storeVal_of_store i w hm pc a b
    rw [hd]; rfl

/-- The registers and memory of a rule run at once. -/
theorem runRule_regs_mem (rule : StageRule) (a b : Word) (s : State) :
    let out := rule.ex s.cursor a b
    (runRule rule a b s).regs = (s.writeDest rule.dest (s.memValue rule.mem out.result)).regs ∧
      (runRule rule a b s).mem =
        (s.memAccess rule.mem out.result (out.storeVal.getD 0#32)).mem :=
  ⟨writeDest_regs_congr (memAccess_regs ..) _ _, writeDest_mem ..⟩

/-- Completing the record that leaves EX, in a state with the instruction's own address in the cursor
and its older instructions completed, is its rule run at once. -/
theorem complete_executed (s : State) (L : Latch) (a b : Word) (hpc : s.cursor = L.pc) :
    let X := executed L ((ruleOf L.instr).ex L.pc a b)
    (doWB (doMEM { s with slotMEM := some X })).regs = (runRule (ruleOf L.instr) a b s).regs ∧
      (doWB (doMEM { s with slotMEM := some X })).mem = (runRule (ruleOf L.instr) a b s).mem := by
  intro X
  obtain ⟨hr, hm⟩ := complete_record s X
  obtain ⟨hr', hm'⟩ := runRule_regs_mem (ruleOf L.instr) a b s
  rw [hpc] at hr' hm'
  rw [hr, hr', hm, hm', ruleOf_dest, memAccess_exOut_storeVal s L.instr L.pc a b _ 0#32 L.storeVal]
  exact ⟨rfl, rfl⟩

/-- After the back end, the first write-back completes the instructions that stood in MEM and WB, and
the record that left EX waits in MEM. -/
theorem backEnd_doWB_sameData {s : State} {L : Latch} (hL : s.slotEX = some L)
    (P1 P2 : Option Latch) :
    sameData { s.drain with slotMEM := some (executed L (exOut s P1 P2 L)) }
      (doWB (backEnd P1 P2 s).1) := by
  have hb : sameData
      { doMEM (doWB s) with slotMEM := some (executed L (exOut s P1 P2 L)) }
      (backEnd P1 P2 s).1 := by
    rw [backEnd_occupied hL]
    exact ⟨by simp, by simp, by simp, rfl, by simp⟩
  have := doWB_congr hb
  rwa [doWB_withMEM] at this

/-- With an instruction in EX, the sequential machine's counter is that instruction's address. -/
theorem arch_cursor_of_occupied {s : State} {L : Latch} (hL : s.slotEX = some L) :
    s.arch.cursor = L.pc := by
  simp [State.arch, archPc_eq, hL]

/-- After a tick, completing MEM and WB leaves the registers and memory of the rule of the instruction
that was in EX, run at once on the delivered operands. -/
theorem tick_drain_runs_rule {s : State} {L : Latch} (hL : s.slotEX = some L) :
    let u := runRule (ruleOf L.instr) (deliveredA s s.slotMEM s.slotWB L)
      (deliveredB s s.slotMEM s.slotWB L) s.arch
    (conclude (advance s)).drain.regs = u.regs ∧ (conclude (advance s)).drain.mem = u.mem := by
  intro u
  have hpc := arch_cursor_of_occupied hL
  obtain ⟨hr, hm⟩ := complete_executed s.arch L (deliveredA s s.slotMEM s.slotWB L)
    (deliveredB s s.slotMEM s.slotWB L) hpc
  have hback : sameData { s.arch with slotMEM := some (executed L (exOut s s.slotMEM s.slotWB L)) }
      (doWB (backEnd s.slotMEM s.slotWB s).1) := by
    obtain ⟨h1, h2, h3, h4, h5⟩ := backEnd_doWB_sameData hL s.slotMEM s.slotWB
    exact ⟨h1, h2, h3, h4, h5⟩
  have htick : sameData (backEnd s.slotMEM s.slotWB s).1 (conclude (advance s)) :=
    (advance_sameData s).trans (conclude_sameData _)
  have hdrain := (doWB_congr (doMEM_congr hback)).trans (drain_congr htick)
  exact ⟨hdrain.regs.trans hr, hdrain.mem.trans hm⟩

/-! ### The cursor: what a redirect from EX does -/

/-- Whether EX redirects depends on its record and its outputs only. -/
theorem steerEX_redirects_congr (s t : State) (L : Latch) (st : Steer) :
    (steerEX t L st).2 = (steerEX s L st).2 := by
  cases st with
  | fallThrough => rfl
  | jump tgt => rfl
  | branch taken tgt => simp only [steerEX, resolve]; split <;> rfl

/-- A redirect from EX goes to the address executed next (R201, R289, R290). -/
theorem steerEX_cursor_of_redirect {s : State} {L : Latch} {st : Steer}
    (h : (steerEX s L st).2 = true) : (steerEX s L st).1.cursor = st.next L.pc := by
  cases st with
  | fallThrough => cases h
  | jump tgt => rfl
  | branch taken tgt =>
    simp only [steerEX, resolve] at h ⊢
    split at h
    · next hm => rw [if_pos hm]; rfl
    · cases h

/-- Without a redirect EX counts no miss (R290). -/
theorem steerEX_missCount_of_no_redirect {s : State} {L : Latch} {st : Steer}
    (h : (steerEX s L st).2 = false) : (steerEX s L st).1.missCount = s.missCount := by
  cases st with
  | fallThrough => rfl
  | jump tgt => rfl
  | branch taken tgt =>
    simp only [steerEX, resolve] at h ⊢
    split at h
    · cases h
    · next hm => rw [if_neg hm]

/-- A tick in which EX redirects leaves the address executed next in the cursor. -/
theorem advance_cursor_of_redirect {s : State} {L : Latch} (hL : s.slotEX = some L)
    (h : (steerEX s L (exOut s s.slotMEM s.slotWB L).steer).2 = true) :
    (advance s).cursor = (exOut s s.slotMEM s.slotWB L).steer.next L.pc := by
  refine (advance_of_redirect s _ fun u hEX hcfg => ?_).2.2.2
  rw [backEnd_occupied (hEX.trans hL), exOut_congr hcfg]
  have hu := (steerEX_redirects_congr s (doMEM (doWB u)) L _).trans h
  exact ⟨hu, steerEX_cursor_of_redirect hu⟩

/-- A tick in which EX does not redirect counts no miss. -/
theorem advance_missCount_of_no_redirect {s : State} {L : Latch} (hL : s.slotEX = some L)
    (h : (steerEX s L (exOut s s.slotMEM s.slotWB L).steer).2 = false) :
    (advance s).missCount = s.missCount := by
  have hback : ∀ u : State, u.slotEX = s.slotEX → u.cfg = s.cfg → u.missCount = s.missCount →
      (backEnd s.slotMEM s.slotWB u).1.missCount = s.missCount := by
    intro u hEX hcfg hmiss
    rw [backEnd_occupied (hEX.trans hL), exOut_congr hcfg]
    have hu := (steerEX_redirects_congr s (doMEM (doWB u)) L _).trans h
    exact (steerEX_missCount_of_no_redirect hu).trans (by simp [hmiss])
  unfold advance
  split
  · exact hback _ rfl rfl rfl
  · split
    · exact hback _ rfl rfl rfl
    · rw [doIF_missCount, doID_missCount]
      exact hback s rfl rfl rfl

/-- Settles O53: the record that leaves EX, completed, is the instruction's one rule run at once, which
is `exec`; a jump or a counted misprediction redirects to the address `exec` puts in the cursor. -/
theorem stepRunsTheInstructionInEX : Obligations.StepRunsTheInstructionInEX := by
  rintro s L i hrun hL rfl ha hb
  have hpc := arch_cursor_of_occupied hL
  obtain ⟨hregs, hmem⟩ := tick_drain_runs_rule hL
  have hcursor : (steerEX s L (exOut s s.slotMEM s.slotWB L).steer).2 = true →
      (conclude (advance s)).cursor = (runRule (ruleOf L.instr) (deliveredA s s.slotMEM s.slotWB L)
        (deliveredB s s.slotMEM s.slotWB L) s.arch).cursor := by
    intro h
    rw [conclude_cursor, advance_cursor_of_redirect hL h, runRule_cursor, hpc]
    rfl
  refine ⟨_, _, step_running hrun, exec_decodeWord L.word s.arch _ _ ha hb, hpc, hregs, hmem, ?_, ?_⟩
  · intro hj
    obtain ⟨tgt, htgt⟩ := steer_of_isJump L hj L.pc (deliveredA s s.slotMEM s.slotWB L)
      (deliveredB s s.slotMEM s.slotWB L)
    exact hcursor (by rw [exOut, htgt]; rfl)
  · intro _ hmiss
    refine hcursor ?_
    by_contra h
    exact hmiss ((conclude_missCount _).trans
      (advance_missCount_of_no_redirect hL (Bool.eq_false_iff.mpr h)))

end Sys2Proof.Machine
end

section
/-! PROOFS. The register file and the data memory keep their form (O7, O24): spec rules R20, R21, R41,
R65, R67. -/

namespace Sys2Proof.Machine

/-- A register write leaves the pipeline's own state and the inputs alone. -/
theorem writeReg_sameControl (s : State) (r : Reg) (v : Word) : sameControl s (s.writeReg r v) := by
  constructor <;> simp

/-- Settles O7, from the laws of the register file. -/
theorem registerFileReadsAndWrites : Obligations.RegisterFileReadsAndWrites := fun s r v =>
  ⟨readReg_zero s, writeReg_zero s v, fun hr => readReg_writeReg_self s hr v,
    fun _ hq => readReg_writeReg_of_ne s hq v, writeReg_mem s r v, writeReg_cursor s r v,
    writeReg_sameControl s r v⟩

/-- A byte stored inside a bound keeps the memory inside it. -/
theorem putLane_bound {m : Memory} {B : Nat} (h : ∀ c ∈ m, c.1 < B) (order : ByteOrder)
    {n a j : Nat} (hj : j < n) (ha : a + n ≤ B) (v : Word) :
    ∀ c ∈ m.putLane order n a j v, c.1 < B := by
  intro c hc
  rcases mem_writeByte hc with ⟨rfl, -⟩ | hc
  · have := laneOffset_lt order hj
    simp only
    omega
  · exact h c hc

/-- A value stored inside a bound keeps the memory inside it. -/
theorem writeValue_bound {m : Memory} {B : Nat} (h : ∀ c ∈ m, c.1 < B) (order : ByteOrder)
    (w : Width) {a : Nat} (ha : a + w.bytes ≤ B) (v : Word) :
    ∀ c ∈ m.writeValue order w a v, c.1 < B := by
  cases w with
  | byte => exact putLane_bound h order (by decide) ha v
  | half =>
    exact putLane_bound (putLane_bound h order (by decide) ha v) order (by decide) ha v
  | word =>
    have h0 := putLane_bound h order (j := 0) (by decide) ha v
    have h1 := putLane_bound h0 order (j := 1) (by decide) ha v
    have h2 := putLane_bound h1 order (j := 2) (by decide) ha v
    exact putLane_bound h2 order (by decide) ha v

/-- The whole aligned unit of an access in bounds lies in the data memory: its word does (R64, R65). -/
theorem alignedAddr_add_bytes_le {n : Nat} {w : Width} {addr : Word} (h : inBounds n w addr = true) :
    (alignedAddr w addr).toNat + w.bytes ≤ 4 * n := by
  rw [inBounds_iff, toNat_alignedAddr] at h
  rw [toNat_alignedAddr]
  cases w <;> simp only [Width.bytes] at h ⊢ <;> omega

/-- A store puts no byte outside the data memory: out of bounds it is dropped. -/
theorem memWrite_bound {s : State} (h : ∀ c ∈ s.mem, c.1 < 4 * s.params.memWords) (w : Width)
    (addr v : Word) : ∀ c ∈ (s.memWrite w addr v).mem, c.1 < 4 * s.params.memWords := by
  unfold State.memWrite
  split
  · next hin => exact writeValue_bound h _ w (alignedAddr_add_bytes_le hin) v
  · exact h

theorem memAccess_bound {s : State} (h : ∀ c ∈ s.mem, c.1 < 4 * s.params.memWords) (work : MemWork)
    (x v : Word) : ∀ c ∈ (s.memAccess work x v).mem, c.1 < 4 * s.params.memWords := by
  cases work with
  | pass => exact h
  | load => exact h
  | store w => exact memWrite_bound h w x v

/-- Settles O24: a store in bounds writes bytes of its aligned unit only, by `writeByte`. -/
theorem storesKeepTheMemoryForm : Obligations.StoresKeepTheMemoryForm := fun s w addr v hwf =>
  ⟨memWrite_wf s hwf w addr v, fun h => memWrite_bound h w addr v⟩

end Sys2Proof.Machine
end

section
/-! PROOFS. The frame of an instruction and of a tick (O18, O45): which registers and which bytes of
memory can change (spec rules R29, R43, R286, R288, R334). -/

namespace Sys2Proof.Machine

/-! ### An instruction (R140, R160, R181, R187, R201) -/

/-- The sequential meaning of an instruction is its rule run at once on some operands, with which a
store's address is the one of `storeAccess`. -/
theorem exec_eq_runRule (i : Instr) (s : State) :
    ∃ a b, exec i s = .next (runRule (ruleOf i) a b s) ∧
      ∀ w, (ruleOf i).mem = .store w →
        storeAccess i s = some (w, ((ruleOf i).ex s.cursor a b).result) := by
  cases i <;> refine ⟨_, _, rfl, fun w h => ?_⟩ <;> cases h <;> rfl

/-- A rule run at once leaves the pipeline's own state and the inputs alone. -/
theorem runRule_sameControl (rule : StageRule) (a b : Word) (s : State) :
    sameControl s (runRule rule a b s) := by
  constructor <;> simp [runRule]

/-- A rule run at once changes no register but its destination. -/
theorem runRule_readReg_of_ne {rule : StageRule} (hz : rule.dest ≠ some 0#5) {r : Reg}
    (hr : rule.dest ≠ some r) (a b : Word) (s : State) :
    (runRule rule a b s).readReg r = s.readReg r := by
  rw [readReg_congr (runRule_regs_mem rule a b s).1, readReg_writeDest _ _ hz, if_neg hr]

/-- Settles O18: the instruction's rule writes its destination and makes the one access of
`storeAccess`. -/
theorem instructionFrame : Obligations.InstructionFrame := by
  intro i s t h
  obtain ⟨a, b, he, hstore⟩ := exec_eq_runRule i s
  rw [he] at h
  cases h
  refine ⟨runRule_sameControl _ a b s, fun r hr => ?_, fun c hc => ?_⟩
  · rw [← ruleOf_dest] at hr
    exact runRule_readReg_of_ne (ruleOf_dest i ▸ destination_ne_zero i) hr a b s
  · rw [(runRule_regs_mem (ruleOf i) a b s).2]
    refine memAccess_readByte s _ _ _ c fun w hw hin => ?_
    by_contra hout
    exact hc ⟨w, _, hstore w hw, hin, by omega, by omega⟩

/-! ### A tick (R286, R288) -/

/-- The only register write of a tick is the one of WB (R286). -/
theorem advance_readReg (s : State) (r : Reg) : (advance s).readReg r = (doWB s).readReg r :=
  readReg_congr ((advance_sameData s).regs.trans (by simp [backEnd])) r

/-- The only memory access of a tick is the one of MEM (R288). -/
theorem advance_mem (s : State) : (advance s).mem = (doMEM (doWB s)).mem :=
  (advance_sameData s).mem.trans (by simp [backEnd])

theorem advance_mem_empty {s : State} (h : s.slotMEM = none) : (advance s).mem = s.mem := by
  rw [advance_mem, doMEM_empty (by simp [h]), doWB_mem]

theorem advance_mem_occupied {s : State} {L : Latch} (h : s.slotMEM = some L) :
    (advance s).mem = (s.memAccess (ruleOf L.instr).mem L.result L.storeVal).mem := by
  rw [advance_mem, doMEM_occupied (L := L) (by simp [h])]
  exact memAccess_mem_congr (by simp) (by simp) _ _ _

/-- Write-back changes no register but the destination of its record. -/
theorem doWB_readReg_of_ne {s : State} {r : Reg}
    (h : ∀ L, s.slotWB = some L → L.desc.dest ≠ some r) : (doWB s).readReg r = s.readReg r := by
  rw [doWB_readReg]
  cases hw : s.slotWB with
  | none => rfl
  | some L => exact if_neg (h L hw)

/-- Settles O45: in a tick WB alone writes registers and MEM alone accesses memory. -/
theorem stepChangesOnlyCommittedState : Obligations.StepChangesOnlyCommittedState := by
  intro s t h
  by_cases hrun : s.mode = .running
  · rw [step_running hrun] at h
    cases h
    refine ⟨fun r hr => ?_, fun a ha => ?_⟩
    · rw [readReg_congr (conclude_regs _), advance_readReg, doWB_readReg_of_ne hr]
    · rw [conclude_mem]
      cases hm : s.slotMEM with
      | none => rw [advance_mem_empty hm]
      | some L =>
        rw [advance_mem_occupied hm]
        exact memAccess_readByte s _ _ _ a fun w => ha L w hm
  · rw [step_not_running hrun] at h
    cases h
    exact ⟨fun _ _ => rfl, fun _ _ => rfl⟩

end Sys2Proof.Machine
end

section
/-! PROOFS. The invariant (O49, O50, O51): it holds initially, and every tick and every command keeps it
(spec rules R33, R34, R45, R48, R298, R360). -/

namespace Sys2Proof.Machine

/-! ### Its parts -/

/-- The part of the invariant about the stall counters (R33, R34, R48 c). -/
structure State.StallsOk (s : State) : Prop where
  dataStall_le : s.dataStall ≤ 2
  mispStall_le : s.mispStall ≤ s.params.mispredictPenalty
  dataStall_active : 0 < s.dataStall → s.mispStall = 0 ∧ s.slotID.isSome
  mispStall_active : 0 < s.mispStall →
    s.dataStall = 0 ∧ s.slotIF = none ∧ s.slotID = none ∧ s.slotEX = none

theorem State.Inv.occupancy {s : State} (h : s.Inv) : s.Occupancy := ⟨h.records, h.distinct⟩

theorem State.Inv.stallsOk {s : State} (h : s.Inv) : s.StallsOk :=
  ⟨h.dataStall_le, h.mispStall_le, h.dataStall_active, h.mispStall_active⟩

/-- The invariant looks at neither configuration, registers nor the counts, and at the mode and the
cursor only in a finished run. -/
theorem State.Inv.transfer {s t : State} (h : s.Inv) (hprog : t.prog = s.prog)
    (hparams : t.params = s.params) (hmem : t.mem = s.mem) (hslot : ∀ S, t.slot S = s.slot S)
    (hdata : t.dataStall = s.dataStall) (hmisp : t.mispStall = s.mispStall)
    (hfin : t.mode = .finished → t.empty = true ∧ t.pastEnd t.cursor = true) : t.Inv := by
  have hocc : t.Occupancy :=
    Occupancy_of_subset h.occupancy hprog hparams fun S L hL => (hslot S).symm.trans hL
  have hIF : t.slotIF = s.slotIF := hslot .IF
  have hID : t.slotID = s.slotID := hslot .ID
  have hEX : t.slotEX = s.slotEX := hslot .EX
  exact {
    mem_wf := hmem ▸ h.mem_wf
    mem_bound := by rw [hmem, hparams]; exact h.mem_bound
    records := hocc.records
    distinct := hocc.distinct
    dataStall_le := hdata ▸ h.dataStall_le
    mispStall_le := by rw [hmisp, hparams]; exact h.mispStall_le
    dataStall_active := by rw [hdata, hmisp, hID]; exact h.dataStall_active
    mispStall_active := by rw [hdata, hmisp, hIF, hID, hEX]; exact h.mispStall_active
    finished := hfin }

/-! ### It holds initially -/

@[simp] theorem initial_slot (p : Params) (cfg : Configuration) (prog : List Word) (mode : Mode)
    (S : Stage) : (State.initial p cfg prog mode).slot S = none := by
  cases S <;> rfl

/-- The reset state meets the invariant: nothing is stored, nothing is in flight, nothing stalls. -/
theorem initial_inv (p : Params) (cfg : Configuration) (prog : List Word) {mode : Mode}
    (hmode : mode ≠ .finished) : (State.initial p cfg prog mode).Inv where
  mem_wf := reset_mem_wf p cfg prog mode
  mem_bound := fun _ hc => nomatch hc
  records := fun S L hL => by simp at hL
  distinct := fun S _ L _ _ hL => by simp at hL
  dataStall_le := Nat.zero_le 2
  mispStall_le := Nat.zero_le _
  dataStall_active := fun h => absurd h (Nat.lt_irrefl 0)
  mispStall_active := fun h => absurd h (Nat.lt_irrefl 0)
  finished := fun h => absurd h hmode

/-- With nothing in flight, the sequential invariant says no more than the invariant. -/
theorem initial_seqInv (p : Params) (cfg : Configuration) (prog : List Word) {mode : Mode}
    (hmode : mode ≠ .finished) (hstalls : cfg.stallsEnabled = true)
    (hfits : (State.initial p cfg prog mode).programFits) :
    (State.initial p cfg prog mode).SeqInv where
  stalls := hstalls
  fits := hfits
  inv := initial_inv p cfg prog hmode
  operands := fun _ h => nomatch h
  prediction := fun _ h => nomatch h
  afterEX := fun _ h => nomatch h
  afterID := fun _ h => nomatch h
  afterIF := fun _ h => nomatch h
  hazardsEX := fun _ h => nomatch h
  hazardsID := fun _ h => nomatch h

/-- Settles O49: power-on, `reset` and `submit program` all give the reset state. -/
theorem invariantsHoldInitially : Obligations.InvariantsHoldInitially :=
  ⟨initial_inv _ _ _ (by decide), fun s p =>
    ⟨initial_inv s.params s.cfg [] (by decide), initial_inv s.params s.cfg p (by decide),
      initial_seqInv s.params s.cfg p (by decide)⟩⟩

/-! ### A tick keeps the stall counters in order -/

/-- Counting a stall counter down keeps them in order. -/
theorem countDown_stallsOk {s : State} (h : s.StallsOk) :
    ({ s with dataStall := s.dataStall - 1 } : State).StallsOk ∧
      ({ s with mispStall := s.mispStall - 1 } : State).StallsOk := by
  obtain ⟨hd, hm, hda, hma⟩ := h
  have hda' := fun h : 0 < s.dataStall - 1 => hda (by omega)
  have hma' := fun h : 0 < s.mispStall - 1 => hma (by omega)
  refine ⟨⟨?_, hm, hda', fun h => ?_⟩, ⟨hd, ?_, fun h => ?_, hma'⟩⟩
  · simp only; omega
  · obtain ⟨h0, hslots⟩ := hma h
    exact ⟨by simp only; omega, hslots⟩
  · simp only; omega
  · obtain ⟨h0, hslot⟩ := hda h
    exact ⟨by simp only; omega, hslot⟩

/-- With no stall pending they are in order. -/
theorem stallsOk_of_zero {s : State} (hd : s.dataStall = 0) (hm : s.mispStall = 0) : s.StallsOk where
  dataStall_le := by omega
  mispStall_le := by omega
  dataStall_active := fun h => by omega
  mispStall_active := fun h => by omega

/-- The back end empties EX, and a redirect, the only thing that arms the misprediction stall, clears
the data stall with IF and ID (R290, R296). -/
theorem backEnd_stallsOk {s : State} (h : s.StallsOk) (P1 P2 : Option Latch) :
    (backEnd P1 P2 s).1.StallsOk := by
  obtain ⟨hd, hm, hda, hma⟩ := h
  have hp : (backEnd P1 P2 s).1.params = s.params := by simp [backEnd]
  obtain ⟨hEX, ⟨-, hIF, hID, hdata, hmisp, -⟩ | ⟨-, -, hIF, hID, hdata, hmisp⟩⟩ :=
    backEnd_cases s P1 P2
  · refine ⟨by rwa [hdata], by rwa [hmisp, hp], by rwa [hdata, hmisp, hID], fun h => ?_⟩
    obtain ⟨h0, hIF0, hID0, -⟩ := hma (hmisp ▸ h)
    exact ⟨hdata.trans h0, hIF.trans hIF0, hID.trans hID0, hEX⟩
  · refine ⟨by omega, ?_, fun h => by omega, fun _ => ⟨hdata, hIF, hID, hEX⟩⟩
    rw [hp]
    rcases hmisp with hmisp | hmisp <;> omega

/-- A redirect from EX is not undone in ID (R282, R292). -/
theorem doID_wire_of_redirected {w : State × Bool} (h : w.2 = true) : (doID w).2 = true := by
  cases hs : w.1.slotID with
  | none => rwa [doID_empty hs]
  | some L => rw [doID_occupied hs]; split <;> simp [h]

/-- ID reads an instruction only when no misprediction stall is pending. -/
theorem doID_stallsOk {w : State × Bool} (h : w.1.StallsOk) (hd : w.1.dataStall = 0) :
    (doID w).1.StallsOk := by
  cases hs : w.1.slotID with
  | none => rwa [doID_empty hs]
  | some L =>
    have hm : w.1.mispStall = 0 := by
      by_contra hne
      obtain ⟨-, -, hID, -⟩ := h.mispStall_active (Nat.pos_of_ne_zero hne)
      simp [hs] at hID
    exact stallsOk_of_zero (by simpa using hd) (by simpa using hm)

/-- The instruction that enters ID arms the data stall with a stall count (R231, R293). -/
theorem enterID_stallsOk {s : State} (hd : s.dataStall = 0) (hm : s.mispStall = 0) :
    (enterID s).StallsOk := by
  cases hs : s.slotIF with
  | none => rw [enterID_empty hs]; exact stallsOk_of_zero hd hm
  | some L =>
    have := hazard_stall_le s L.idx
    have hm' : (enterID s).mispStall = 0 := by simpa using hm
    refine ⟨?_, by omega, fun _ => ⟨hm', ?_⟩, fun h => by omega⟩
    · rw [enterID_occupied hs]
      simp only
      split <;> omega
    · rw [enterID_occupied hs]; rfl

/-- Fetching fills no slot but IF, which only a misprediction stall asks to be empty. -/
theorem fetch_stallsOk {s : State} (h : s.StallsOk) (hm : s.mispStall = 0) : (fetch s).StallsOk where
  dataStall_le := by simpa using h.dataStall_le
  mispStall_le := by simpa using h.mispStall_le
  dataStall_active := by simpa using h.dataStall_active
  mispStall_active := fun h' => by simp [hm] at h'

theorem doIF_stallsOk {w : State × Bool} (h : w.1.StallsOk)
    (hfull : w.2 = false → w.1.dataStall = 0 ∧ w.1.mispStall = 0) : (doIF w).StallsOk := by
  unfold doIF
  split
  · exact h
  · next hw =>
    obtain ⟨hd, hm⟩ := hfull (Bool.eq_false_iff.mpr hw)
    exact fetch_stallsOk (enterID_stallsOk hd hm) (by simpa using hm)

/-- The decode and fetch stages of a full tick start with no stall, or with a redirect from EX. -/
theorem fullTick_stallsOk {s : State} (hd : s.dataStall = 0) (hm : s.mispStall = 0) :
    (doIF (doID (backEnd s.slotMEM s.slotWB s))).StallsOk := by
  have hback := backEnd_stallsOk (stallsOk_of_zero hd hm) s.slotMEM s.slotWB
  obtain ⟨-, ⟨hw, -, -, hdata, hmisp, -⟩ | ⟨hw, -, -, -, hdata, -⟩⟩ :=
    backEnd_cases s s.slotMEM s.slotWB
  · refine doIF_stallsOk (doID_stallsOk hback (hdata.trans hd)) fun _ => ?_
    exact ⟨(doID_dataStall _).trans (hdata.trans hd), (doID_mispStall _).trans (hmisp.trans hm)⟩
  · refine doIF_stallsOk (doID_stallsOk hback hdata) fun h => ?_
    rw [doID_wire_of_redirected hw] at h
    cases h

theorem advance_stallsOk {s : State} (h : s.StallsOk) : (advance s).StallsOk := by
  obtain ⟨hdown, hdown'⟩ := countDown_stallsOk h
  rcases Nat.eq_zero_or_pos s.dataStall with hd | hd
  · rcases Nat.eq_zero_or_pos s.mispStall with hm | hm
    · rw [advance_full hd hm]; exact fullTick_stallsOk hd hm
    · rw [advance_mispStall hd hm]; exact backEnd_stallsOk hdown' _ _
  · rw [advance_dataStall hd]; exact backEnd_stallsOk hdown _ _

/-! ### A tick keeps the invariant -/

theorem advance_occupancy {s : State} (h : s.Occupancy) : (advance s).Occupancy := by
  have hsame : ∀ a b, ({ s with dataStall := a, mispStall := b } : State).Occupancy := fun a b =>
    Occupancy_of_subset h rfl rfl fun S L hL => by cases S <;> exact hL
  unfold advance
  split
  · exact backEnd_Occupancy (hsame _ _) _ _
  · split
    · exact backEnd_Occupancy (hsame _ _) _ _
    · exact doIF_Occupancy (doID_Occupancy (backEnd_Occupancy h _ _))

theorem advance_mem_wf {s : State} (h : s.mem.wf) : (advance s).mem.wf := by
  cases hm : s.slotMEM with
  | none => rwa [advance_mem_empty hm]
  | some L => rw [advance_mem_occupied hm]; exact memAccess_wf s h _ _ _

theorem advance_mem_bound {s : State} (h : ∀ c ∈ s.mem, c.1 < 4 * s.params.memWords) :
    ∀ c ∈ (advance s).mem, c.1 < 4 * (advance s).params.memWords := by
  obtain ⟨-, -, hp⟩ := advance_inputs s
  rw [hp]
  cases hm : s.slotMEM with
  | none => rwa [advance_mem_empty hm]
  | some L => rw [advance_mem_occupied hm]; exact memAccess_bound h _ _ _

/-- The stages of a tick keep the invariant of a run that is not finished. -/
theorem advance_inv {s : State} (h : s.Inv) (hmode : s.mode ≠ .finished) : (advance s).Inv :=
  have hocc := advance_occupancy h.occupancy
  have hstalls := advance_stallsOk h.stallsOk
  { mem_wf := advance_mem_wf h.mem_wf
    mem_bound := advance_mem_bound h.mem_bound
    records := hocc.records
    distinct := hocc.distinct
    dataStall_le := hstalls.dataStall_le
    mispStall_le := hstalls.mispStall_le
    dataStall_active := hstalls.dataStall_active
    mispStall_active := hstalls.mispStall_active
    finished := fun hf => absurd ((advance_mode s).symm.trans hf) hmode }

/-- Concluding a tick keeps the invariant: it finishes the run only when it is drained and past the end
(R298). -/
theorem conclude_inv {s : State} (h : s.Inv) (hmode : s.mode ≠ .finished) : (conclude s).Inv := by
  refine h.transfer (by simp) (by simp) (by simp) (fun S => by cases S <;> simp [State.slot])
    (by simp) (by simp) fun hf => ?_
  cases he : s.empty && s.pastEnd s.cursor with
  | false => rw [conclude_continues he] at hf; exact absurd hf hmode
  | true =>
    obtain ⟨hempty, hpast⟩ := Bool.and_eq_true_iff.mp he
    rw [conclude_finishes hempty hpast]
    exact ⟨hempty, hpast⟩

theorem tickBody_inv {s : State} (h : s.Inv) (hmode : s.mode ≠ .finished) : (tickBody s).Inv :=
  conclude_inv (advance_inv h hmode) (by rwa [advance_mode])

theorem tick_inv {s : State} (h : s.Inv) : (tick s).Inv := by
  unfold tick
  split
  · next hm => exact tickBody_inv h (by simp [hm])
  · exact h
  · exact h

/-- Settles O50: the memory form, the occupancy and the stall counters are kept by the stages of a tick,
the finishing condition by its conclusion. -/
theorem stepKeepsInvariant : Obligations.StepKeepsInvariant := by
  rintro s t h ⟨⟩
  exact tick_inv h

/-! ### Every command keeps it -/

/-- The mode can be set to any but `Finished`. -/
theorem withMode_inv {s : State} (h : s.Inv) {m : Mode} (hm : m ≠ .finished) :
    ({ s with mode := m } : State).Inv :=
  h.transfer rfl rfl rfl (fun S => by cases S <;> rfl) rfl rfl fun hf => absurd hf hm

theorem pause_inv {s : State} (h : s.Inv) : s.pause.Inv := by
  unfold State.pause
  split
  · exact withMode_inv h (by decide)
  · exact h
  · exact h

theorem resume_inv {s : State} (h : s.Inv) : s.resume.Inv := by
  unfold State.resume
  split
  · exact withMode_inv h (by decide)
  · exact h
  · exact h

theorem stepForward_inv {s : State} (h : s.Inv) : s.stepForward.Inv := by
  unfold State.stepForward
  split
  · exact h
  · next hm => exact tickBody_inv h (by simp [hm])
  · next hm => exact tickBody_inv h (by simp [hm])

theorem setConfiguration_inv {s : State} (h : s.Inv) (u : ConfigurationUpdate) :
    (s.setConfiguration u).Inv :=
  h.transfer rfl rfl rfl (fun S => by cases S <;> rfl) rfl rfl h.finished

/-- Settles O51, command by command. -/
theorem commandsKeepInvariant : Obligations.CommandsKeepInvariant := by
  intro s c h
  cases c with
  | submitProgram p => exact initial_inv s.params s.cfg p (by decide)
  | pause => exact pause_inv h
  | resume => exact resume_inv h
  | reset => exact initial_inv s.params s.cfg [] (by decide)
  | stepForward => exact stepForward_inv h
  | setConfiguration u => exact setConfiguration_inv h u
  | tick => exact tick_inv h

end Sys2Proof.Machine
end

section
/-! PROOFS. The host commands (O48): no stage of a tick looks at the mode, so `step-forward` in `Paused`
does what a tick in `Running` does (spec rules R45, R281, R298). -/

namespace Sys2Proof.Machine

/-! ### The stages of a tick do not look at the mode -/

/-- The state in another mode. -/
def State.withMode (s : State) (m : Mode) : State := { s with mode := m }

theorem writeDest_withMode (s : State) (m : Mode) (d : Option Reg) (v : Word) :
    (s.withMode m).writeDest d v = (s.writeDest d v).withMode m := by
  cases d with
  | none => rfl
  | some r => simp only [writeDest_some, State.writeReg]; split <;> rfl

theorem memAccess_withMode (s : State) (m : Mode) (work : MemWork) (x v : Word) :
    (s.withMode m).memAccess work x v = (s.memAccess work x v).withMode m := by
  cases work with
  | pass => rfl
  | load => rfl
  | store w => simp only [State.memAccess, State.memWrite, apply_ite (State.withMode · m)]; rfl

theorem doWB_withMode (s : State) (m : Mode) : doWB (s.withMode m) = (doWB s).withMode m := by
  cases h : s.slotWB with
  | none => rw [doWB_empty h, doWB_empty (s := s.withMode m) h]
  | some L =>
    rw [doWB_occupied h, doWB_occupied (s := s.withMode m) h, writeDest_withMode]; rfl

theorem doMEM_withMode (s : State) (m : Mode) : doMEM (s.withMode m) = (doMEM s).withMode m := by
  cases h : s.slotMEM with
  | none => rw [doMEM_empty h, doMEM_empty (s := s.withMode m) h]
  | some L =>
    rw [doMEM_occupied h, doMEM_occupied (s := s.withMode m) h, memAccess_withMode]
    rfl

theorem steerEX_withMode (s : State) (m : Mode) (L : Latch) (st : Steer) :
    steerEX (s.withMode m) L st = ((steerEX s L st).1.withMode m, (steerEX s L st).2) := by
  cases st with
  | fallThrough => rfl
  | jump tgt => rfl
  | branch taken tgt => simp only [steerEX, resolve]; split <;> rfl

theorem doEX_withMode (P1 P2 : Option Latch) (s : State) (m : Mode) :
    doEX P1 P2 (s.withMode m) = ((doEX P1 P2 s).1.withMode m, (doEX P1 P2 s).2) := by
  cases h : s.slotEX with
  | none => rw [doEX_empty h, doEX_empty (s := s.withMode m) h]
  | some L =>
    rw [doEX_occupied h, doEX_occupied (s := s.withMode m) h, exOut_congr (t := s.withMode m) rfl,
      steerEX_withMode]
    rfl

theorem backEnd_withMode (P1 P2 : Option Latch) (s : State) (m : Mode) :
    backEnd P1 P2 (s.withMode m) = ((backEnd P1 P2 s).1.withMode m, (backEnd P1 P2 s).2) := by
  simp only [backEnd, doWB_withMode, doMEM_withMode, doEX_withMode]

theorem doID_withMode (w : State × Bool) (m : Mode) :
    doID (w.1.withMode m, w.2) = ((doID w).1.withMode m, (doID w).2) := by
  cases h : w.1.slotID with
  | none => rw [doID_empty h, doID_empty (w := (w.1.withMode m, w.2)) h]
  | some L =>
    have hdec : decoded (w.1.withMode m) L = decoded w.1 L := rfl
    rw [doID_occupied h, doID_occupied (w := (w.1.withMode m, w.2)) h, hdec]
    split <;> rfl

theorem enterID_withMode (s : State) (m : Mode) : enterID (s.withMode m) = (enterID s).withMode m := by
  cases h : s.slotIF with
  | none => rw [enterID_empty h, enterID_empty (s := s.withMode m) h]
  | some L =>
    rw [enterID_occupied h, enterID_occupied (s := s.withMode m) h,
      hazard_congr (t := s.withMode m) (s := s) rfl rfl rfl]
    rfl

theorem fetch_withMode (s : State) (m : Mode) : fetch (s.withMode m) = (fetch s).withMode m := by
  have hindex : (s.withMode m).indexOf (s.withMode m).cursor = s.indexOf s.cursor := rfl
  have hprog : (s.withMode m).prog = s.prog := rfl
  have hflight : (s.withMode m).inFlight = s.inFlight := rfl
  unfold fetch
  rw [hindex]
  cases s.indexOf s.cursor with
  | none => rfl
  | some k =>
    simp only [hprog, hflight]
    cases s.prog[k]? with
    | none => rfl
    | some w => simp only []; split <;> rfl

theorem doIF_withMode (w : State × Bool) (m : Mode) :
    doIF (w.1.withMode m, w.2) = (doIF w).withMode m := by
  simp only [doIF]
  split
  · rfl
  · rw [enterID_withMode, fetch_withMode]

theorem advance_withMode (s : State) (m : Mode) : advance (s.withMode m) = (advance s).withMode m := by
  rcases Nat.eq_zero_or_pos s.dataStall with hd | hd
  · rcases Nat.eq_zero_or_pos s.mispStall with hm | hm
    · rw [advance_full hd hm, advance_full (s := s.withMode m) hd hm]
      show doIF (doID (backEnd s.slotMEM s.slotWB (s.withMode m))) = _
      rw [backEnd_withMode, doID_withMode, doIF_withMode]
    · rw [advance_mispStall hd hm, advance_mispStall (s := s.withMode m) hd hm]
      exact congrArg Prod.fst
        (backEnd_withMode s.slotMEM s.slotWB { s with mispStall := s.mispStall - 1 } m)
  · rw [advance_dataStall hd, advance_dataStall (s := s.withMode m) hd]
    exact congrArg Prod.fst
      (backEnd_withMode s.slotMEM s.slotWB { s with dataStall := s.dataStall - 1 } m)

/-! ### Concluding a tick -/

/-- A tick ends in `Finished`, the same whatever the mode was, or it leaves the mode alone. -/
theorem tickBody_withMode (s : State) (m : Mode) :
    (tickBody s).mode = .finished ∧ tickBody (s.withMode m) = tickBody s ∨
      (tickBody s).mode = s.mode ∧ tickBody (s.withMode m) = (tickBody s).withMode m := by
  unfold tickBody
  rw [advance_withMode, ← advance_mode s]
  generalize advance s = u
  cases he : u.empty && u.pastEnd u.cursor with
  | false =>
    rw [conclude_continues he, conclude_continues (s := u.withMode m) he]
    exact .inr ⟨rfl, rfl⟩
  | true =>
    obtain ⟨hempty, hpast⟩ := Bool.and_eq_true_iff.mp he
    rw [conclude_finishes hempty hpast, conclude_finishes (s := u.withMode m) hempty hpast]
    exact .inl ⟨rfl, rfl⟩

/-! ### The commands (R45) -/

theorem pause_running {s : State} (h : s.mode = .running) : s.pause = { s with mode := .paused } := by
  simp [State.pause, h]

theorem pause_of_ne {s : State} (h : s.mode ≠ .running) : s.pause = s := by
  unfold State.pause
  split
  · next hm => exact absurd hm h
  · rfl
  · rfl

theorem resume_paused {s : State} (h : s.mode = .paused) : s.resume = { s with mode := .running } := by
  simp [State.resume, h]

theorem resume_of_ne {s : State} (h : s.mode ≠ .paused) : s.resume = s := by
  unfold State.resume
  split
  · next hm => exact absurd hm h
  · rfl
  · rfl

theorem stepForward_finished {s : State} (h : s.mode = .finished) : s.stepForward = s := by
  simp [State.stepForward, h]

theorem stepForward_of_ne {s : State} (h : s.mode ≠ .finished) : s.stepForward = tickBody s := by
  unfold State.stepForward
  split
  · next hm => exact absurd hm h
  · rfl
  · rfl

/-- `step-forward` before the end is the tick of a running block, and keeps the mode unless it
finishes. -/
theorem stepForward_is_a_running_tick {s : State} (h : s.mode ≠ .finished) :
    step { s with mode := .running } = .next
        (if s.stepForward.mode = .finished then s.stepForward
         else { s.stepForward with mode := .running }) ∧
      (s.stepForward.mode = .finished ∨ s.stepForward.mode = s.mode) := by
  rw [stepForward_of_ne h]
  have hstep : step { s with mode := .running } = .next (tickBody (s.withMode .running)) := rfl
  rw [hstep]
  obtain ⟨hfin, heq⟩ | ⟨hmode, heq⟩ := tickBody_withMode s .running
  · rw [if_pos hfin, heq]
    exact ⟨rfl, .inl hfin⟩
  · rw [if_neg (hmode ▸ h), heq]
    exact ⟨rfl, .inr hmode⟩

/-- A field of the configuration takes the value the command names, and keeps its own when it names
none. -/
theorem getD_named {α : Type} (u : Option α) (c : α) :
    (∀ b, u = some b → u.getD c = b) ∧ (u = none → u.getD c = c) := by
  cases u <;> simp

/-- Settles O48: the equations of the four commands, `step-forward` by the running tick. -/
theorem hostCommands : Obligations.HostCommands := fun _ u =>
  ⟨pause_running, pause_of_ne, resume_paused, resume_of_ne, stepForward_finished,
    stepForward_is_a_running_tick, _, rfl,
    (getD_named u.forwardingEnabled _).1, (getD_named u.forwardingEnabled _).2,
    (getD_named u.stallsEnabled _).1, (getD_named u.stallsEnabled _).2,
    (getD_named u.branchPredictionMode _).1, (getD_named u.branchPredictionMode _).2,
    (getD_named u.stateMachineInitialPrediction _).1,
    (getD_named u.stateMachineInitialPrediction _).2,
    (getD_named u.missThreshold _).1, (getD_named u.missThreshold _).2⟩

end Sys2Proof.Machine
end

section
/-! PROOFS. The snapshot (O52): the stage it shows for an entry is the one whose slot holds it (spec
rules R46, R47). -/

namespace Sys2Proof.Machine

theorem holds_iff (o : Option Latch) (k : Nat) : holds o k = true ↔ ∃ L, o = some L ∧ L.idx = k := by
  cases o <;> simp [holds]

/-- The stage an entry is shown in has a slot that holds it. -/
theorem holds_of_stageOf {s : State} {k : Nat} {S : Stage} (h : s.stageOf k = some S) :
    holds (s.slot S) k = true :=
  List.find?_some (p := fun S => holds (s.slot S) k) h

/-- An entry some slot holds is shown in a stage. -/
theorem stageOf_ne_none {s : State} {k : Nat} {S : Stage} (h : holds (s.slot S) k = true) :
    s.stageOf k ≠ none := by
  intro hnone
  have hmem : S ∈ [Stage.IF, .ID, .EX, .MEM, .WB] := by cases S <;> decide
  exact List.find?_eq_none.mp hnone S hmem h

/-- As no two slots hold one entry, it is shown in exactly the stage that holds it (R48 b). -/
theorem stageOf_eq_some_iff {s : State} (h : s.Inv) (k : Nat) (S : Stage) :
    s.stageOf k = some S ↔ ∃ L, s.slot S = some L ∧ L.idx = k := by
  rw [← holds_iff]
  refine ⟨holds_of_stageOf, fun hS => ?_⟩
  obtain ⟨S', hS'⟩ := Option.ne_none_iff_exists'.mp (stageOf_ne_none hS)
  obtain ⟨L, hL, hk⟩ := (holds_iff _ k).mp hS
  obtain ⟨L', hL', hk'⟩ := (holds_iff _ k).mp (holds_of_stageOf hS')
  have hsame : S' = S := by
    by_contra hne
    exact h.distinct S' S L' L hne hL' hL (hk'.trans hk.symm)
  rw [hS', hsame]

/-- An item of a list the snapshot makes of the numbers below `n`. -/
theorem getElem?_map_range {α : Type} (f : Nat → α) {n k : Nat} (h : k < n) :
    ((List.range n).map f)[k]? = some (f k) := by
  simp [h]

/-- Settles O52: each list of the snapshot item by item, the stages by the distinctness of the slots. -/
theorem snapshotShowsTheSlots : Obligations.SnapshotShowsTheSlots := by
  intro s h
  refine ⟨fun k S hk => ?_, by simp [State.snapshot, State.programLength],
    fun k hk => getElem?_map_range s.hazard hk, fun r => ?_,
    fun k hk => getElem?_map_range s.memWord hk, rfl, rfl, rfl⟩
  · have hstage : s.snapshot.stages[k]? = some (s.stageOf k) := getElem?_map_range s.stageOf hk
    rw [hstage, Option.some_inj]
    exact stageOf_eq_some_iff h k S
  · have hreg := getElem?_map_range (fun n => s.readReg (BitVec.ofNat 5 n)) r.isLt
    rwa [BitVec.ofNat_toNat, BitVec.setWidth_eq] at hreg

end Sys2Proof.Machine
end

section
/-! PROOFS. Loads and stores on the data memory (O19 to O23): a value inside a word as lanes of the
word, what a value and a word read after a store, then the accesses of a state (spec rules R62 to R67,
R71). -/

namespace Sys2Proof.Machine

/-! ### Where a value lies in its word (R62) -/

/-- The lane of a word that holds the low byte of an `n`-byte value at offset `o` of the word. -/
def firstLane (order : ByteOrder) (n o : Nat) : Nat :=
  if order = .little then o else 4 - n - o

/-- The shift of R66 and R67 in lanes. -/
theorem shift_eq_firstLane (order : ByteOrder) (n o : Nat) :
    (if order = .little then 8 * o else 8 * (4 - n - o)) = 8 * firstLane order n o := by
  cases order <;> rfl

/-- The lanes of a value inside a word are the lanes of the word from `firstLane` on. -/
theorem laneOffset_word_firstLane (order : ByteOrder) {n o i : Nat} (ho : o + n ≤ 4) (hi : i < n) :
    laneOffset order 4 (firstLane order n o + i) = o + laneOffset order n i := by
  cases order with
  | little => rfl
  | big => simp only [laneOffset, firstLane, reduceCtorEq, if_false]; omega

/-- The other lanes of the word lie outside the value. -/
theorem laneOffset_word_outside (order : ByteOrder) {n o j : Nat} (ho : o + n ≤ 4) (hj : j < 4)
    (h : j < firstLane order n o ∨ firstLane order n o + n ≤ j) :
    laneOffset order 4 j < o ∨ o + n ≤ laneOffset order 4 j := by
  cases order <;> simp only [laneOffset, firstLane, reduceCtorEq, if_true, if_false] at h ⊢ <;> omega

/-- Counting the bytes of a value from its other end twice is counting from the first. -/
theorem laneOffset_laneOffset (order : ByteOrder) {n j : Nat} (h : j < n) :
    laneOffset order n (laneOffset order n j) = j := by
  cases order with
  | little => rfl
  | big => simp only [laneOffset]; omega

/-! ### What a value and a word read after a store of a value (R66, R67) -/

/-- A lane of a stored value as a number. -/
theorem toNat_lane_writeValue {m : Memory} (h : m.wf) (order : ByteOrder) (w : Width) (a : Nat)
    (v : Word) {j : Nat} (hj : j < w.bytes) :
    ((m.writeValue order w a v).lane order w.bytes a j).toNat = v.toNat / 2 ^ (8 * j) % 256 := by
  rw [Memory.lane, readByte_writeValue m h order w a v j hj, BitVec.extractLsb'_toNat,
    Nat.shiftRight_eq_div_pow]

/-- A stored value is read back, cut to its width (R71 b). -/
theorem toNat_readValue_writeValue {m : Memory} (h : m.wf) (order : ByteOrder) (w : Width) (a : Nat)
    (v : Word) :
    ((m.writeValue order w a v).readValue order w a).toNat = v.toNat % 2 ^ (8 * w.bytes) := by
  have lane := fun j => toNat_lane_writeValue h order w a v (j := j)
  rw [toNat_readValue]
  cases w <;> simp only [Width.bytes] at lane ⊢
  · rw [lane 0 (by decide)]
    omega
  · rw [lane 0 (by decide), lane 1 (by decide)]
    omega
  · rw [lane 0 (by decide), lane 1 (by decide), lane 2 (by decide), lane 3 (by decide)]
    omega

/-- A bit of a word is a bit of the byte in its lane. -/
theorem getLsbD_readValue_word (m : Memory) (order : ByteOrder) (a : Nat) {b : Nat} (hb : b < 32) :
    (m.readValue order .word a).getLsbD b =
      (m.readByte (a + laneOffset order 4 (b / 8))).getLsbD (b % 8) := by
  have h := getLsbD_readValue m order .word a (b / 8) (b % 8)
    (Nat.div_lt_of_lt_mul hb) (Nat.mod_lt _ (by decide))
  rwa [Nat.div_add_mod] at h

/-- The bits of a word after a store inside it: those of the value from its first lane on, the other
ones unchanged (R67). -/
theorem getLsbD_readValue_word_writeValue {m : Memory} (h : m.wf) (order : ByteOrder) (w : Width)
    {k o : Nat} (ho : o + w.bytes ≤ 4) (v : Word) {b : Nat} (hb : b < 32) :
    ((m.writeValue order w (4 * k + o) v).readValue order .word (4 * k)).getLsbD b =
      if 8 * firstLane order w.bytes o ≤ b ∧ b < 8 * firstLane order w.bytes o + 8 * w.bytes then
        v.getLsbD (b - 8 * firstLane order w.bytes o)
      else (m.readValue order .word (4 * k)).getLsbD b := by
  simp only [getLsbD_readValue_word _ _ _ hb]
  split
  case isTrue hin =>
    have hlow : firstLane order w.bytes o ≤ b / 8 := by omega
    obtain ⟨i, hi⟩ := Nat.exists_eq_add_of_le hlow
    have hlane : i < w.bytes := by omega
    rw [hi, laneOffset_word_firstLane order ho hlane, ← Nat.add_assoc,
      readByte_writeValue m h order w _ v i hlane, BitVec.getLsbD_extractLsb']
    simp only [Nat.mod_lt b (by decide : 8 > 0), decide_true, Bool.true_and]
    congr 1
    omega
  case isFalse hout =>
    have := laneOffset_word_outside order (j := b / 8) ho (by omega) (by omega)
    rw [readByte_writeValue_of_outside]
    omega

/-- A store inside one word leaves every other word alone (R67). -/
theorem readValue_word_writeValue_of_ne (m : Memory) (order : ByteOrder) (w : Width) {k o j : Nat}
    (ho : o + w.bytes ≤ 4) (hj : j ≠ k) (v : Word) :
    (m.writeValue order w (4 * k + o) v).readValue order .word (4 * j) =
      m.readValue order .word (4 * j) := by
  apply BitVec.eq_of_getLsbD_eq
  intro b hb
  have := laneOffset_lt order (n := 4) (j := b / 8) (by omega)
  rw [getLsbD_readValue_word _ _ _ hb, getLsbD_readValue_word _ _ _ hb,
    readByte_writeValue_of_outside]
  omega

/-! ### The accesses of a state (R64, R65) -/

/-- An aligned value starts at a multiple of its size in its word. -/
theorem alignedAddr_mod_bytes (w : Width) (addr : Word) :
    (alignedAddr w addr).toNat % 4 % w.bytes = 0 := by
  rw [toNat_alignedAddr]
  cases w <;> simp only [Width.bytes] <;> omega

/-- An aligned value lies in one word. -/
theorem alignedAddr_mod_add_bytes_le (w : Width) (addr : Word) :
    (alignedAddr w addr).toNat % 4 + w.bytes ≤ 4 := by
  have h := alignedAddr_mod_bytes w addr
  cases w <;> simp only [Width.bytes] at h ⊢ <;> omega

theorem alignedAddr_alignedAddr (w : Width) (addr : Word) :
    alignedAddr w (alignedAddr w addr) = alignedAddr w addr := by
  apply BitVec.eq_of_toNat_eq
  rw [toNat_alignedAddr, toNat_alignedAddr]
  cases w <;> simp only [Width.bytes] <;> omega

theorem inBounds_alignedAddr (n : Nat) (w : Width) (addr : Word) :
    inBounds n w (alignedAddr w addr) = inBounds n w addr := by
  rw [inBounds, alignedAddr_alignedAddr, inBounds]

theorem memRead_of_inBounds {s : State} {w : Width} {addr : Word}
    (h : inBounds s.params.memWords w addr = true) :
    s.memRead w addr = s.mem.readValue s.params.byteOrder w (alignedAddr w addr).toNat :=
  if_pos h

theorem memRead_of_not_inBounds {s : State} {w : Width} {addr : Word}
    (h : ¬ inBounds s.params.memWords w addr = true) : s.memRead w addr = 0#32 :=
  if_neg h

theorem memWrite_mem_of_inBounds {s : State} {w : Width} {addr : Word}
    (h : inBounds s.params.memWords w addr = true) (v : Word) :
    (s.memWrite w addr v).mem =
      s.mem.writeValue s.params.byteOrder w (alignedAddr w addr).toNat v := by
  rw [State.memWrite, if_pos h]

theorem memWrite_of_not_inBounds {s : State} {w : Width} {addr : Word}
    (h : ¬ inBounds s.params.memWords w addr = true) (v : Word) : s.memWrite w addr v = s :=
  if_neg h

/-- A load does not see the address bits that alignment clears (R64). -/
theorem memRead_alignedAddr (s : State) (w : Width) (addr : Word) :
    s.memRead w (alignedAddr w addr) = s.memRead w addr := by
  simp only [State.memRead, inBounds_alignedAddr, alignedAddr_alignedAddr]

/-- A store does not see the address bits that alignment clears (R64). -/
theorem memWrite_alignedAddr (s : State) (w : Width) (addr v : Word) :
    s.memWrite w (alignedAddr w addr) v = s.memWrite w addr v := by
  simp only [State.memWrite, inBounds_alignedAddr, alignedAddr_alignedAddr]

/-- A word after a store in bounds is a word of the memory with the value written. -/
theorem memWord_memWrite {s : State} {w : Width} {addr : Word}
    (h : inBounds s.params.memWords w addr = true) (v : Word) (j : Nat) :
    (s.memWrite w addr v).memWord j =
      (s.mem.writeValue s.params.byteOrder w
        (4 * ((alignedAddr w addr).toNat / 4) + (alignedAddr w addr).toNat % 4) v).readValue
          s.params.byteOrder .word (4 * j) := by
  rw [State.memWord, memWrite_params, memWrite_mem_of_inBounds h, Nat.div_add_mod]

/-- A byte load in bounds reads the byte at its address. -/
theorem toNat_memRead_byte {s : State} {addr : Word}
    (h : inBounds s.params.memWords .byte addr = true) :
    (s.memRead .byte addr).toNat = (s.mem.readByte addr.toNat).toNat := by
  rw [memRead_of_inBounds h, toNat_readValue]
  cases s.params.byteOrder <;> rfl

/-! ### The statements -/

/-- Settles O19: an aligned value is a bit field of its word. -/
theorem memReadFollowsTheFormula : Obligations.MemReadFollowsTheFormula := by
  intro s w addr
  simp only [← toNat_alignedAddr]
  by_cases h : inBounds s.params.memWords w addr = true
  · have field := toNat_readValue_field s.mem s.params.byteOrder w ((alignedAddr w addr).toNat / 4)
      _ (Nat.mod_lt _ (by decide)) (alignedAddr_mod_bytes w addr)
    rw [Nat.div_add_mod] at field
    rw [memRead_of_inBounds h, if_pos ((inBounds_iff ..).mp h), field, State.memWord]
  · rw [memRead_of_not_inBounds h, if_neg fun hk => h ((inBounds_iff ..).mpr hk)]
    rfl

/-- Settles O20: an aligned value is written into lanes of its word only. -/
theorem memWriteFollowsTheFormula : Obligations.MemWriteFollowsTheFormula := by
  intro s w addr v hwf
  simp only [← toNat_alignedAddr, shift_eq_firstLane]
  have ho := alignedAddr_mod_add_bytes_le w addr
  by_cases h : inBounds s.params.memWords w addr = true
  · rw [if_pos ((inBounds_iff ..).mp h)]
    simp only [memWord_memWrite h]
    exact ⟨fun b hb => getLsbD_readValue_word_writeValue hwf _ w ho v hb,
      fun j hj => readValue_word_writeValue_of_ne _ _ w ho hj v⟩
  · rw [if_neg fun hk => h ((inBounds_iff ..).mpr hk)]
    exact memWrite_of_not_inBounds h v

/-- Settles O21: aligning is idempotent, and out of bounds an access does nothing. -/
theorem misalignedAndOutOfBoundsAccesses : Obligations.MisalignedAndOutOfBoundsAccesses := by
  intro s addr v
  refine ⟨(memRead_alignedAddr s .half addr).symm, (memRead_alignedAddr s .word addr).symm,
    (memWrite_alignedAddr s .half addr v).symm, (memWrite_alignedAddr s .word addr v).symm, ?_⟩
  intro w hout
  have h : ¬ inBounds s.params.memWords w addr = true := by
    rw [inBounds_iff, toNat_alignedAddr]
    omega
  exact ⟨memRead_of_not_inBounds h, memWrite_of_not_inBounds h v⟩

/-- Settles O22: the load reads the bytes the store wrote. -/
theorem loadAfterStoreReadsTheStoredValue : Obligations.LoadAfterStoreReadsTheStoredValue := by
  intro s w addr v hwf h
  rw [memRead_of_inBounds (by rwa [memWrite_params]), memWrite_params, memWrite_mem_of_inBounds h,
    toNat_readValue_writeValue hwf]

/-- Settles O23: the byte at offset `o` is lane `o`, counted from the end the byte order names. -/
theorem byteOrderOfAStoredWord : Obligations.ByteOrderOfAStoredWord := by
  intro s addr v o hwf ha ho h
  have hword : (alignedAddr .word addr).toNat = addr.toNat := by
    rw [toNat_alignedAddr]
    simp only [Width.bytes]
    omega
  have hbyte : (addr + BitVec.ofNat 32 o).toNat = addr.toNat + o := by
    have := addr.isLt
    simp only [BitVec.toNat_add, BitVec.toNat_ofNat]
    omega
  have hin : inBounds s.params.memWords .byte (addr + BitVec.ofNat 32 o) = true := by
    rw [inBounds_iff, hword] at h
    rw [inBounds_iff, alignedAddr, hbyte]
    omega
  have lane := toNat_lane_writeValue hwf s.params.byteOrder .word addr.toNat v
    (laneOffset_lt s.params.byteOrder ho)
  rw [Memory.lane, Width.bytes, laneOffset_laneOffset _ ho] at lane
  rw [toNat_memRead_byte (by rwa [memWrite_params]), memWrite_mem_of_inBounds h, hword, hbyte, lane]
  cases s.params.byteOrder <;> rfl

end Sys2Proof.Machine
end

section
/-! PROOFS. Decoding (O1 to O4): the R-type table under opcode 0, the words the two tables name, the
round trip through each format, and the fields an operation ignores (spec rules R92 to R101). -/

namespace Sys2Proof

/-! ### The two tables (R97, R98) -/

/-- Opcode 0 selects the table of functions. -/
theorem decodeWord_eq_decodeRType {w : Word} (h : opField w = 0#6) :
    decodeWord w = decodeRType w := by
  simp [decodeWord, h]

/-- `decodeRType` has the rows of `supportedFuncts`; every other function gives `unsupported`. -/
theorem decodeRType_selects (w : Word) :
    supportedFuncts.contains (functField w) = true ∧ (∀ v, decodeRType w ≠ .unsupported v) ∨
      supportedFuncts.contains (functField w) = false ∧ decodeRType w = .unsupported w := by
  unfold decodeRType
  split <;> rename_i e
  case h_15 => exact .inr ⟨by simp_all [supportedFuncts, ← BitVec.toNat_inj], rfl⟩
  all_goals exact .inl ⟨by rw [field6_eq e]; rfl, by simp⟩

/-- `decodeWord` has the rows of the two tables; every other word decodes to `unsupported`. -/
theorem decodeWord_selects (w : Word) :
    selectsInstruction w = true ∧ (∀ v, decodeWord w ≠ .unsupported v) ∨
      selectsInstruction w = false ∧ decodeWord w = .unsupported w := by
  rw [selectsInstruction_eq]
  by_cases hop : opField w = 0#6
  · rw [if_pos hop, decodeWord_eq_decodeRType hop]
    exact decodeRType_selects w
  · rw [if_neg hop]
    unfold decodeWord
    split <;> rename_i e
    case h_1 => exact absurd (field6_eq e) hop
    case h_22 => exact .inr ⟨by simp_all [supportedOpcodes, ← BitVec.toNat_inj], rfl⟩
    all_goals exact .inl ⟨by rw [field6_eq e]; rfl, by simp⟩

/-- `unsupported` stands for the words the tables do not name. -/
theorem wf_unsupported_iff {w : Word} :
    (Instr.unsupported w).wf = true ↔ selectsInstruction w = false := by
  simp [Instr.wf]

/-- The catch-all alone has a condition to meet. -/
theorem wf_of_ne_unsupported {i : Instr} (h : ∀ w, i ≠ .unsupported w) : i.wf = true := by
  cases i
  case unsupported w => exact absurd rfl (h w)
  all_goals rfl

/-- A word outside the tables decodes to `unsupported`, which keeps it (R100). -/
theorem decodeWord_of_not_selects {w : Word} (h : selectsInstruction w = false) :
    decodeWord w = .unsupported w := by
  obtain ⟨hs, -⟩ | ⟨-, hu⟩ := decodeWord_selects w
  · simp [h] at hs
  · exact hu

/-! ### Ignored fields (R99) -/

section
variable {v w : Word} (hf : functField v = functField w)
include hf

/-- A three-register operation does not read `shamt`. -/
theorem decodeRType_congr_threeRegister (hrow : functField w ∈
      [0x20#6, 0x21#6, 0x22#6, 0x23#6, 0x24#6, 0x25#6, 0x26#6, 0x27#6, 0x2A#6, 0x2B#6])
    (hrs : rsField v = rsField w) (hrt : rtField v = rtField w) (hrd : rdField v = rdField w) :
    decodeRType v = decodeRType w := by
  simp only [List.mem_cons, List.not_mem_nil, or_false] at hrow
  rcases hrow with h | h | h | h | h | h | h | h | h | h <;>
    simp [decodeRType, hf, h, hrs, hrt, hrd]

/-- A shift does not read `rs`. -/
theorem decodeRType_congr_shift (hrow : functField w ∈ [0x00#6, 0x02#6, 0x03#6])
    (hrt : rtField v = rtField w) (hrd : rdField v = rdField w)
    (hsh : shamtField v = shamtField w) : decodeRType v = decodeRType w := by
  simp only [List.mem_cons, List.not_mem_nil, or_false] at hrow
  rcases hrow with h | h | h <;> simp [decodeRType, hf, h, hrt, hrd, hsh]

/-- `jr` reads `rs` alone. -/
theorem decodeRType_congr_jr (hrow : functField w = 0x08#6) (hrs : rsField v = rsField w) :
    decodeRType v = decodeRType w := by
  simp [decodeRType, hf, hrow, hrs]

end

/-- `lui` does not read `rs`. -/
theorem decodeWord_congr_lui {v w : Word} (hop : opField v = opField w) (hrow : opField w = 0x0F#6)
    (hrt : rtField v = rtField w) (himm : imm16Field v = imm16Field w) :
    decodeWord v = decodeWord w := by
  simp [decodeWord, hop, hrow, hrt, himm]

/-! ### The statements -/

/-- Settles O1, format by format, from what each field reads of a word of the format. -/
theorem decodeEncodeRoundTrip : Obligations.DecodeEncodeRoundTrip := by
  intro i hwf
  cases i with
  | sll | srl | sra | jr | add | addu | sub | subu | and | or | xor | nor | slt | sltu =>
    rw [encode, decodeWord_eq_decodeRType (opField_encodeR ..)]
    simp [decodeRType]
  | j | jal | beq | bne | addi | addiu | slti | sltiu | andi | ori | xori | lui | lb | lh | lw | lbu
  | lhu | sb | sh | sw => simp [encode, decodeWord]
  | unsupported w => exact decodeWord_of_not_selects (wf_unsupported_iff.mp hwf)

/-- Settles O2: a word the tables name decodes to a named instruction, every other to itself. -/
theorem unsupportedExactlyOutsideTheTables : Obligations.UnsupportedExactlyOutsideTheTables := by
  intro w
  obtain ⟨hs, hne⟩ | ⟨hs, hu⟩ := decodeWord_selects w
  · exact ⟨iff_of_false (hne w) (by simp [hs]), wf_of_ne_unsupported hne⟩
  · exact ⟨iff_of_true hu hs, hu ▸ wf_unsupported_iff.mpr hs⟩

/-- Settles O4: the row is the same, and the row does not read the field. -/
theorem unusedFieldsAreIgnored : Obligations.UnusedFieldsAreIgnored := by
  intro v w hop
  refine ⟨fun h0 hf => ?_, decodeWord_congr_lui hop⟩
  rw [decodeWord_eq_decodeRType (hop.trans h0), decodeWord_eq_decodeRType h0]
  exact ⟨decodeRType_congr_threeRegister hf, decodeRType_congr_shift hf, decodeRType_congr_jr hf⟩

/-- Settles O3, by evaluating the decoder on the six words. -/
theorem specWordsDecode : Obligations.SpecWordsDecode := by
  unfold Obligations.SpecWordsDecode
  decide

end Sys2Proof
end

section
/-! PROOFS. The decode unit (O5, O6): which instructions a row of the table of R127 holds, what they
read and write, and the static targets (spec rules R123 to R128). -/

namespace Sys2Proof.Machine

/-! ### Operand fields and destination, row by row (R127) -/

section
variable {w : Word} (h0 : opField w = 0#6)
include h0

/-- A three-register operation reads `rs` and `rt` and writes `rd`. -/
theorem operands_threeRegister (hrow : functField w ∈
      [0x20#6, 0x21#6, 0x22#6, 0x23#6, 0x24#6, 0x25#6, 0x26#6, 0x27#6, 0x2A#6, 0x2B#6]) :
    sourceFields (decodeWord w) = [rsField w, rtField w] ∧
      destination (decodeWord w) = destField (rdField w) := by
  rw [decodeWord_eq_decodeRType h0]
  simp only [List.mem_cons, List.not_mem_nil, or_false] at hrow
  rcases hrow with h | h | h | h | h | h | h | h | h | h <;>
    simp [decodeRType, h, sourceFields, destination]

/-- A shift reads `rt` and writes `rd`. -/
theorem operands_shift (hrow : functField w ∈ [0x00#6, 0x02#6, 0x03#6]) :
    sourceFields (decodeWord w) = [rtField w] ∧
      destination (decodeWord w) = destField (rdField w) := by
  rw [decodeWord_eq_decodeRType h0]
  simp only [List.mem_cons, List.not_mem_nil, or_false] at hrow
  rcases hrow with h | h | h <;> simp [decodeRType, h, sourceFields, destination]

/-- `jr` reads `rs` and writes nothing. -/
theorem operands_jr (hrow : functField w = 0x08#6) :
    sourceFields (decodeWord w) = [rsField w] ∧ destination (decodeWord w) = none := by
  rw [decodeWord_eq_decodeRType h0]
  simp [decodeRType, hrow, sourceFields, destination]

end

section
variable {w : Word}

/-- An immediate ALU operation other than `lui` reads `rs` and writes `rt`. -/
theorem operands_immediate
    (hrow : opField w ∈ [0x08#6, 0x09#6, 0x0A#6, 0x0B#6, 0x0C#6, 0x0D#6, 0x0E#6]) :
    sourceFields (decodeWord w) = [rsField w] ∧
      destination (decodeWord w) = destField (rtField w) := by
  simp only [List.mem_cons, List.not_mem_nil, or_false] at hrow
  rcases hrow with h | h | h | h | h | h | h <;> simp [decodeWord, h, sourceFields, destination]

/-- `lui` reads nothing and writes `rt`. -/
theorem operands_lui (hrow : opField w = 0x0F#6) :
    sourceFields (decodeWord w) = [] ∧ destination (decodeWord w) = destField (rtField w) := by
  simp [decodeWord, hrow, sourceFields, destination]

/-- A load reads `rs` and writes `rt`. -/
theorem operands_load (hrow : opField w ∈ [0x20#6, 0x21#6, 0x23#6, 0x24#6, 0x25#6]) :
    sourceFields (decodeWord w) = [rsField w] ∧
      destination (decodeWord w) = destField (rtField w) := by
  simp only [List.mem_cons, List.not_mem_nil, or_false] at hrow
  rcases hrow with h | h | h | h | h <;> simp [decodeWord, h, sourceFields, destination]

/-- A store reads `rs` and `rt` and writes nothing. -/
theorem operands_store (hrow : opField w ∈ [0x28#6, 0x29#6, 0x2B#6]) :
    sourceFields (decodeWord w) = [rsField w, rtField w] ∧
      destination (decodeWord w) = none := by
  simp only [List.mem_cons, List.not_mem_nil, or_false] at hrow
  rcases hrow with h | h | h <;> simp [decodeWord, h, sourceFields, destination]

/-- A branch is the one its opcode names, with `rs`, `rt` and the immediate of the word. -/
theorem decodeWord_branch (hrow : opField w ∈ [0x04#6, 0x05#6]) :
    decodeWord w = .beq (rsField w) (rtField w) (imm16Field w) ∨
      decodeWord w = .bne (rsField w) (rtField w) (imm16Field w) := by
  simp only [List.mem_cons, List.not_mem_nil, or_false] at hrow
  rcases hrow with h | h
  · exact .inl (by simp [decodeWord, h])
  · exact .inr (by simp [decodeWord, h])

/-- A branch reads `rs` and `rt` and writes nothing. -/
theorem operands_branch (hrow : opField w ∈ [0x04#6, 0x05#6]) :
    sourceFields (decodeWord w) = [rsField w, rtField w] ∧
      destination (decodeWord w) = none := by
  rcases decodeWord_branch hrow with h | h <;> rw [h] <;> exact ⟨rfl, rfl⟩

theorem decodeWord_j (hrow : opField w = 0x02#6) : decodeWord w = .j (index26Field w) := by
  simp [decodeWord, hrow]

theorem decodeWord_jal (hrow : opField w = 0x03#6) : decodeWord w = .jal (index26Field w) := by
  simp [decodeWord, hrow]

/-- `j` reads and writes nothing. -/
theorem operands_j (hrow : opField w = 0x02#6) :
    sourceFields (decodeWord w) = [] ∧ destination (decodeWord w) = none := by
  rw [decodeWord_j hrow]
  exact ⟨rfl, rfl⟩

/-- `jal` reads nothing and writes its link to register 31. -/
theorem operands_jal (hrow : opField w = 0x03#6) :
    sourceFields (decodeWord w) = [] ∧ destination (decodeWord w) = some 31#5 := by
  rw [decodeWord_jal hrow]
  exact ⟨rfl, rfl⟩

/-- A word outside the tables reads and writes nothing (R129). -/
theorem operands_of_not_selects (h : selectsInstruction w = false) :
    sourceFields (decodeWord w) = [] ∧ destination (decodeWord w) = none := by
  rw [decodeWord_of_not_selects h]
  exact ⟨rfl, rfl⟩

/-- A function outside the table of R98 selects no instruction. -/
theorem selectsInstruction_of_funct (h0 : opField w = 0#6) (h : functField w ∉ supportedFuncts) :
    selectsInstruction w = false := by
  simpa [selectsInstruction_eq, h0] using h

/-- An opcode outside the table of R97 selects no instruction. -/
theorem selectsInstruction_of_op (h : opField w ∉ 0#6 :: supportedOpcodes) :
    selectsInstruction w = false := by
  obtain ⟨h0, hop⟩ := List.ne_and_not_mem_of_not_mem_cons h
  simpa [selectsInstruction_eq, h0] using hop

/-- The decode unit's read set and destination are those of its word's row, without register 0. -/
theorem decodeUnit_of_operands {fields : List Reg} {dst : Option Reg}
    (h : sourceFields (decodeWord w) = fields ∧ destination (decodeWord w) = dst)
    {pc : Word} {k : Nat} :
    (∀ r : Reg, r ∈ (decodeUnit w pc k).reads ↔ r ≠ 0#5 ∧ r ∈ fields) ∧
      (decodeUnit w pc k).dest = dst := by
  obtain ⟨rfl, rfl⟩ := h
  exact ⟨mem_readSet _, rfl⟩

end

/-! ### Static targets (R128) -/

theorem decodeUnit_target (w pc : Word) (k : Nat) :
    (decodeUnit w pc k).target = staticTarget pc (decodeWord w) := rfl

/-- A register-format instruction has no static target. -/
theorem staticTarget_decodeRType (pc w : Word) : staticTarget pc (decodeRType w) = none := by
  unfold decodeRType
  split <;> rfl

/-- Only the four opcodes of branches and jumps have a static target. -/
theorem staticTarget_decodeWord_eq_none {w : Word}
    (h : opField w ∉ [0x02#6, 0x03#6, 0x04#6, 0x05#6]) (pc : Word) :
    staticTarget pc (decodeWord w) = none := by
  unfold decodeWord
  split <;> rename_i e
  case h_1 => exact staticTarget_decodeRType pc w
  case h_2 | h_3 | h_4 | h_5 => exact absurd (by rw [field6_eq e]; decide) h
  all_goals rfl

/-! ### The statements -/

/-- Settles O5: each row's instructions take the fields of the row, and the decode unit leaves
register 0 out of them. -/
theorem registerSetsOmitRegisterZero : Obligations.RegisterSetsOmitRegisterZero := by
  intro w pc k
  exact ⟨mem_readSet _, nodup_readSet _, destination_ne_zero _,
    fun h0 =>
      ⟨fun h => decodeUnit_of_operands (operands_threeRegister h0 h),
       fun h => decodeUnit_of_operands (operands_shift h0 h),
       fun h => decodeUnit_of_operands (operands_jr h0 h),
       fun h =>
         decodeUnit_of_operands (operands_of_not_selects (selectsInstruction_of_funct h0 h))⟩,
    fun h => decodeUnit_of_operands (operands_immediate h),
    fun h => decodeUnit_of_operands (operands_lui h),
    fun h => decodeUnit_of_operands (operands_load h),
    fun h => decodeUnit_of_operands (operands_store h),
    fun h => decodeUnit_of_operands (operands_branch h),
    fun h => decodeUnit_of_operands (operands_j h),
    fun h => decodeUnit_of_operands (operands_jal h),
    fun h => decodeUnit_of_operands (operands_of_not_selects (selectsInstruction_of_op h))⟩

/-- Settles O6, opcode by opcode. -/
theorem staticTargets : Obligations.StaticTargets := by
  intro w pc k
  rw [decodeUnit_target, ← jumpTarget_eq]
  refine ⟨fun h => ?_, fun h => ?_, fun h => staticTarget_decodeWord_eq_none h pc⟩
  · rcases decodeWord_branch (by simpa using h) with h | h <;> rw [h] <;> rfl
  · rcases h with h | h
    · rw [decodeWord_j h]; rfl
    · rw [decodeWord_jal h]; rfl

end Sys2Proof.Machine
end

section
/-! PROOFS. The R-type ALU instructions and the comparisons with an immediate (O8 to O11): the value the
function of each instruction gives, then the ALU template with that function (spec rules R140 to R153,
R163, R164). -/

namespace Sys2Proof.Machine

/-! ### Bits (R145 to R148) -/

theorem getLsbD_aluAnd (a b : Word) (n : Nat) :
    (aluAnd a b).getLsbD n = (a.getLsbD n && b.getLsbD n) :=
  BitVec.getLsbD_and

theorem getLsbD_aluOr (a b : Word) (n : Nat) :
    (aluOr a b).getLsbD n = (a.getLsbD n || b.getLsbD n) :=
  BitVec.getLsbD_or

theorem getLsbD_aluXor (a b : Word) (n : Nat) :
    (aluXor a b).getLsbD n = (a.getLsbD n != b.getLsbD n) :=
  BitVec.getLsbD_xor

/-- The complement has no bits outside the word, so this one is about the bits of a word only. -/
theorem getLsbD_aluNor (a b : Word) {n : Nat} (hn : n < 32) :
    (aluNor a b).getLsbD n = !(a.getLsbD n || b.getLsbD n) := by
  rw [aluNor, BitVec.getLsbD_not, BitVec.getLsbD_or, decide_eq_true hn, Bool.true_and]

/-! ### Comparisons with an immediate (R163, R164) -/

/-- The signed comparison is with the immediate's own value, which sign extension keeps. -/
theorem aluSlti_eq (imm : Imm16) (a : Word) :
    aluSlti imm a = if a.toInt < imm.toInt then 1#32 else 0#32 := by
  rw [aluSlti, truthWord_lessSigned, signImm_toInt]

/-! ### Shifts on integers (R151 to R153) -/

theorem aluSll_eq (shamt : Shamt) (b : Word) :
    aluSll shamt b = BitVec.ofNat 32 (b.toNat * 2 ^ shamt.toNat) := by
  apply BitVec.eq_of_toNat_eq
  rw [aluSll, BitVec.toNat_shiftLeft, Nat.shiftLeft_eq, BitVec.toNat_ofNat]

theorem aluSrl_eq (shamt : Shamt) (b : Word) :
    aluSrl shamt b = BitVec.ofNat 32 (b.toNat / 2 ^ shamt.toNat) := by
  rw [aluSrl, ← Nat.shiftRight_eq_div_pow, ← BitVec.toNat_ushiftRight, BitVec.ofNat_toNat,
    BitVec.setWidth_eq]

/-- An arithmetic right shift is the signed division that rounds down: `/` on integers rounds down for
a positive divisor. -/
theorem aluSra_eq (shamt : Shamt) (b : Word) :
    aluSra shamt b = BitVec.ofInt 32 (b.toInt / 2 ^ shamt.toNat) := by
  have h : (aluSra shamt b).toInt = b.toInt / 2 ^ shamt.toNat := by
    rw [aluSra, BitVec.toInt_sshiftRight, Int.shiftRight_eq_div_pow]
    norm_cast
  rw [← h, BitVec.ofInt_toInt]

/-! ### The statements -/

/-- Settles O8: each instruction is the ALU template with its wrapping sum or difference. -/
theorem addSubtractResults : Obligations.AddSubtractResults := fun rd rs rt s =>
  ⟨runSequential_aluRule rd rs rt aluAdd s rfl, runSequential_aluRule rd rs rt aluAddu s rfl,
    runSequential_aluRule rd rs rt aluSub s rfl, runSequential_aluRule rd rs rt aluSubu s rfl⟩

/-- Settles O9: the value written is the instruction's function of the operands, known bit by bit. -/
theorem bitwiseResults : Obligations.BitwiseResults := fun rd rs rt s =>
  ⟨⟨_, fun n _ => getLsbD_aluAnd _ _ n, runSequential_aluRule rd rs rt aluAnd s rfl⟩,
    ⟨_, fun n _ => getLsbD_aluOr _ _ n, runSequential_aluRule rd rs rt aluOr s rfl⟩,
    ⟨_, fun n _ => getLsbD_aluXor _ _ n, runSequential_aluRule rd rs rt aluXor s rfl⟩,
    ⟨_, fun _ hn => getLsbD_aluNor _ _ hn, runSequential_aluRule rd rs rt aluNor s rfl⟩⟩

/-- Settles O10, from the truth words of the two comparisons on integers. -/
theorem setOnLessThanResults : Obligations.SetOnLessThanResults := fun rd rs rt imm s =>
  ⟨runSequential_aluRule rd rs rt aluSlt s (truthWord_lessSigned _ _),
    runSequential_aluRule rd rs rt aluSltu s (truthWord_lessUnsigned _ _),
    runSequential_aluRule rt rs 0#5 (fun a _ => aluSlti imm a) s (aluSlti_eq imm _),
    runSequential_aluRule rt rs 0#5 (fun a _ => aluSltiu imm a) s (truthWord_lessUnsigned _ _)⟩

/-- Settles O11, from the shifts on integers. -/
theorem shiftResults : Obligations.ShiftResults := fun rd rt shamt s =>
  ⟨runSequential_aluRule rd 0#5 rt (fun _ b => aluSll shamt b) s (aluSll_eq shamt _),
    runSequential_aluRule rd 0#5 rt (fun _ b => aluSrl shamt b) s (aluSrl_eq shamt _),
    runSequential_aluRule rd 0#5 rt (fun _ b => aluSra shamt b) s (aluSra_eq shamt _)⟩

end Sys2Proof.Machine
end

section
/-! PROOFS. The ALU instructions with an immediate and `lui` (O12): the function of each instruction on
the extended immediate, then the ALU template with that function (spec rules R160 to R168). -/

namespace Sys2Proof.Machine

/-! ### The logical functions on the zero-extended immediate (R165 to R167) -/

theorem aluAndi_eq (imm : Imm16) (a : Word) : aluAndi imm a = a &&& BitVec.ofNat 32 imm.toNat := by
  rw [aluAndi, zeroImm_eq]

theorem aluOri_eq (imm : Imm16) (a : Word) : aluOri imm a = a ||| BitVec.ofNat 32 imm.toNat := by
  rw [aluOri, zeroImm_eq]

theorem aluXori_eq (imm : Imm16) (a : Word) : aluXori imm a = a ^^^ BitVec.ofNat 32 imm.toNat := by
  rw [aluXori, zeroImm_eq]

/-! ### The statement -/

/-- Settles O12: each instruction is the ALU template with its function of the extended immediate. -/
theorem immediateResults : Obligations.ImmediateResults := fun rt rs imm s =>
  ⟨runSequential_aluRule rt rs 0#5 (fun a _ => aluAddi imm a) s rfl,
    runSequential_aluRule rt rs 0#5 (fun a _ => aluAddiu imm a) s rfl,
    runSequential_aluRule rt rs 0#5 (fun a _ => aluAndi imm a) s (aluAndi_eq imm _),
    runSequential_aluRule rt rs 0#5 (fun a _ => aluOri imm a) s (aluOri_eq imm _),
    runSequential_aluRule rt rs 0#5 (fun a _ => aluXori imm a) s (aluXori_eq imm _),
    runSequential_aluRule rt 0#5 0#5 (fun _ _ => aluLui imm) s (upperImm_eq imm)⟩

end Sys2Proof.Machine
end

section
/-! PROOFS. Loads and stores (O13, O14): the load template with the width and extension of each load,
the store template with the width of each store (spec rules R180 to R190). -/

namespace Sys2Proof.Machine

/-- Settles O13: each load is the load template. The value read is zero-extended already, so `lbu` and
`lhu` write it as it is; `lw` reads a whole word. -/
theorem loadResults : Obligations.LoadResults := fun rt rs imm s =>
  ⟨runSequential_loadRule rt rs 0#5 imm .byte true s rfl,
    runSequential_loadRule rt rs 0#5 imm .half true s rfl,
    runSequential_loadRule rt rs 0#5 imm .word false s rfl,
    runSequential_loadRule rt rs 0#5 imm .byte false s (extendLoaded_unsigned s .byte _),
    runSequential_loadRule rt rs 0#5 imm .half false s (extendLoaded_unsigned s .half _)⟩

/-- Settles O14: each store is the store template at its width. -/
theorem storeResults : Obligations.StoreResults := fun rt rs imm s =>
  ⟨runSequential_storeRule rs rt imm .byte s, runSequential_storeRule rs rt imm .half s,
    runSequential_storeRule rs rt imm .word s⟩

end Sys2Proof.Machine
end

section
/-! PROOFS. Control transfers (O15, O37): what one does when it runs at once, and which instructions
steer the machine when they stand in EX (spec rules R201 to R206, R267, R289). -/

namespace Sys2Proof.Machine

/-! ### Run at once (R201) -/

theorem not_sameWord_iff (a b : Word) : (!sameWord a b) = true ↔ a ≠ b := by
  rw [Bool.not_eq_true', ← Bool.not_eq_true, sameWord_iff]

/-- The branch template with the condition as a proposition. -/
theorem runSequential_branchRule_iff {rs rt : Reg} {cond : Word → Word → Bool} {s : State} {P : Prop}
    [Decidable P] (h : cond (s.readReg rs) (s.readReg rt) = true ↔ P) (imm : Imm16) :
    runSequential rs rt (branchRule imm cond) s =
      .next { s with cursor :=
        (if P then s.cursor + 4#32 + (signImm imm <<< 2) else s.cursor + 4#32) } := by
  simp only [runSequential_branchRule, h]

/-- A rule that jumps and accesses no memory: its result in the destination, its target in the
cursor. -/
theorem runSequential_of_jump {rs rt : Reg} {rule : StageRule} {s : State} {out : ExOut} {tgt : Word}
    (hout : rule.ex s.cursor (s.readReg rs) (s.readReg rt) = out) (hmem : rule.mem = .pass)
    (hsteer : out.steer = .jump tgt) :
    runSequential rs rt rule s = .next { s.writeDest rule.dest out.result with cursor := tgt } := by
  simp only [runSequential, runRule, hout, hmem, hsteer, Steer.next, State.memAccess, State.memValue]

/-- Settles O15: a branch by its condition on the two operands, a jump by its target; of the jumps `jal`
alone has a destination. -/
theorem controlTransferResults : Obligations.ControlTransferResults := fun rs rt imm index _ =>
  ⟨runSequential_branchRule_iff (rs := rs) (rt := rt) (sameWord_iff _ _) imm,
    runSequential_branchRule_iff (rs := rs) (rt := rt) (not_sameWord_iff _ _) imm,
    runSequential_of_jump (rule := ruleJ index) rfl rfl rfl,
    runSequential_of_jump (rule := ruleJal index) rfl rfl rfl,
    runSequential_of_jump (rule := ruleJr) rfl rfl rfl⟩

/-! ### In EX (R289) -/

/-- `jr` steers to the delivered value of `rs` (R206). -/
theorem ruleOf_steer_jumpRegister {i : Instr} (h : kindOf i = .jumpRegister) (pc a b : Word) :
    ((ruleOf i).ex pc a b).steer = .jump a := by
  cases i <;> cases h
  rfl

/-- `j` and `jal` steer to the static target (R204, R205). -/
theorem ruleOf_steer_jump {i : Instr} (h : kindOf i = .jump) (pc a b : Word) :
    ∃ tgt, ((ruleOf i).ex pc a b).steer = .jump tgt ∧ staticTarget pc i = some tgt := by
  cases i <;> cases h <;> exact ⟨_, rfl, rfl⟩

/-- The control transfers are the branches and the jumps (R121). -/
theorem isControl_eq_isBranch_or_isJump (d : Descriptor) :
    d.kind.isControl = (d.isBranch || d.isJump) := by
  unfold Descriptor.isBranch Descriptor.isJump
  cases d.kind <;> rfl

section
variable {s : State} {L : Latch} {P1 P2 : Option Latch}

/-- EX with a jump redirects. -/
theorem doEX_of_jump (hL : s.slotEX = some L) {tgt : Word}
    (h : (exOut s P1 P2 L).steer = .jump tgt) :
    doEX P1 P2 s = ({ redirect s tgt with
      slotMEM := some (executed L (exOut s P1 P2 L)), slotEX := none }, true) := by
  rw [doEX_occupied hL, h]
  rfl

/-- EX with an instruction that falls through only moves its record. -/
theorem doEX_of_fallThrough (hL : s.slotEX = some L)
    (h : (exOut s P1 P2 L).steer = .fallThrough) :
    doEX P1 P2 s = ({ s with
      slotMEM := some (executed L (exOut s P1 P2 L)), slotEX := none }, false) := by
  rw [doEX_occupied hL, h]
  rfl

end

/-- Settles O37: a jump steers to its target, and to steer by a jump is to redirect; an instruction that
is no control transfer falls through. -/
theorem onlyControlTransfersSteerInEX : Obligations.OnlyControlTransfersSteerInEX := by
  intro s P1 P2 L hL
  refine ⟨fun hjump => ?_, fun hbranch hjump => ?_⟩
  · obtain ⟨tgt, htgt⟩ : ∃ tgt, (exOut s P1 P2 L).steer = .jump tgt := steer_of_isJump L hjump ..
    rw [doEX_of_jump hL htgt]
    refine ⟨fun hkind => ?_, fun hkind => ?_, rfl, rfl, rfl, rfl, rfl, rfl, rfl⟩
    · exact Steer.jump.inj (htgt.symm.trans (ruleOf_steer_jumpRegister hkind ..))
    · obtain ⟨tgt', hsteer, hstatic⟩ := ruleOf_steer_jump hkind L.pc (deliveredA s P1 P2 L)
        (deliveredB s P1 P2 L)
      cases Steer.jump.inj (htgt.symm.trans hsteer)
      exact hstatic
  · have hcontrol : L.desc.kind.isControl = false := by
      rw [isControl_eq_isBranch_or_isJump, hbranch, hjump]
      rfl
    exact ⟨_, doEX_of_fallThrough hL (ruleOf_steer_fallThrough L.instr hcontrol ..)⟩

end Sys2Proof.Machine
end


section
/-! PROOFS. The catch-all and `nop` (O16): the rule without effect run at once, and `nop` as the shift
whose destination is register 0 (spec rules R220, R221). -/

namespace Sys2Proof.Machine

/-- The inert template: the cursor moves on and nothing else changes. -/
theorem runSequential_inertRule (rs rt : Reg) (s : State) :
    runSequential rs rt inertRule s = .next { s with cursor := s.cursor + 4#32 } := by
  simp [runSequential, runRule, inertRule, State.memAccess, State.writeDest, Steer.next, nextAddress]

/-- A left shift into register 0 writes nothing, since register 0 takes no writes (R21). -/
theorem exec_sll_zero (rt : Reg) (shamt : Shamt) (s : State) :
    exec (.sll 0#5 rt shamt) s = .next { s with cursor := s.cursor + 4#32 } := by
  obtain ⟨hsll, -, -⟩ := shiftResults 0#5 rt shamt s
  rw [hsll, writeReg_zero]

/-- Settles O16: `unsupported` is the inert template, `nop` a left shift into register 0. -/
theorem unsupportedAndNopDoNothing : Obligations.UnsupportedAndNopDoNothing := by
  refine fun w s => ⟨runSequential_inertRule 0#5 0#5 s, ?_⟩
  obtain ⟨-, -, -, -, hnop, -⟩ := specWordsDecode
  rw [hnop]
  exact exec_sll_zero 0 0 s

end Sys2Proof.Machine
end

section
/-! PROOFS. Hazard records and the forwarding mux (O25 to O29, O55): what the two instructions before an
entry contribute together, and what the mux delivers (spec rules R231 to R246). -/

namespace Sys2Proof.Machine

/-! ### The policy table (R234) -/

/-- A producer whose destination is read needs what the policy table says. -/
theorem examine_need {C P : Descriptor} {r : Reg} (hdest : P.dest = some r) (hread : r ∈ C.reads)
    (forwarding : Bool) (d : Nat) :
    (examine forwarding C P d).need = stallNeed forwarding P.isLoad d := by
  simp [examine, hdest, hread]

/-- Settles O25: the need is the policy table's, which the eight rows evaluate. -/
theorem stallPolicyTable : Obligations.StallPolicyTable := by
  intro C P r hdest hread
  simp +contextual [examine_need hdest hread, stallNeed]

/-! ### The two producers of an entry (R231, R233) -/

/-- The detector looks at distance 1 and at distance 2 (R233). -/
theorem exists_distance_iff (p : Nat → Prop) : (∃ d, (d = 1 ∨ d = 2) ∧ p d) ↔ p 1 ∨ p 2 := by
  simp [or_and_right, exists_or]

theorem findings_raw_iff (s : State) (C : Descriptor) (i : Nat) :
    ((s.findingAt C i 1).raw || (s.findingAt C i 2).raw) = true ↔
      ∃ d P r, (d = 1 ∨ d = 2) ∧ d ≤ i ∧ s.descAt (i - d) = some P ∧
        P.dest = some r ∧ r ∈ C.reads := by
  rw [Bool.or_eq_true, findingAt_raw, findingAt_raw,
    ← exists_distance_iff fun d => ∃ P r, d ≤ i ∧ s.descAt (i - d) = some P ∧ P.dest = some r ∧
      r ∈ C.reads]
  simp only [exists_and_left]

theorem findings_waw_iff (s : State) (C : Descriptor) (i : Nat) :
    ((s.findingAt C i 1).waw || (s.findingAt C i 2).waw) = true ↔
      ∃ d P r, (d = 1 ∨ d = 2) ∧ d ≤ i ∧ s.descAt (i - d) = some P ∧
        P.dest = some r ∧ C.dest = some r := by
  rw [Bool.or_eq_true, findingAt_waw, findingAt_waw,
    ← exists_distance_iff fun d => ∃ P r, d ≤ i ∧ s.descAt (i - d) = some P ∧ P.dest = some r ∧
      C.dest = some r]
  simp only [exists_and_left]

/-- Which type each of the three bits gives (R240), read off the truth table. -/
theorem hazardType_iff : ∀ raw waw control : Bool,
    let type : HazardType :=
      if raw then .raw else if waw then .waw else if control then .control else .none
    (type = .raw ↔ raw = true) ∧ (type = .waw ↔ ¬ raw = true ∧ waw = true) ∧
      (type = .control ↔ ¬ raw = true ∧ ¬ waw = true ∧ control = true) := by
  decide

/-- Settles O26: the two bits RAW and WAW decide the type in this order, and only the RAW bit lets a
need or the forwarding bit through. -/
theorem hazardClassification : Obligations.HazardClassification := by
  intro s i C hstalls hC isRaw isWaw
  have hraw : ((s.findingAt C i 1).raw || (s.findingAt C i 2).raw) = true ↔ isRaw :=
    findings_raw_iff s C i
  have hwaw : ((s.findingAt C i 1).waw || (s.findingAt C i 2).waw) = true ↔ isWaw :=
    findings_waw_iff s C i
  have hctl : C.kind.isControl = true ↔ C.isBranch = true ∨ C.isJump = true := by
    rw [isControl_eq_isBranch_or_isJump, Bool.or_eq_true]
  rw [hazard_of_desc hstalls hC, ← hraw, ← hwaw, ← hctl]
  have hneed : ∀ d, (s.findingAt C i d).raw = false → (s.findingAt C i d).need = 0 :=
    findingAt_need_of_not_raw s C i
  obtain ⟨htypeRaw, htypeWaw, htypeControl⟩ := hazardType_iff
    ((s.findingAt C i 1).raw || (s.findingAt C i 2).raw)
    ((s.findingAt C i 1).waw || (s.findingAt C i 2).waw) C.kind.isControl
  refine ⟨htypeRaw, htypeWaw, htypeControl, fun hnot => ?_, fun h => ?_⟩
  · obtain ⟨h1, h2⟩ := Bool.or_eq_false_iff.mp (Bool.eq_false_iff.mpr hnot)
    simp [h1, h2, hneed]
  · simp [h]

/-! ### The stall (R236, R237) -/

/-- The farther instruction never needs more than a producer at distance 1 (R237). -/
theorem findingAt_need_two_le (s : State) (C : Descriptor) (i : Nat) (load : Bool) :
    (s.findingAt C i 2).need ≤ stallNeed s.cfg.forwardingEnabled load 1 := by
  cases hraw : (s.findingAt C i 2).raw with
  | false => rw [findingAt_need_of_not_raw s C i 2 hraw]; exact Nat.zero_le _
  | true =>
    obtain ⟨P, r, hi, hP, hdest, hread⟩ := (findingAt_raw s C i 2).mp hraw
    rw [findingAt_need s C P i 2 hi hP r hdest hread]
    cases s.cfg.forwardingEnabled <;> simp [stallNeed]

/-- Without a producer at a distance nothing is needed for it (R231). -/
theorem findingAt_need_eq_zero {s : State} {C : Descriptor} {i d : Nat}
    (h : ¬ ∃ P, d ≤ i ∧ s.descAt (i - d) = some P ∧ ∃ r, P.dest = some r ∧ r ∈ C.reads) :
    (s.findingAt C i d).need = 0 := by
  refine findingAt_need_of_not_raw s C i d (Bool.eq_false_iff.mpr fun hraw => h ?_)
  obtain ⟨P, r, hi, hP, hdest, hread⟩ := (findingAt_raw s C i d).mp hraw
  exact ⟨P, hi, hP, r, hdest, hread⟩

/-- Settles O27: the stall is the larger of two needs, and the one of the nearer producer is never the
smaller. -/
theorem nearestProducerDecidesTheStall : Obligations.NearestProducerDecidesTheStall := by
  refine fun s i => ⟨hazard_of_stalls_off, hazard_stall_le s i, fun hstalls C hC => ?_⟩
  intro writes
  have hstall : (s.hazard i).stall = max (s.findingAt C i 1).need (s.findingAt C i 2).need := by
    rw [hazard_of_desc hstalls hC]
  have hneed : ∀ d P, writes d P →
      (s.findingAt C i d).need = stallNeed s.cfg.forwardingEnabled P.isLoad d := by
    rintro d P ⟨hi, hP, r, hdest, hread⟩
    exact findingAt_need s C P i d hi hP r hdest hread
  rw [hstall]
  refine ⟨fun P hP => ?_, fun hnone P hP => ?_, fun hnone hnone' => ?_⟩
  · rw [hneed 1 P hP]
    exact Nat.max_eq_left (findingAt_need_two_le s C i P.isLoad)
  · rw [findingAt_need_eq_zero hnone, hneed 2 P hP, Nat.zero_max]
  · rw [findingAt_need_eq_zero hnone, findingAt_need_eq_zero hnone', Nat.zero_max]

/-! ### The forwarding records (R243) -/

/-- The stage of R243 as the statement of the rule writes it. -/
theorem producerStage_eq (load : Bool) (d : Nat) :
    producerStage load d = if d = 1 ∧ load = false then .EX else .MEM := by
  simp [producerStage]

theorem mem_findings_records (s : State) (C : Descriptor) (i : Nat) (f : ForwardingRecord) :
    f ∈ (s.findingAt C i 1).records ++ (s.findingAt C i 2).records ↔
      s.cfg.forwardingEnabled = true ∧ ∃ d, (d = 1 ∨ d = 2) ∧
        ∃ P, d ≤ i ∧ s.descAt (i - d) = some P ∧ P.dest = some f.register ∧ f.register ∈ C.reads ∧
          f.producer = i - d ∧ f.consumer = C.idx ∧ f.consumerStage = .EX ∧
          f.producerStage = producerStage P.isLoad d := by
  rw [List.mem_append, mem_findingAt_records, mem_findingAt_records, ← and_or_left,
    exists_distance_iff]

/-- Settles O28: the records are those of the two findings, and each finding's are exact. -/
theorem forwardingRecordsAreExact : Obligations.ForwardingRecordsAreExact := by
  intro s i f
  cases hstalls : s.cfg.stallsEnabled with
  | false => simp [hazard_of_stalls_off hstalls, HazardRecord.clear]
  | true =>
    cases hC : s.descAt i with
    | none => simp [hazard_of_no_desc hC, HazardRecord.clear]
    | some C =>
      rw [hazard_of_desc hstalls hC, mem_findings_records, descAt_idx hC]
      simp only [← producerStage_eq, true_and, Option.some.injEq]
      refine and_congr_right fun _ => ⟨?_, ?_⟩
      · rintro ⟨d, hd, P, hi, hP, hrest⟩
        exact ⟨C, P, d, hd, hi, rfl, hP, hrest⟩
      · rintro ⟨_, P, d, hd, hi, rfl, hP, hrest⟩
        exact ⟨d, hd, P, hi, hP, hrest⟩

/-! ### What the mux delivers (R246, R248) -/

/-- Settles O29: off, register 0, the near producer, the far one, the register file. -/
theorem forwardingMuxPriority : Obligations.ForwardingMuxPriority := by
  intro r v P1 P2 near
  have hload : ¬ near → ∀ P, P1 = some P → P.desc.dest = some r → P.desc.isLoad = true :=
    fun hnear P hP hdest => by_contra fun hl => hnear ⟨P, hP, hdest, Bool.eq_false_iff.mpr hl⟩
  refine ⟨forward_off r v P1 P2, forward_zero true v P1 P2, fun hr => ⟨?_, ?_, ?_⟩⟩
  · rintro L rfl hdest hl
    exact forward_near hr v P2 hdest hl
  · rintro hnear L rfl hdest
    exact forward_far hr v (hload hnear) hdest
  · exact fun hnear hfar => forward_none r v (hload hnear) hfar

/-- A register the instruction in MEM does not write has its value once WB has completed. -/
theorem drain_readReg_of_MEM_ne {s : State} {r : Reg}
    (h : ∀ P, s.slotMEM = some P → P.desc.dest ≠ some r) :
    s.drain.readReg r = (doWB s).readReg r := by
  rw [drain_readReg]
  cases hM : s.slotMEM with
  | none => rfl
  | some P => exact if_neg (h P hM)

/-- A register that MEM writes from a record that is no load has that record's result. -/
theorem drain_readReg_of_MEM {s : State} {r : Reg} {P : Latch} (hP : s.slotMEM = some P)
    (hdest : P.desc.dest = some r) (hload : P.desc.isLoad = false) :
    s.drain.readReg r = P.result := by
  rw [drain_readReg, hP]
  simp only [if_pos hdest, mem_pass_of_dest P r hdest hload]
  rfl

/-- With WB alone to complete, the mux delivers what WB leaves. -/
theorem forward_eq_doWB_readReg {s : State} {r : Reg}
    (h : ∀ P, s.slotMEM = some P → P.desc.dest ≠ some r) :
    forward true r (s.readReg r) s.slotMEM s.slotWB = (doWB s).readReg r := by
  by_cases hr : r = 0#5
  · subst hr; simp
  have hload : ∀ P, s.slotMEM = some P → P.desc.dest = some r → P.desc.isLoad = true :=
    fun P hP hdest => absurd hdest (h P hP)
  by_cases hfar : ∃ Q, s.slotWB = some Q ∧ Q.desc.dest = some r
  · obtain ⟨Q, hQ, hdest⟩ := hfar
    rw [doWB_readReg, hQ, forward_far hr _ hload hdest]
    exact (if_pos hdest).symm
  · have hne : ∀ Q, s.slotWB = some Q → Q.desc.dest ≠ some r := fun Q hQ hd => hfar ⟨Q, hQ, hd⟩
    rw [forward_none r _ hload hne, doWB_readReg_of_ne hne]

/-- Settles O55: the mux takes the value of the youngest writer in MEM and WB, which is the one whose
write stays. -/
theorem deliveredOperandIsTheSequentialValue : Obligations.DeliveredOperandIsTheSequentialValue := by
  refine fun s r => ⟨fun _ hsafe => ?_, fun _ hM hW => ?_⟩
  · by_cases hnear : ∃ P, s.slotMEM = some P ∧ P.desc.dest = some r
    · obtain ⟨P, hP, hdest⟩ := hnear
      have hload : P.desc.isLoad = false := Bool.eq_false_iff.mpr fun hl => hsafe P hP hl hdest
      have hr : r ≠ 0#5 := by
        rintro rfl
        exact destination_ne_zero _ hdest
      rw [drain_readReg_of_MEM hP hdest hload, hP, forward_near hr _ _ hdest hload]
    · have hne : ∀ P, s.slotMEM = some P → P.desc.dest ≠ some r := fun P hP hd => hnear ⟨P, hP, hd⟩
      rw [drain_readReg_of_MEM_ne hne, forward_eq_doWB_readReg hne]
  · rw [forward_off, drain_readReg_of_MEM_ne hM, doWB_readReg_of_ne hW]

end Sys2Proof.Machine
end

section
/-! PROOFS. A step refines the sequential machine (O57): what stands in the young half is what was
predicted, its operands and stalls are those the hazards ask for, and the instruction in EX runs on the
sequential machine's values (spec rules R231 to R248, R282 to R296, R372). -/

namespace Sys2Proof.Machine

/-! ### The clauses of the sequential invariant about the slots -/

/-- The address of the instruction younger than the one in ID, or the cursor. -/
def State.pcBehindID (s : State) : Word := ({ s with slotEX := none, slotID := none } : State).archPc

theorem pcBehindID_eq (s : State) : s.pcBehindID =
    match s.slotIF with
    | some L => L.pc
    | none => s.cursor := by
  unfold State.pcBehindID State.archPc
  cases s.slotIF <;> rfl

/-- The clauses of the sequential invariant about the slots. -/
structure State.Flow (s : State) : Prop where
  operands : ∀ L, s.slotEX = some L →
    L.opA = s.readReg L.desc.rs ∧ L.opB = s.readReg L.desc.rt
  prediction : ∀ L, s.slotEX = some L → L.desc.isBranch = true → L.predTarget = predictedNext L
  afterEX : ∀ L, s.slotEX = some L → s.pcBehindEX = predictedNext L
  afterID : ∀ L, s.slotID = some L → s.pcBehindID = nextAddress L.pc
  afterIF : ∀ L, s.slotIF = some L → s.cursor = nextAddress L.pc
  hazardsEX : ∀ L, s.slotEX = some L →
    operandsSafe s.cfg.forwardingEnabled L s.slotMEM s.slotWB
  hazardsID : ∀ L, s.slotID = some L →
    stallSuffices s.cfg.forwardingEnabled s.dataStall L s.slotEX s.slotMEM

theorem State.SeqInv.flow {s : State} (h : s.SeqInv) : s.Flow :=
  ⟨h.operands, h.prediction, h.afterEX, h.afterID, h.afterIF, h.hazardsEX, h.hazardsID⟩

theorem State.Flow.seqInv {s : State} (h : s.Flow) (hstalls : s.cfg.stallsEnabled = true)
    (hfits : s.programFits) (hinv : s.Inv) : s.SeqInv :=
  ⟨hstalls, hfits, hinv, h.operands, h.prediction, h.afterEX, h.afterID, h.afterIF, h.hazardsEX,
    h.hazardsID⟩

/-- Concluding a tick touches the mode and the cycle only. -/
theorem conclude_eq (s : State) : ∃ m c, conclude s = { s with mode := m, cycle := c } := by
  unfold conclude
  split
  · exact ⟨_, _, rfl⟩
  · exact ⟨_, _, rfl⟩

theorem conclude_flow {s : State} (h : s.Flow) : (conclude s).Flow := by
  obtain ⟨m, c, hc⟩ := conclude_eq s
  rw [hc]
  exact ⟨h.operands, h.prediction, h.afterEX, h.afterID, h.afterIF, h.hazardsEX, h.hazardsID⟩

@[simp] theorem conclude_archPc (s : State) : (conclude s).archPc = s.archPc := by
  simp [State.archPc]

/-- With EX empty only the clauses about ID and IF say something. -/
theorem flow_of_empty_EX {s : State} (hEX : s.slotEX = none)
    (afterID : ∀ L, s.slotID = some L → s.pcBehindID = nextAddress L.pc)
    (afterIF : ∀ L, s.slotIF = some L → s.cursor = nextAddress L.pc)
    (hazardsID : ∀ L, s.slotID = some L →
      stallSuffices s.cfg.forwardingEnabled s.dataStall L none s.slotMEM) : s.Flow where
  operands := fun L h => by simp [hEX] at h
  prediction := fun L h => by simp [hEX] at h
  afterEX := fun L h => by simp [hEX] at h
  afterID := afterID
  afterIF := afterIF
  hazardsEX := fun L h => by simp [hEX] at h
  hazardsID := by rw [hEX]; exact hazardsID

theorem flow_of_empty {s : State} (hIF : s.slotIF = none) (hID : s.slotID = none)
    (hEX : s.slotEX = none) : s.Flow :=
  flow_of_empty_EX hEX (fun L h => by simp [hID] at h) (fun L h => by simp [hIF] at h)
    fun L h => by simp [hID] at h

/-! ### Hazards follow the descriptors -/

/-- Every occupant of the slot `o'` has the descriptor of an occupant of `o`. -/
def descFrom (o' o : Option Latch) : Prop :=
  ∀ L', o' = some L' → ∃ L, o = some L ∧ L'.desc = L.desc

theorem descFrom_none (o : Option Latch) : descFrom none o := fun _ h => nomatch h

theorem descFrom_some {L' L : Latch} (h : L'.desc = L.desc) : descFrom (some L') (some L) :=
  fun _ hL => ⟨L, rfl, Option.some.inj hL ▸ h⟩

/-- Equal program entries have equal descriptors (R37). -/
theorem descFrom_of_map_eq {o' o : Option Latch}
    (h : o'.map (fun L => (L.idx, L.pc, L.word)) = o.map (fun L => (L.idx, L.pc, L.word))) :
    descFrom o' o := by
  rintro L' rfl
  obtain ⟨L, hL, he⟩ := Option.map_eq_some_iff.mp h.symm
  simp only [Prod.mk.injEq] at he
  obtain ⟨hidx, hpc, hword⟩ := he
  exact ⟨L, hL, by rw [Latch.desc, Latch.desc, hidx, hpc, hword]⟩

theorem backEnd_descFrom (s : State) (P1 P2 : Option Latch) :
    descFrom (backEnd P1 P2 s).1.slotMEM s.slotEX ∧
      descFrom (backEnd P1 P2 s).1.slotWB s.slotMEM :=
  ⟨descFrom_of_map_eq (backEnd_moves s P1 P2).1, descFrom_of_map_eq (backEnd_moves s P1 P2).2⟩

theorem stallSuffices_congr {f : Bool} {n : Nat} {C' C : Latch} {e' e p' p : Option Latch}
    (hC : C'.desc = C.desc) (he : descFrom e' e) (hp : descFrom p' p)
    (h : stallSuffices f n C e p) : stallSuffices f n C' e' p' := by
  unfold stallSuffices at *
  split at h
  · next hf =>
    rw [if_pos hf]
    intro P' hP' hload hc
    obtain ⟨P, hP, hd⟩ := he P' hP'
    exact h P hP (hd ▸ hload) ((conflicts_congr hd hC).mp hc)
  · next hf =>
    rw [if_neg hf]
    obtain ⟨hE, hM⟩ := h
    refine ⟨fun P' hP' hc => ?_, fun P' hP' hc => ?_⟩
    · obtain ⟨P, hP, hd⟩ := he P' hP'
      exact hE P hP ((conflicts_congr hd hC).mp hc)
    · obtain ⟨P, hP, hd⟩ := hp P' hP'
      exact hM P hP ((conflicts_congr hd hC).mp hc)

/-- When no stall is left to serve, the hazards are resolved (R248). -/
theorem operandsSafe_of_no_stall {f : Bool} {C : Latch} {e p : Option Latch}
    (h : stallSuffices f 0 C e p) : operandsSafe f C e p := by
  unfold stallSuffices at h
  unfold operandsSafe
  split at h
  · next hf =>
    rw [if_pos hf]
    exact fun P hP hload hc => absurd (h P hP hload hc) (by decide)
  · next hf =>
    rw [if_neg hf]
    obtain ⟨hE, hM⟩ := h
    exact ⟨fun P hP hc => absurd (hE P hP hc) (by decide),
      fun P hP hc => absurd (hM P hP hc) (by decide)⟩

/-- One tick of the data stall moves the producer in EX to MEM and leaves EX empty (R283). -/
theorem stallSuffices_countDown {f : Bool} {n : Nat} {C : Latch} {e p p' : Option Latch}
    (h : stallSuffices f n C e p) (hp : descFrom p' e) : stallSuffices f (n - 1) C none p' := by
  unfold stallSuffices at *
  split at h
  · next hf =>
    rw [if_pos hf]
    exact fun P hP => nomatch hP
  · next hf =>
    rw [if_neg hf]
    refine ⟨fun P hP => (nomatch hP), fun P' hP' hc => ?_⟩
    obtain ⟨P, hP, hd⟩ := hp P' hP'
    have := h.1 P hP ((conflicts_congr hd rfl).mp hc)
    omega

/-! ### The stall of the instruction that enters ID -/

/-- Behind an instruction that conflicts with a younger one stands its successor. -/
theorem predictedNext_of_conflicts {P C : Latch} (h : conflicts P C) :
    predictedNext P = nextAddress P.pc := by
  have hb : ¬ P.desc.isBranch = true := fun hb => not_conflicts_of_isBranch hb h
  simp [predictedNext, hb]

section
variable {s : State} (h : s.SeqInv) {C : Latch} (hC : s.slotIF = some C)
include h hC

/-- The instruction in IF is the successor of the one in ID. -/
theorem idx_IF_of_ID {D : Latch} (hD : s.slotID = some D) : C.idx = D.idx + 1 := by
  have hpc : C.pc = nextAddress D.pc := by
    have := h.flow.afterID D hD
    rwa [pcBehindID_eq, hC] at this
  exact idx_of_next h.fits (h.inv.records .ID D hD) (h.inv.records .IF C hC) hpc

/-- An instruction in EX that conflicts with the one in IF is one or two entries before it. -/
theorem idx_IF_of_EX {P : Latch} (hP : s.slotEX = some P) (hconf : conflicts P C) :
    C.idx = P.idx + 1 ∨ C.idx = P.idx + 2 := by
  have hnext := (h.flow.afterEX P hP).trans (predictedNext_of_conflicts hconf)
  have hok := h.inv.records .EX P hP
  rw [pcBehindEX_eq] at hnext
  cases hID : s.slotID with
  | none =>
    rw [hID, hC] at hnext
    exact .inl (idx_of_next h.fits hok (h.inv.records .IF C hC) hnext)
  | some D =>
    rw [hID] at hnext
    have hD := idx_of_next h.fits hok (h.inv.records .ID D hID) hnext
    exact .inr (by rw [idx_IF_of_ID h hC hID, hD])

/-- The static stall of the instruction in IF suffices behind what will then be in EX and MEM (R234,
R248). -/
theorem stallSuffices_of_IF :
    stallSuffices s.cfg.forwardingEnabled (s.hazard C.idx).stall C s.slotID s.slotEX := by
  have need : ∀ P d, s.recordOk P → (d = 1 ∨ d = 2) → C.idx = P.idx + d → conflicts P C →
      stallNeed s.cfg.forwardingEnabled P.desc.isLoad d ≤ (s.hazard C.idx).stall :=
    fun P d hP hd hidx hconf => stall_ge_need h.stalls hP (h.inv.records .IF C hC) d hd hidx hconf
  unfold stallSuffices
  split
  · next hf =>
    intro D hD hload hconf
    have := need D 1 (h.inv.records .ID D hD) (.inl rfl) (idx_IF_of_ID h hC hD) hconf
    rwa [hf, hload] at this
  · next hf =>
    rw [Bool.eq_false_iff.mpr hf] at need
    refine ⟨fun D hD hconf => ?_, fun P hP hconf => ?_⟩
    · exact need D 1 (h.inv.records .ID D hD) (.inl rfl) (idx_IF_of_ID h hC hD) hconf
    · have hok := h.inv.records .EX P hP
      rcases idx_IF_of_EX h hC hP hconf with hidx | hidx
      · exact Nat.le_of_succ_le (need P 1 hok (.inl rfl) hidx hconf)
      · exact need P 2 hok (.inr rfl) hidx hconf

end

/-! ### The stages keep the flow -/

/-- Behind the instruction in ID, once IF is empty, stands what the cursor named, fetched or not. -/
theorem fetch_pcBehindID {s : State} (h : s.slotIF = none) : (fetch s).pcBehindID = s.cursor := by
  rcases fetch_cases s with e | ⟨k, w, -, -, -, e⟩
  · rw [e, pcBehindID_eq, h]
  · rw [e, pcBehindID_eq]

/-- A fetch moves the cursor on to the next address (R294). -/
theorem fetch_afterIF {s : State} (h : s.slotIF = none) {L : Latch} (hL : (fetch s).slotIF = some L) :
    (fetch s).cursor = nextAddress L.pc := by
  rcases fetch_cases s with e | ⟨k, w, -, -, -, e⟩
  · rw [e, h] at hL; cases hL
  · rw [e] at hL ⊢
    cases hL
    rfl

/-- Entering ID and fetching leave behind EX what stood there. -/
theorem fetch_enterID_pcBehindEX {s : State} (h : s.slotID = none) :
    (fetch (enterID s)).pcBehindEX = s.pcBehindEX := by
  rw [fetch_pcBehindEX _ (enterID_slotIF s)]
  cases hI : s.slotIF with
  | none => rw [enterID_empty hI]
  | some L => rw [enterID_occupied hI, pcBehindEX_eq, pcBehindEX_eq, h, hI]

/-- The fetch stage of a full tick keeps the flow, when the static stall of the instruction that enters
ID suffices. -/
theorem fetch_enterID_flow {s : State} (h : s.Flow) (hID : s.slotID = none) (hd : s.dataStall = 0)
    (hstall : ∀ C, s.slotIF = some C →
      stallSuffices s.cfg.forwardingEnabled (s.hazard C.idx).stall C s.slotEX s.slotMEM) :
    (fetch (enterID s)).Flow where
  operands := fun L hL => by
    have hreg : ∀ r, (fetch (enterID s)).readReg r = s.readReg r := readReg_congr (by simp)
    rw [hreg, hreg]
    exact h.operands L (by simpa using hL)
  prediction := fun L hL => h.prediction L (by simpa using hL)
  afterEX := fun L hL => by
    rw [fetch_enterID_pcBehindEX hID]
    exact h.afterEX L (by simpa using hL)
  afterID := fun L hL => by
    rw [fetch_slotID] at hL
    rw [fetch_pcBehindID (enterID_slotIF s), enterID_cursor]
    cases hI : s.slotIF with
    | none => rw [enterID_empty hI, hID] at hL; cases hL
    | some C =>
      rw [enterID_occupied hI] at hL
      cases hL
      exact h.afterIF C hI
  afterIF := fun L => fetch_afterIF (enterID_slotIF s)
  hazardsEX := by simpa using h.hazardsEX
  hazardsID := fun L hL => by
    rw [fetch_slotID] at hL
    simp only [fetch_cfg, fetch_dataStall, fetch_slotEX, fetch_slotMEM]
    cases hI : s.slotIF with
    | none => rw [enterID_empty hI, hID] at hL; cases hL
    | some C =>
      have hcount : (enterID s).dataStall = (s.hazard C.idx).stall := by
        rw [enterID_occupied hI]
        simp only [hd]
        split <;> omega
      rw [hcount, enterID_cfg, enterID_slotEX, enterID_slotMEM]
      rw [enterID_occupied hI] at hL
      cases hL
      exact hstall C hI

/-- What is fetched after an instruction as ID leaves it (R262, R292). -/
theorem predictedNext_decoded (s : State) (L : Latch) :
    predictedNext (decoded s L) =
      if L.desc.isBranch && (decoded s L).predTaken then (decoded s L).predTarget
      else nextAddress L.pc := by
  rw [predictedNext, decoded_desc, decoded_eq]
  cases L.desc.isBranch <;> cases predict s.cfg.branchPredictionMode s.bpCounter <;> rfl

/-- The predicted target of a branch is what is fetched after it (R262). -/
theorem predTarget_decoded (s : State) (L : Latch) (hb : L.desc.isBranch = true) :
    (decoded s L).predTarget = predictedNext (decoded s L) := by
  rw [predictedNext_decoded, decoded_eq, hb]
  cases predict s.cfg.branchPredictionMode s.bpCounter <;> rfl

theorem operandsSafe_congr {f : Bool} {C' C : Latch} {P1 P2 : Option Latch} (h : C'.desc = C.desc) :
    operandsSafe f C' P1 P2 ↔ operandsSafe f C P1 P2 := by
  simp only [operandsSafe, conflicts, h]

/-- A state whose EX holds an instruction as ID left it, and whose ID is empty. -/
theorem flow_of_decoded {s t : State} {L : Latch} (hEX : t.slotEX = some (decoded s L))
    (hID : t.slotID = none) (hregs : t.regs = s.regs)
    (hnext : t.pcBehindEX = predictedNext (decoded s L))
    (hIF : ∀ C, t.slotIF = some C → t.cursor = nextAddress C.pc)
    (hsafe : operandsSafe t.cfg.forwardingEnabled L t.slotMEM t.slotWB) : t.Flow where
  operands := fun M hM => by
    cases hEX.symm.trans hM
    rw [readReg_congr hregs, readReg_congr hregs, decoded_desc, decoded_eq]
    exact ⟨rfl, rfl⟩
  prediction := fun M hM hb => by
    cases hEX.symm.trans hM
    exact predTarget_decoded s L (decoded_desc s L ▸ hb)
  afterEX := fun M hM => by
    cases hEX.symm.trans hM
    exact hnext
  afterID := fun M hM => by simp [hID] at hM
  afterIF := hIF
  hazardsEX := fun M hM => by
    cases hEX.symm.trans hM
    exact (operandsSafe_congr (decoded_desc s L)).mpr hsafe
  hazardsID := fun M hM => by simp [hID] at hM

/-- The decode stage keeps the flow, when the hazards of the instruction in ID are resolved. -/
theorem doID_flow {w : State × Bool} (h : w.1.Flow)
    (hsafe : ∀ L, w.1.slotID = some L →
      operandsSafe w.1.cfg.forwardingEnabled L w.1.slotMEM w.1.slotWB) : (doID w).1.Flow := by
  cases hs : w.1.slotID with
  | none => rwa [doID_empty hs]
  | some L =>
    have hnext := predictedNext_decoded w.1 L
    rw [doID_occupied hs]
    split
    · next htaken =>
      rw [if_pos htaken] at hnext
      exact flow_of_decoded rfl rfl rfl hnext.symm (fun _ hC => nomatch hC) (hsafe L hs)
    · next htaken =>
      rw [if_neg htaken] at hnext
      exact flow_of_decoded rfl rfl rfl ((h.afterID L hs).trans hnext.symm) h.afterIF (hsafe L hs)

/-- The occupant of ID goes on to EX (R292). -/
theorem doID_descFrom {w : State × Bool} (h : w.1.slotEX = none) :
    descFrom (doID w).1.slotEX w.1.slotID := by
  cases hs : w.1.slotID with
  | none => rw [doID_empty hs, h]; exact descFrom_none _
  | some L =>
    have hdesc : descFrom (some (decoded w.1 L)) (some L) := descFrom_some (decoded_desc w.1 L)
    rw [doID_occupied hs]
    split <;> exact hdesc

/-- Without a redirect from ID the occupant of IF stays (R292). -/
theorem doID_slotIF_of_no_redirect {w : State × Bool} (h : (doID w).2 = false) :
    (doID w).1.slotIF = w.1.slotIF := by
  cases hs : w.1.slotID with
  | none => rw [doID_empty hs]
  | some L =>
    rw [doID_occupied hs] at h ⊢
    split at h
    · cases h
    · next hn => rw [if_neg hn]

/-- The back end flushes ID or leaves it alone. -/
theorem slotID_of_backEnd {s : State} {P1 P2 : Option Latch} {L : Latch}
    (h : (backEnd P1 P2 s).1.slotID = some L) : s.slotID = some L := by
  obtain ⟨-, ⟨-, -, hID, -⟩ | ⟨-, -, -, hID, -⟩⟩ := backEnd_cases s P1 P2
  · exact hID.symm.trans h
  · rw [hID] at h; cases h

/-- The back end of a tick keeps the flow: it leaves the young half alone, one stall served, or flushes
it. -/
theorem backEnd_flow {s : State} (h : s.Flow) {n m : Nat} (hn : n = s.dataStall - 1) :
    (backEnd s.slotMEM s.slotWB { s with dataStall := n, mispStall := m }).1.Flow := by
  subst hn
  have hmoves :=
    (backEnd_descFrom { s with dataStall := s.dataStall - 1, mispStall := m } s.slotMEM s.slotWB).1
  have hcfg : (backEnd s.slotMEM s.slotWB
      { s with dataStall := s.dataStall - 1, mispStall := m }).1.cfg = s.cfg := by simp [backEnd]
  obtain ⟨hEX, ⟨-, hIF, hID, hdata, -, hcursor⟩ | ⟨-, -, hIF, hID, -⟩⟩ :=
    backEnd_cases { s with dataStall := s.dataStall - 1, mispStall := m } s.slotMEM s.slotWB
  · refine flow_of_empty_EX hEX (fun L hL => ?_) (fun L hL => ?_) (fun L hL => ?_)
    · rw [← h.afterID L (hID.symm.trans hL), pcBehindID_eq, pcBehindID_eq, hIF, hcursor]
    · rw [hcursor]
      exact h.afterIF L (hIF.symm.trans hL)
    · rw [hcfg, hdata]
      exact stallSuffices_countDown (h.hazardsID L (hID.symm.trans hL)) hmoves
  · exact flow_of_empty hIF hID hEX

/-- The decode and fetch stages of a full tick keep the flow. -/
theorem fullTick_flow {s : State} (h : s.SeqInv) (hd : s.dataStall = 0) :
    (doIF (doID (backEnd s.slotMEM s.slotWB s))).Flow := by
  have hb := backEnd_cases s s.slotMEM s.slotWB
  have hflow := backEnd_flow h.flow (n := s.dataStall) (m := s.mispStall) (by omega)
  obtain ⟨hMEM, hWB⟩ := backEnd_descFrom s s.slotMEM s.slotWB
  have hinputs : (backEnd s.slotMEM s.slotWB s).1.cfg = s.cfg ∧
      (backEnd s.slotMEM s.slotWB s).1.prog = s.prog ∧
      (backEnd s.slotMEM s.slotWB s).1.params = s.params := by simp [backEnd]
  have hID := fun L => slotID_of_backEnd (s := s) (P1 := s.slotMEM) (P2 := s.slotWB) (L := L)
  generalize backEnd s.slotMEM s.slotWB s = b at *
  obtain ⟨hcfg, hprog, hparams⟩ := hinputs
  have hdecoded : (doID b).1.Flow := by
    refine doID_flow hflow fun L hL => ?_
    have hstall := h.flow.hazardsID L (hID L hL)
    rw [hd] at hstall
    rw [hcfg]
    exact operandsSafe_of_no_stall (stallSuffices_congr rfl hMEM hWB hstall)
  unfold doIF
  split
  · exact hdecoded
  · next hw =>
    have hw := Bool.eq_false_iff.mpr hw
    obtain ⟨hEX, ⟨-, hIF, hID, hdata, -⟩ | ⟨hredirect, -⟩⟩ := hb
    · refine fetch_enterID_flow hdecoded (doID_slotID b) ((doID_dataStall b).trans (hdata.trans hd))
        fun C hC => ?_
      have hC : s.slotIF = some C := by rwa [doID_slotIF_of_no_redirect hw, hIF] at hC
      have hhazard : (doID b).1.hazard C.idx = s.hazard C.idx :=
        hazard_congr (by simp [hprog]) (by simp [hcfg]) (by simp [hparams]) C.idx
      rw [hhazard, doID_cfg, hcfg, doID_slotMEM]
      exact stallSuffices_congr rfl (hID ▸ doID_descFrom hEX) hMEM (stallSuffices_of_IF h hC)
    · rw [doID_wire_of_redirected hredirect] at hw
      cases hw

/-- A tick keeps the flow. -/
theorem advance_flow {s : State} (h : s.SeqInv) : (advance s).Flow := by
  rcases Nat.eq_zero_or_pos s.dataStall with hd | hd
  · rcases Nat.eq_zero_or_pos s.mispStall with hm | hm
    · rw [advance_full hd hm]
      exact fullTick_flow h hd
    · rw [advance_mispStall hd hm]
      exact backEnd_flow h.flow (by omega)
  · rw [advance_dataStall hd]
    exact backEnd_flow h.flow rfl

theorem tickBody_programFits {s : State} (h : s.programFits) : (tickBody s).programFits := by
  obtain ⟨hprog, -, hparams⟩ := advance_inputs s
  rwa [State.programFits, tickBody, conclude_prog, conclude_params, hprog, hparams]

/-- A tick of a running machine keeps the sequential invariant. -/
theorem tickBody_seqInv {s : State} (h : s.SeqInv) (hrun : s.mode = .running) :
    (tickBody s).SeqInv := by
  obtain ⟨-, hcfg, -⟩ := advance_inputs s
  refine (conclude_flow (advance_flow h)).seqInv ?_ (tickBody_programFits h.fits)
    (tickBody_inv h.inv (by simp [hrun]))
  rw [conclude_cfg, hcfg]
  exact h.stalls

/-! ### With EX empty nothing is executed -/

/-- With EX empty, a tick only begins to complete what stands in MEM and WB. -/
theorem tick_drain_of_empty_EX {s : State} (h : s.slotEX = none) :
    sameData s.drain (tickBody s).drain := by
  have hback : (backEnd s.slotMEM s.slotWB s).1 = doMEM (doWB s) := by
    rw [backEnd, doEX_empty (by simp [h])]
  have hdone : (doMEM (doWB s)).drain = s.drain := by
    show doWB (doMEM (doWB (doMEM (doWB s)))) = _
    rw [doMEM_empty (s := doWB _) (by simp)]
    exact doWB_empty (by simp)
  have hadvance := drain_congr ((advance_sameData s).trans (conclude_sameData _))
  rwa [hback, hdone] at hadvance

theorem tick_archPc_of_empty_EX {s : State} (h : s.slotEX = none) :
    (tickBody s).archPc = s.archPc := by
  have hback : ∀ u : State, u.slotEX = s.slotEX → u.cfg = s.cfg →
      (backEnd s.slotMEM s.slotWB u).2 = false :=
    fun u hEX _ => backEnd_of_empty_EX (hEX.trans h) _ _
  rw [tickBody, conclude_archPc, advance_archPc s hback, archPc_eq s, h]

/-! ### With EX occupied the sequential machine makes the same step -/

/-- The sequential machine is at the instruction in EX. -/
theorem seqStep_arch {s : State} {L : Latch} (hL : s.slotEX = some L) (hok : s.recordOk L) :
    seqStep s.arch = some (exec (decodeWord L.word) s.arch) := by
  have hok' : s.arch.recordOk L :=
    recordOk_congr (by simp [State.arch, State.drain]) (by simp [State.arch, State.drain]) hok
  simp [seqStep, arch_cursor_of_occupied hL, hok'.index, hok'.word]

/-- With its hazards resolved, the instruction in EX receives for each register it uses the value once
MEM and WB have completed (R248). -/
theorem forward_of_operandsSafe {s : State} {L : Latch} {r : Reg}
    (hsafe : operandsSafe s.cfg.forwardingEnabled L s.slotMEM s.slotWB)
    (hr : r ∈ sourceFields L.instr) :
    forward s.cfg.forwardingEnabled r (s.readReg r) s.slotMEM s.slotWB = s.drain.readReg r := by
  by_cases h0 : r = 0#5
  · subst h0; simp
  have hread : r ∈ L.desc.reads := (mem_readSet _ r).mpr ⟨h0, hr⟩
  have hdest : ∀ P : Latch, ¬ conflicts P L → P.desc.dest ≠ some r :=
    fun P hn hd => hn ⟨r, hd, hread⟩
  obtain ⟨hon, hoff⟩ := deliveredOperandIsTheSequentialValue s r
  unfold operandsSafe at hsafe
  cases hf : s.cfg.forwardingEnabled with
  | true =>
    rw [if_pos hf] at hsafe
    exact hon hf fun P hP hload => hdest P (hsafe P hP hload)
  | false =>
    rw [if_neg (by simp [hf])] at hsafe
    obtain ⟨hM, hW⟩ := hsafe
    exact hoff hf (fun P hP => hdest P (hM P hP)) fun P hP => hdest P (hW P hP)

/-- A branch that does not redirect had its outcome predicted (R266, R290). -/
theorem predTaken_of_no_redirect {s : State} {L : Latch} {taken : Bool} {tgt : Word}
    (h : (steerEX s L (.branch taken tgt)).2 = false) : L.predTaken = taken := by
  simp only [steerEX, resolve] at h
  split at h
  · cases h
  · next hm =>
    simp only [mispredicted, Bool.or_eq_true, bne_iff_ne, not_or, not_not] at hm
    exact hm.1

/-- Without a redirect from EX, what was predicted to follow the instruction does follow it (R289,
R290). -/
theorem predictedNext_of_no_redirect {s : State} {L : Latch} {a b : Word}
    (h : (steerEX s L ((ruleOf L.instr).ex L.pc a b).steer).2 = false) :
    predictedNext L = ((ruleOf L.instr).ex L.pc a b).steer.next L.pc := by
  by_cases hjump : L.desc.isJump = true
  · obtain ⟨tgt, htgt⟩ := steer_of_isJump L hjump L.pc a b
    rw [htgt] at h
    cases h
  by_cases hbranch : L.desc.isBranch = true
  · obtain ⟨taken, tgt, hsteer, hstatic⟩ := steer_of_isBranch L hbranch L.pc a b
    have htarget : L.desc.target = some tgt := hstatic
    rw [hsteer] at h ⊢
    have htaken : L.predTaken = taken := predTaken_of_no_redirect h
    simp [predictedNext, hbranch, htarget, htaken, Steer.next]
  · have hcontrol : (kindOf L.instr).isControl = false :=
      (isControl_eq_isBranch_or_isJump L.desc).trans (by simp [hbranch, hjump])
    rw [ruleOf_steer_fallThrough L.instr hcontrol]
    simp [predictedNext, hbranch, Steer.next]

/-- A tick in which EX redirects leaves to execute next the address redirected to. -/
theorem advance_archPc_of_redirect {s : State} {L : Latch} (hL : s.slotEX = some L)
    (h : (steerEX s L (exOut s s.slotMEM s.slotWB L).steer).2 = true) :
    (advance s).archPc = (exOut s s.slotMEM s.slotWB L).steer.next L.pc := by
  obtain ⟨hIF, hID, hEX, hcursor⟩ := advance_of_redirect s
    ((exOut s s.slotMEM s.slotWB L).steer.next L.pc) fun u hEX hcfg => by
      rw [backEnd_occupied (hEX.trans hL), exOut_congr hcfg]
      have hu := (steerEX_redirects_congr s (doMEM (doWB u)) L _).trans h
      exact ⟨hu, steerEX_cursor_of_redirect hu⟩
  rw [archPc_eq, hEX, pcBehindEX_eq, hID, hIF, hcursor]

/-- A tick in which EX does not redirect leaves to execute next what stood behind EX. -/
theorem advance_archPc_of_no_redirect {s : State} {L : Latch} (hL : s.slotEX = some L)
    (h : (steerEX s L (exOut s s.slotMEM s.slotWB L).steer).2 = false) :
    (advance s).archPc = s.pcBehindEX := by
  refine advance_archPc s fun u hEX hcfg => ?_
  rw [backEnd_occupied (hEX.trans hL), exOut_congr hcfg]
  exact (steerEX_redirects_congr s _ L _).trans h

/-- After a tick the next instruction to execute is the successor of the one that was in EX. -/
theorem tick_archPc_of_occupied {s : State} (h : s.Flow) {L : Latch} (hL : s.slotEX = some L) :
    (tickBody s).archPc = (exOut s s.slotMEM s.slotWB L).steer.next L.pc := by
  rw [tickBody, conclude_archPc]
  cases hw : (steerEX s L (exOut s s.slotMEM s.slotWB L).steer).2 with
  | true => exact advance_archPc_of_redirect hL hw
  | false =>
    rw [advance_archPc_of_no_redirect hL hw, h.afterEX L hL]
    exact predictedNext_of_no_redirect hw

/-- The sequential machine's step on the instruction in EX is its rule run at once on the delivered
operands. -/
theorem seqStep_runs_rule {s : State} (h : s.SeqInv) {L : Latch} (hL : s.slotEX = some L) :
    seqStep s.arch = some (.next (runRule (ruleOf L.instr) (deliveredA s s.slotMEM s.slotWB L)
      (deliveredB s s.slotMEM s.slotWB L) s.arch)) := by
  obtain ⟨hA, hB⟩ := h.operands L hL
  have hsafe := h.hazardsEX L hL
  rw [seqStep_arch hL (h.inv.records .EX L hL)]
  refine congrArg some (exec_decodeWord L.word s.arch _ _ (fun hr => ?_) (fun hr => ?_))
  · rw [deliveredA, hA]
    exact forward_of_operandsSafe hsafe hr
  · rw [deliveredB, hB]
    exact forward_of_operandsSafe hsafe hr

/-- Settles O57: the tick keeps the invariant; with EX empty it only completes older instructions, and
with an instruction in EX it runs that instruction's rule on the sequential machine's values and leaves
its successor to execute next. -/
theorem stepRefinesTheSequentialMachine : Obligations.StepRefinesTheSequentialMachine := by
  intro s t h hrun hstep
  cases (step_running hrun).symm.trans hstep
  refine ⟨tickBody_seqInv h hrun, fun hEX => ?_, fun hne => ?_⟩
  · have hdrain := tick_drain_of_empty_EX hEX
    exact ⟨hdrain.regs, hdrain.mem, tick_archPc_of_empty_EX hEX⟩
  · obtain ⟨L, hL⟩ := Option.ne_none_iff_exists'.mp hne
    obtain ⟨hregs, hmem⟩ := tick_drain_runs_rule hL
    refine ⟨_, seqStep_runs_rule h hL, hregs, hmem, ?_⟩
    rw [runRule_cursor, arch_cursor_of_occupied hL]
    exact tick_archPc_of_occupied h.flow hL

end Sys2Proof.Machine
end

section
/-! PROOFS. The branch predictor and the decode stage (O30, O31, O38): the counter one state at a time,
and the prediction of a branch as it leaves ID (spec rules R261 to R266, R292). -/

namespace Sys2Proof.Machine

/-! ### The predictor (R261, R263, R265, R266) -/

/-- A taken outcome moves the counter up, and 3 is its upper end. -/
theorem toNat_update_true (c : BpCounter) : (c.update true).toNat = min (c.toNat + 1) 3 := by
  cases c <;> rfl

/-- A not taken outcome moves the counter down, and 0 is its lower end. -/
theorem toNat_update_false (c : BpCounter) : (c.update false).toNat = c.toNat - 1 := by
  cases c <;> rfl

/-- Settles O30: the modes as they are defined, and the two directions of the counter. -/
theorem predictorModesAndCounter : Obligations.PredictorModesAndCounter := fun c _ =>
  ⟨rfl, rfl, rfl, decide_eq_true_iff, rfl, rfl, rfl, rfl, toNat_update_true c, toNat_update_false c⟩

theorem mispredicted_iff (predTaken : Bool) (predTarget : Word) (taken : Bool) (actual : Word) :
    mispredicted predTaken predTarget taken actual = true ↔
      predTaken ≠ taken ∨ predTaken = true ∧ predTarget ≠ actual := by
  simp [mispredicted]

/-- A prediction of the branch's own target or of its successor is wrong only in the outcome. -/
theorem mispredicted_own_target_iff (predTaken taken : Bool) (target next : Word) :
    mispredicted predTaken (if predTaken then target else next) taken
        (if taken then target else next) = true ↔ predTaken ≠ taken := by
  rw [mispredicted_iff]
  cases predTaken <;> cases taken <;> simp

/-! ### The record that leaves ID (R262, R292) -/

theorem decoded_operands (s : State) (L : Latch) :
    (decoded s L).opA = s.readReg (rsField L.word) ∧
      (decoded s L).opB = s.readReg (rtField L.word) := by
  rw [decoded_eq]
  exact ⟨rfl, rfl⟩

theorem decoded_predTaken {s : State} {L : Latch} (hb : L.desc.isBranch = true) :
    (decoded s L).predTaken = predict s.cfg.branchPredictionMode s.bpCounter := by
  rw [decoded_eq]
  exact if_pos hb

theorem decoded_predTarget {s : State} {L : Latch} (hb : L.desc.isBranch = true) {tgt : Word}
    (htgt : L.desc.target = some tgt) :
    (decoded s L).predTarget =
      if predict s.cfg.branchPredictionMode s.bpCounter then tgt else nextAddress L.pc := by
  rw [decoded_eq, htgt]
  exact if_pos hb

/-- Settles O31: the predicted target is the static one, which is where a taken branch goes. -/
theorem mispredictionIsAWrongOutcome : Obligations.MispredictionIsAWrongOutcome := by
  intro s L taken hb
  obtain ⟨tgt, htgt⟩ := target_of_isBranch L hb
  rw [decoded_predTaken hb, decoded_predTarget hb htgt, htgt]
  exact mispredicted_own_target_iff _ taken tgt (nextAddress L.pc)

/-! ### The decode stage (R292) -/

/-- A branch predicted taken sends the cursor to its target and discards the occupant of IF. -/
theorem doID_of_predicted_taken {w : State × Bool} {L : Latch} (h : w.1.slotID = some L)
    (hb : L.desc.isBranch = true) (ht : (decoded w.1 L).predTaken = true) :
    doID w = ({ w.1 with
      slotEX := some (decoded w.1 L), slotID := none
      cursor := (decoded w.1 L).predTarget, slotIF := none }, true) := by
  rw [doID_occupied h, hb, ht]
  rfl

/-- Every other instruction only moves on. -/
theorem doID_of_not_predicted_taken {w : State × Bool} {L : Latch} (h : w.1.slotID = some L)
    (hn : L.desc.isBranch = false ∨ (decoded w.1 L).predTaken = false) :
    doID w = ({ w.1 with slotEX := some (decoded w.1 L), slotID := none }, w.2) := by
  rw [doID_occupied h]
  rcases hn with hn | hn <;> simp [hn]

/-- In both cases the record that leaves ID is in EX. -/
theorem doID_slotEX {w : State × Bool} {L : Latch} (h : w.1.slotID = some L) :
    (doID w).1.slotEX = some (decoded w.1 L) := by
  rw [doID_occupied h]
  split <;> rfl

/-- Settles O38: the record that leaves ID, and the redirect of a branch predicted taken. -/
theorem decodeStage : Obligations.DecodeStage := by
  intro s L hL t
  obtain ⟨hA, hB⟩ := decoded_operands s L
  refine ⟨decoded s L, doID_slotEX (w := (s, false)) hL, doID_slotID _, decoded_idx s L,
    by rw [decoded_eq], by rw [decoded_eq], hA, hB,
    fun hb => ⟨decoded_predTaken hb, fun ht => ?_, fun hn => ?_⟩, fun hn => ?_⟩
  · obtain ⟨tgt, htgt⟩ := target_of_isBranch L hb
    have htarget : (decoded s L).predTarget = tgt := by
      rw [decoded_predTarget hb htgt, ← decoded_predTaken hb, if_pos ht]
    rw [show t = _ from congrArg Prod.fst (doID_of_predicted_taken (w := (s, false)) hL hb ht),
      doID_of_predicted_taken (w := (s, false)) hL hb ht]
    exact ⟨htgt.trans (congrArg some htarget.symm), rfl, rfl, rfl⟩
  · obtain ⟨tgt, htgt⟩ := target_of_isBranch L hb
    rw [decoded_predTarget hb htgt, ← decoded_predTaken hb, hn]
    rfl
  · rw [show t = _ from congrArg Prod.fst (doID_of_not_predicted_taken (w := (s, false)) hL hn),
      doID_of_not_predicted_taken (w := (s, false)) hL hn]
    exact ⟨rfl, rfl, rfl⟩

end Sys2Proof.Machine
end

section
/-! PROOFS. Write-back, memory and execute (O33 to O36): what each stage does to the record in it, by the
opcode or the kind of its word (spec rules R182 to R190, R286 to R291). -/

namespace Sys2Proof.Machine

/-! ### WB and MEM (R286, R288) -/

/-- Settles O33: a destination is written, no destination writes nothing. -/
theorem writebackStage : Obligations.WritebackStage := by
  refine fun s => ⟨doWB_empty, fun L hL => ⟨fun hdest => ?_, fun r hdest => ?_⟩⟩ <;>
    rw [doWB_occupied hL, hdest] <;> rfl

section
variable {s : State} {L : Latch} (hL : s.slotMEM = some L)
include hL

theorem doMEM_of_pass (h : (ruleOf L.instr).mem = .pass) :
    doMEM s = { s with slotWB := some { L with wbValue := L.result }, slotMEM := none } := by
  rw [doMEM_occupied hL, h]
  rfl

theorem doMEM_of_load {w : Width} {signed : Bool} (h : (ruleOf L.instr).mem = .load w signed) :
    doMEM s = { s with
      slotWB := some { L with wbValue := extendLoaded w signed (s.memRead w L.result) }
      slotMEM := none } := by
  rw [doMEM_occupied hL, h]
  rfl

theorem doMEM_of_store {w : Width} (h : (ruleOf L.instr).mem = .store w) :
    doMEM s = { s.memWrite w L.result L.storeVal with
      slotWB := some { L with wbValue := L.result }, slotMEM := none } := by
  rw [doMEM_occupied hL, h]
  rfl

end

/-- The memory work of each load and store, by opcode (R97, R182 to R190). -/
theorem ruleOf_mem_of_op (w : Word) :
    let m := (ruleOf (decodeWord w)).mem
    (opField w = 0x20#6 → m = .load .byte true) ∧ (opField w = 0x21#6 → m = .load .half true) ∧
      (opField w = 0x23#6 → m = .load .word false) ∧ (opField w = 0x24#6 → m = .load .byte false) ∧
      (opField w = 0x25#6 → m = .load .half false) ∧ (opField w = 0x28#6 → m = .store .byte) ∧
      (opField w = 0x29#6 → m = .store .half) ∧ (opField w = 0x2B#6 → m = .store .word) := by
  refine ⟨?_, ?_, ?_, ?_, ?_, ?_, ?_, ?_⟩ <;> intro h <;> simp only [decodeWord, h] <;> rfl

/-- Settles O34: the memory work of the opcode, done on the record. -/
theorem memoryStage : Obligations.MemoryStage := by
  refine fun s => ⟨doMEM_empty, fun L hL => ?_⟩
  obtain ⟨hlb, hlh, hlw, hlbu, hlhu, hsb, hsh, hsw⟩ := ruleOf_mem_of_op L.word
  exact ⟨kindOf_decodeWord_eq_load L.word, kindOf_decodeWord_eq_store L.word,
    fun h => doMEM_of_load hL (hlb h), fun h => doMEM_of_load hL (hlh h),
    fun h => doMEM_of_load hL (hlw h), fun h => doMEM_of_load hL (hlbu h),
    fun h => doMEM_of_load hL (hlhu h), fun h => doMEM_of_store hL (hsb h),
    fun h => doMEM_of_store hL (hsh h), fun h => doMEM_of_store hL (hsw h),
    fun hl hs => doMEM_of_pass hL (ruleOf_mem_pass L.instr hl hs)⟩

/-! ### What EX computes, by kind (R289) -/

/-- A load computes its effective address. -/
theorem ruleOf_ex_load {w : Word} (h : kindOf (decodeWord w) = .load) (pc a b : Word) :
    ((ruleOf (decodeWord w)).ex pc a b).result = a + signImm (imm16Field w) := by
  have hop := (kindOf_decodeWord_eq_load w).mp h
  simp only [List.mem_cons, List.not_mem_nil, or_false] at hop
  rcases hop with h | h | h | h | h <;> simp only [decodeWord, h] <;> rfl

/-- A store computes its effective address and takes its data from `rt`. -/
theorem ruleOf_ex_store {w : Word} (h : kindOf (decodeWord w) = .store) (pc a b : Word) :
    ((ruleOf (decodeWord w)).ex pc a b).result = a + signImm (imm16Field w) ∧
      ((ruleOf (decodeWord w)).ex pc a b).storeVal = some b := by
  have hop := (kindOf_decodeWord_eq_store w).mp h
  simp only [List.mem_cons, List.not_mem_nil, or_false] at hop
  rcases hop with h | h | h <;> simp only [decodeWord, h] <;> exact ⟨rfl, rfl⟩

/-- A branch, `jr` and `unsupported` have no result. -/
theorem ruleOf_ex_result_zero {i : Instr}
    (h : kindOf i = .conditionalBranch ∨ kindOf i = .jumpRegister ∨ kindOf i = .unsupported)
    (pc a b : Word) : ((ruleOf i).ex pc a b).result = 0#32 := by
  cases i <;> first | rfl | simp [kindOf] at h

/-- A word with a static target has one of four opcodes (R128). -/
theorem opField_mem_of_target {w pc tgt : Word} (h : staticTarget pc (decodeWord w) = some tgt) :
    opField w ∈ [0x02#6, 0x03#6, 0x04#6, 0x05#6] := by
  by_contra hop
  rw [staticTarget_decodeWord_eq_none hop] at h
  cases h

/-- The branches are two opcodes (R97). -/
theorem instr_of_isBranch {L : Latch} (hb : L.desc.isBranch = true) :
    opField L.word = 0x04#6 ∧
        L.instr = .beq (rsField L.word) (rtField L.word) (imm16Field L.word) ∨
      opField L.word ≠ 0x04#6 ∧
        L.instr = .bne (rsField L.word) (rtField L.word) (imm16Field L.word) := by
  have hkind : kindOf (decodeWord L.word) = .conditionalBranch := beq_iff_eq.mp hb
  obtain ⟨tgt, htgt⟩ := target_of_isBranch L hb
  have hop := opField_mem_of_target htgt
  simp only [List.mem_cons, List.not_mem_nil, or_false] at hop
  rcases hop with hop | hop | hop | hop
  · rw [decodeWord_j hop] at hkind; cases hkind
  · rw [decodeWord_jal hop] at hkind; cases hkind
  · exact .inl ⟨hop, by simp [Latch.instr, decodeWord, hop]⟩
  · exact .inr ⟨by simp [hop], by simp [Latch.instr, decodeWord, hop]⟩

/-- Of the two jumps with a static target `jal` has opcode 3 and leaves its link (R204, R205). -/
theorem ruleOf_ex_jump {w : Word} (h : kindOf (decodeWord w) = .jump) (pc a b : Word) :
    ((ruleOf (decodeWord w)).ex pc a b).result =
      if opField w = 0x03#6 then nextAddress pc else 0#32 := by
  obtain ⟨tgt, -, htgt⟩ := ruleOf_steer_jump h pc a b
  have hop := opField_mem_of_target htgt
  simp only [List.mem_cons, List.not_mem_nil, or_false] at hop
  rcases hop with hop | hop | hop | hop
  · rw [decodeWord_j hop, hop]; rfl
  · rw [decodeWord_jal hop, hop]; rfl
  all_goals simp [decodeWord, hop, kindOf] at h

/-- Settles O35: EX records what the rule of the instruction computes, which the kind decides. -/
theorem executeStageRecord : Obligations.ExecuteStageRecord := by
  intro s P1 P2 L hL
  rw [doEX_occupied hL]
  refine ⟨executed L (exOut s P1 P2 L), rfl, rfl, rfl, rfl, rfl, fun h => ruleOf_ex_load h .., ?_,
    fun h => ruleOf_ex_result_zero (.inl h) .., fun h => ruleOf_ex_jump h ..,
    fun h => ruleOf_ex_result_zero (.inr (.inl h)) ..,
    fun h => ruleOf_ex_result_zero (.inr (.inr h)) .., fun _ => rfl⟩
  intro h
  obtain ⟨haddr, hdata⟩ := ruleOf_ex_store h L.pc (deliveredA s P1 P2 L) (deliveredB s P1 P2 L)
  exact ⟨haddr, congrArg (Option.getD · L.storeVal) hdata⟩

/-! ### Branch resolution (R290, R291) -/

/-- A branch steers by the comparison of its delivered operands, to its static target. -/
theorem exOut_steer_of_branch (s : State) (P1 P2 : Option Latch) {L : Latch}
    (hb : L.desc.isBranch = true) :
    let a := deliveredA s P1 P2 L
    let b := deliveredB s P1 P2 L
    (exOut s P1 P2 L).steer =
      .branch (if opField L.word = 0x04#6 then decide (a = b) else decide (a ≠ b))
        (branchTarget L.pc (imm16Field L.word)) := by
  intro a b
  rw [exOut]
  rcases instr_of_isBranch hb with ⟨hop, hi⟩ | ⟨hop, hi⟩
  · rw [hi, if_pos hop]; rfl
  · rw [hi, if_neg hop, decide_not]; rfl

section
variable (s : State) {L : Latch} {taken : Bool} {target actual : Word}
  (hactual : (Steer.branch taken target).next L.pc = actual)
include hactual

/-- A misprediction counts, loads the penalty and redirects. -/
theorem resolve_of_mispredicted
    (h : L.predTaken ≠ taken ∨ L.predTaken = true ∧ L.predTarget ≠ actual) :
    resolve s L taken target =
      (redirect { s with
        bpCounter := counterAfter s.cfg.branchPredictionMode s.bpCounter taken
        missCount := s.missCount + 1, mispStall := s.params.mispredictPenalty } actual, true) := by
  subst hactual
  exact if_pos ((mispredicted_iff ..).mpr h)

/-- A branch predicted right moves the predictor counter only. -/
theorem resolve_of_predicted
    (h : ¬ (L.predTaken ≠ taken ∨ L.predTaken = true ∧ L.predTarget ≠ actual)) :
    resolve s L taken target =
      ({ s with bpCounter := counterAfter s.cfg.branchPredictionMode s.bpCounter taken }, false) := by
  subst hactual
  exact if_neg (mt (mispredicted_iff ..).mp h)

end

/-- Settles O36: EX resolves the branch by its comparison, and the two cases of `resolve` are the
misprediction and its complement. -/
theorem branchResolution : Obligations.BranchResolution := by
  intro s P1 P2 L hL hb a b taken actual t
  have hsteer := exOut_steer_of_branch s P1 P2 hb
  have hactual : (Steer.branch taken (branchTarget L.pc (imm16Field L.word))).next L.pc = actual := rfl
  have hdoEX : doEX P1 P2 s =
      ({ (resolve s L taken (branchTarget L.pc (imm16Field L.word))).1 with
          slotMEM := some (executed L (exOut s P1 P2 L)), slotEX := none },
        (resolve s L taken (branchTarget L.pc (imm16Field L.word))).2) := by
    rw [doEX_occupied hL, hsteer]
    rfl
  have htaken : (executed L (exOut s P1 P2 L)).taken = taken := by
    simp only [executed, hsteer]
    rfl
  by_cases hmiss : L.predTaken ≠ taken ∨ L.predTaken = true ∧ L.predTarget ≠ actual
  · rw [resolve_of_mispredicted s hactual hmiss] at hdoEX
    rw [show t = _ from congrArg Prod.fst hdoEX, hdoEX]
    refine ⟨rfl, ⟨_, rfl, htaken⟩, fun _ => ⟨rfl, rfl, rfl, rfl, rfl, rfl, rfl⟩, fun h1 h2 => ?_⟩
    rcases hmiss with h | ⟨hp, ht⟩
    · exact absurd h1 h
    · exact absurd (h2 hp) ht
  · rw [resolve_of_predicted s hactual hmiss] at hdoEX
    rw [show t = _ from congrArg Prod.fst hdoEX, hdoEX]
    exact ⟨rfl, ⟨_, rfl, htaken⟩, fun h => absurd h hmiss,
      fun _ _ => ⟨rfl, rfl, rfl, rfl, rfl, rfl, rfl⟩⟩

end Sys2Proof.Machine
end

section
/-! PROOFS. The fetch stage and the ticks (O32, O39 to O44, O54, O60): what enters ID and what is
fetched, then the three kinds of tick and their conclusion (spec rules R27, R281 to R298). -/

namespace Sys2Proof.Machine

/-! ### The fetch stage (R293, R294) -/

/-- Settles O39: a stall count that is not zero replaces the data stall. -/
theorem enteringIDArmsTheStall : Obligations.EnteringIDArmsTheStall := by
  intro s L hL h
  rw [enterID_occupied hL]
  have hcount : (if 0 < h then h else s.dataStall) = if h = 0 then s.dataStall else h := by
    split <;> split <;> first | rfl | omega
  exact congrArg (fun n => { s with
    slotID := some { L with stall := h }, slotIF := none, dataStall := n }) hcount

/-- The entry at the cursor is fetched when it is not in flight. -/
theorem fetch_of_entry {s : State} {k : Nat} {w : Word} (hk : s.indexOf s.cursor = some k)
    (hw : s.prog[k]? = some w) (hf : s.inFlight k = false) :
    fetch s = { s with
      slotIF := some { idx := k, pc := s.cursor, word := w }
      cursor := nextAddress s.cursor } := by
  simp [fetch, hk, hw, hf]

/-- Nothing is fetched when the cursor names no entry, or one in flight. -/
theorem fetch_of_blocked {s : State}
    (h : ∀ k, s.indexOf s.cursor = some k → s.inFlight k = true) : fetch s = s := by
  rcases fetch_cases s with e | ⟨k, w, hk, -, hf, -⟩
  · exact e
  · rw [h k hk] at hf
    cases hf

/-- Settles O40, with `index_of` as an equation between addresses and the interlock slot by slot. -/
theorem fetchFollowsTheCursor : Obligations.FetchFollowsTheCursor := by
  refine fun s => ⟨fun k w hw hcursor hfree => ⟨_, rfl, rfl, rfl, fetch_of_entry ?_ hw ?_⟩,
    fun hblocked => fetch_of_blocked fun k hk => ?_⟩
  · obtain ⟨hlt, -⟩ := List.getElem?_eq_some_iff.mp hw
    exact (indexOf_eq_some s _ k).mpr ⟨hlt, hcursor⟩
  · rw [← Bool.not_eq_true, inFlight_iff]
    rintro ⟨S, L, hS, hL, hidx⟩
    exact hfree S L hS hL hidx
  · obtain ⟨hlt, hcursor⟩ := (indexOf_eq_some s _ k).mp hk
    exact (inFlight_iff s k).mpr (hblocked k hlt hcursor)

/-! ### Every tick (R281, R283 to R288) -/

/-- Settles O32: no stage of a tick writes an input, and a tick acts in `Running` only. -/
theorem stepAnswersNextAndKeepsTheInputs : Obligations.StepAnswersNextAndKeepsTheInputs := by
  intro s
  by_cases hrun : s.mode = .running
  · obtain ⟨hprog, hcfg, hparams⟩ := advance_inputs s
    exact ⟨_, step_running hrun, fun h => absurd hrun h, (conclude_prog _).trans hprog,
      (conclude_cfg _).trans hcfg, (conclude_params _).trans hparams⟩
  · exact ⟨s, step_not_running hrun, fun _ => rfl, rfl, rfl, rfl⟩

/-- Settles O54: with EX empty a tick only begins to complete what stands in MEM and WB. -/
theorem stepWithEmptyEXExecutesNothing : Obligations.StepWithEmptyEXExecutesNothing := by
  intro s t hEX hstep
  by_cases hrun : s.mode = .running
  · cases (step_running hrun).symm.trans hstep
    have hdrain := tick_drain_of_empty_EX hEX
    exact ⟨hdrain.regs, hdrain.mem⟩
  · cases (step_not_running hrun).symm.trans hstep
    exact ⟨rfl, rfl⟩

/-! ### The stall ticks (R283, R284) -/

/-- The occupants of EX and MEM advance with their program indices. -/
theorem backEnd_moves_idx (s : State) (P1 P2 : Option Latch) :
    (backEnd P1 P2 s).1.slotMEM.map (·.idx) = s.slotEX.map (·.idx) ∧
      (backEnd P1 P2 s).1.slotWB.map (·.idx) = s.slotMEM.map (·.idx) := by
  obtain ⟨hMEM, hWB⟩ := backEnd_moves s P1 P2
  have hMEM := congrArg (Option.map Prod.fst) hMEM
  have hWB := congrArg (Option.map Prod.fst) hWB
  rw [Option.map_map, Option.map_map] at hMEM hWB
  exact ⟨hMEM, hWB⟩

/-- Settles O41: the tick is the back end alone, which leaves the young half alone or flushes it. -/
theorem dataStallTick : Obligations.DataStallTick := by
  intro s t hrun hd hstep redirected
  cases (step_running hrun).symm.trans hstep
  obtain ⟨hMEM, hWB⟩ :=
    backEnd_moves_idx { s with dataStall := s.dataStall - 1 } s.slotMEM s.slotWB
  obtain ⟨hEX, hcases⟩ :=
    backEnd_cases { s with dataStall := s.dataStall - 1 } s.slotMEM s.slotWB
  simp only [advance_dataStall hd, conclude_slotIF, conclude_slotID, conclude_slotEX,
    conclude_slotMEM, conclude_slotWB, conclude_cursor, conclude_dataStall]
  refine ⟨hEX, hMEM, hWB, fun hr => ?_, fun hr => ?_⟩
  · obtain ⟨-, hIF, hID, hdata, -, hcursor⟩ | ⟨hw, -⟩ := hcases
    · exact ⟨hIF, hID, hcursor, hdata⟩
    · cases hw.symm.trans hr
  · obtain ⟨hw, -⟩ | ⟨-, hne, hIF, hID, hdata, -⟩ := hcases
    · cases hw.symm.trans hr
    · exact ⟨Option.isSome_iff_ne_none.mpr hne, hIF, hID, hdata⟩

/-- Settles O42: IF, ID and EX are empty, so the back end has nothing to redirect. -/
theorem mispredictionStallTick : Obligations.MispredictionStallTick := by
  intro s t h hrun hm hstep
  cases (step_running hrun).symm.trans hstep
  obtain ⟨hd, hIF, hID, hEX⟩ := h.mispStall_active hm
  obtain ⟨hMEM, hWB⟩ :=
    backEnd_moves_idx { s with mispStall := s.mispStall - 1 } s.slotMEM s.slotWB
  have hquiet := backEnd_of_empty_EX (s := { s with mispStall := s.mispStall - 1 }) hEX
    s.slotMEM s.slotWB
  simp only [advance_mispStall hd hm, conclude_slotIF, conclude_slotID, conclude_slotEX,
    conclude_slotMEM, conclude_slotWB, conclude_cursor, conclude_mispStall]
  obtain ⟨hEX', ⟨-, hIF', hID', -, hmisp, hcursor⟩ | ⟨hw, -⟩⟩ :=
    backEnd_cases { s with mispStall := s.mispStall - 1 } s.slotMEM s.slotWB
  · refine ⟨hmisp, hcursor, hIF'.trans hIF, hID'.trans hID, hEX', ?_, hWB⟩
    simpa [hEX] using hMEM
  · cases hw.symm.trans hquiet

/-! ### The full tick (R282, R292 to R295) -/

/-- A tick with a redirect ends with IF empty: EX flushed it, or ID discarded it. -/
theorem doID_slotIF_of_redirect {w : State × Bool} (hw : w.2 = true → w.1.slotIF = none)
    (h : (doID w).2 = true) : (doID w).1.slotIF = none := by
  cases hs : w.1.slotID with
  | none =>
    rw [doID_empty hs] at h ⊢
    exact hw h
  | some L =>
    rw [doID_occupied hs] at h ⊢
    split at h
    · next hc => rw [if_pos hc]
    · next hc =>
      rw [if_neg hc]
      exact hw h

/-- Settles O43: with a redirect the fetch stage does nothing, and the stall counters were clear. -/
theorem redirectWinsOverFetch : Obligations.RedirectWinsOverFetch := by
  intro s t hrun hd hm hstep w hw
  cases (step_running hrun).symm.trans hstep
  have hadvance : advance s = w.1 := (advance_full hd hm).trans (if_pos hw)
  have hback := (backEnd_cases s s.slotMEM s.slotWB).2
  rw [hadvance]
  refine ⟨(conclude_slotIF _).trans (doID_slotIF_of_redirect (fun hr => ?_) hw),
    (conclude_slotID _).trans (doID_slotID _),
    (conclude_dataStall _).trans ((doID_dataStall _).trans ?_), conclude_cursor _⟩
  · obtain ⟨hf, -⟩ | ⟨-, -, hIF, -⟩ := hback
    · cases hf.symm.trans hr
    · exact hIF
  · obtain ⟨-, -, -, hdata, -⟩ | ⟨-, -, -, -, hdata, -⟩ := hback
    · exact hdata.trans hd
    · exact hdata

/-- Without a redirect from ID, EX did not redirect either and the cursor stands where EX left it. -/
theorem doID_of_no_redirect {w : State × Bool} (h : (doID w).2 = false) :
    w.2 = false ∧ (doID w).1.cursor = w.1.cursor := by
  refine ⟨Bool.eq_false_iff.mpr fun hw => ?_, ?_⟩
  · cases (doID_wire_of_redirected hw).symm.trans h
  · cases hs : w.1.slotID with
    | none => rw [doID_empty hs]
    | some L =>
      rw [doID_occupied hs] at h ⊢
      split at h
      · cases h
      · next hn => rw [if_neg hn]

/-- The program entry of a record (R37). -/
def Latch.entry (L : Latch) : Nat × Word × Word := (L.idx, L.pc, L.word)

/-- The occupant of ID goes on to an empty EX as the same program entry (R292). -/
theorem doID_moves {w : State × Bool} (h : w.1.slotEX = none) :
    (doID w).1.slotEX.map Latch.entry = w.1.slotID.map Latch.entry := by
  cases hs : w.1.slotID with
  | none => rw [doID_empty hs, h]
  | some L =>
    rw [doID_slotEX hs, decoded_eq]
    rfl

/-- The occupant of IF goes on to an empty ID as the same program entry (R293). -/
theorem enterID_moves {s : State} (h : s.slotID = none) :
    (enterID s).slotID.map Latch.entry = s.slotIF.map Latch.entry := by
  cases hs : s.slotIF with
  | none => rw [enterID_empty hs, h]
  | some L =>
    rw [enterID_occupied hs]
    rfl

/-- What the fetch stage of a full tick without a redirect starts from: what EX and ID left. -/
structure noRedirect (s u : State) : Prop where
  advance_eq : advance s = fetch (enterID u)
  prog : u.prog = s.prog
  cfg : u.cfg = s.cfg
  params : u.params = s.params
  slotIF : u.slotIF = s.slotIF
  slotID : u.slotID = none
  slotEX : u.slotEX.map Latch.entry = s.slotID.map Latch.entry
  slotMEM : u.slotMEM.map Latch.entry = s.slotEX.map Latch.entry
  slotWB : u.slotWB.map Latch.entry = s.slotMEM.map Latch.entry
  cursor : u.cursor = s.cursor
  dataStall : u.dataStall = 0
  mispStall : u.mispStall = 0

theorem fullTick_of_no_redirect {s : State} (hd : s.dataStall = 0) (hm : s.mispStall = 0)
    (h : (doID (backEnd s.slotMEM s.slotWB s)).2 = false) :
    noRedirect s (doID (backEnd s.slotMEM s.slotWB s)).1 := by
  obtain ⟨hw, hcursor⟩ := doID_of_no_redirect h
  obtain ⟨hMEM, hWB⟩ := backEnd_moves s s.slotMEM s.slotWB
  obtain ⟨hEX, ⟨-, hIF, hID, hdata, hmisp, hcursor'⟩ | ⟨hr, -⟩⟩ :=
    backEnd_cases s s.slotMEM s.slotWB
  · exact {
      advance_eq := (advance_full hd hm).trans (if_neg (by simp [h]))
      prog := by simp [backEnd]
      cfg := by simp [backEnd]
      params := by simp [backEnd]
      slotIF := (doID_slotIF_of_no_redirect h).trans hIF
      slotID := doID_slotID _
      slotEX := (doID_moves hEX).trans (congrArg _ hID)
      slotMEM := (congrArg _ (doID_slotMEM _)).trans hMEM
      slotWB := (congrArg _ (doID_slotWB _)).trans hWB
      cursor := hcursor.trans hcursor'
      dataStall := (doID_dataStall _).trans (hdata.trans hd)
      mispStall := (doID_mispStall _).trans (hmisp.trans hm) }
  · cases hr.symm.trans hw

/-- Fetching fills no slot but IF. -/
theorem fetch_slot_of_ne_IF (s : State) {S : Stage} (h : S ≠ .IF) :
    (fetch s).slot S = s.slot S := by
  cases S
  case IF => exact absurd rfl h
  all_goals simp [State.slot]

@[simp] theorem conclude_slot (s : State) (S : Stage) : (conclude s).slot S = s.slot S := by
  cases S <;> simp [State.slot]

/-- Settles O60: the back end, ID and IF each move their occupant on, and what is fetched is what
`fetch` brings in after the movement. -/
theorem fullTickMovesEveryStage : Obligations.FullTickMovesEveryStage := by
  intro s t hrun hd hm hstep entry hw
  cases (step_running hrun).symm.trans hstep
  have hu := fullTick_of_no_redirect hd hm hw
  generalize (doID (backEnd s.slotMEM s.slotWB s)).1 = u at hu
  have hhazard := hazard_congr hu.prog hu.cfg hu.params
  have hbehind : ∀ S, S ≠ .IF → (conclude (advance s)).slot S = (enterID u).slot S :=
    fun S hS => by rw [conclude_slot, hu.advance_eq, fetch_slot_of_ne_IF _ hS]
  obtain ⟨hfetch, hblocked⟩ := fetchFollowsTheCursor (enterID u)
  rw [show entry = Latch.entry from rfl]
  simp only [enterID_prog, enterID_params, enterID_cursor, hu.prog, hu.params, hu.cursor]
    at hfetch hblocked
  refine ⟨?_, ?_, ?_, ?_, fun L hL => ?_, fun hIF => ?_, ?_, fun k w hk hcursor hfree => ?_,
    fun hbusy => ?_⟩
  · simpa [hu.advance_eq] using hu.slotWB
  · simpa [hu.advance_eq] using hu.slotMEM
  · simpa [hu.advance_eq] using hu.slotEX
  · simpa [hu.advance_eq, hu.slotIF] using enterID_moves hu.slotID
  · have henter := enteringIDArmsTheStall u L (hu.slotIF.trans hL)
    simp only [hu.advance_eq, conclude_dataStall, fetch_dataStall, henter, hu.dataStall, hhazard]
    split <;> simp_all
  · simpa [hu.advance_eq, enterID_empty (hu.slotIF.trans hIF)] using hu.dataStall
  · simpa [hu.advance_eq] using hu.mispStall
  · obtain ⟨M, rfl, hpc, rfl, hM⟩ := hfetch k w hk hcursor fun S L hS hL =>
      hfree S L hS ((hbehind S hS).trans hL)
    rw [conclude_slotIF, conclude_cursor, hu.advance_eq, hM, ← hpc]
    exact ⟨rfl, rfl⟩
  · have hsame := hblocked fun k hk hcursor => by
      obtain ⟨S, L, hS, hL, hidx⟩ := hbusy k hk hcursor
      exact ⟨S, L, hS, (hbehind S hS).symm.trans hL, hidx⟩
    rw [conclude_slotIF, conclude_cursor, hu.advance_eq, hsame]
    exact ⟨enterID_slotIF u, (enterID_cursor u).trans hu.cursor⟩

/-! ### The end of a tick (R297, R298) -/

theorem pastEnd_iff (s : State) (a : Word) : s.pastEnd a = true ↔
    s.prog.length = 0 ∨ s.params.programBase.toNat + 4 * (s.prog.length - 1) < a.toNat :=
  decide_eq_true_iff

/-- Settles O44: `conclude` finishes the run under its one condition, and counts the tick otherwise. -/
theorem finishRule : Obligations.FinishRule := by
  intro s t hrun hstep
  cases (step_running hrun).symm.trans hstep
  have hmode := (advance_mode s).trans hrun
  have hcycle := advance_cycle s
  simp only [conclude_slot, conclude_prog, conclude_params, conclude_cursor, ← empty_iff,
    ← pastEnd_iff, ← Bool.and_eq_true_iff]
  cases hend : (advance s).empty && (advance s).pastEnd (advance s).cursor with
  | true =>
    obtain ⟨hempty, hpast⟩ := Bool.and_eq_true_iff.mp hend
    rw [conclude_finishes hempty hpast]
    exact ⟨iff_of_true rfl rfl, fun _ => hcycle, fun h => absurd rfl h⟩
  | false =>
    rw [conclude_continues hend]
    have hne : (advance s).mode ≠ .finished := by simp [hmode]
    exact ⟨iff_of_false hne (by decide), fun h => absurd h hne,
      fun _ => ⟨hmode, congrArg (· + 1) hcycle⟩⟩

end Sys2Proof.Machine
end

section
/-! PROOFS. Completion and stale operands (O17, O56), and the reset state (O46, O47): spec rules R20 to
R49, R330, R331, R360 to R362, R374. -/

namespace Sys2Proof.Machine

/-- Settles O17: the meaning of every instruction is its rule run at once. -/
theorem everyInstructionCompletes : Obligations.EveryInstructionCompletes := by
  intro i s
  obtain ⟨a, b, h, -⟩ := exec_eq_runRule i s
  exact ⟨_, h⟩

/-- Behind a load in MEM the mux delivers what stands in WB, or the register file's content (R374). -/
theorem forward_behind_load {r : Reg} {v : Word} {P : Latch} (hP : P.desc.isLoad = true)
    (P2 : Option Latch) :
    (∀ Q, P2 = some Q → Q.desc.dest = some r → forward true r v (some P) P2 = Q.wbValue) ∧
      ((∀ Q, P2 = some Q → Q.desc.dest ≠ some r) → forward true r v (some P) P2 = v) := by
  have hload : ∀ M, some P = some M → M.desc.dest = some r → M.desc.isLoad = true := by
    rintro M ⟨⟩ -
    exact hP
  refine ⟨?_, forward_none r v hload⟩
  rintro Q rfl hdest
  have hr : r ≠ 0#5 := by
    rintro rfl
    exact destination_ne_zero _ hdest
  exact forward_far hr v hload hdest

/-- What the mux delivers when hazards are ignored, for a register read in ID (R374). -/
theorem forward_stale (s : State) (r : Reg) :
    let delivered := forward s.cfg.forwardingEnabled r (s.readReg r) s.slotMEM s.slotWB
    (s.cfg.forwardingEnabled = false → delivered = s.readReg r) ∧
      (s.cfg.forwardingEnabled = true → ∀ P, s.slotMEM = some P → P.desc.isLoad = true →
        (∀ Q, s.slotWB = some Q → Q.desc.dest = some r → delivered = Q.wbValue) ∧
        ((∀ Q, s.slotWB = some Q → Q.desc.dest ≠ some r) → delivered = s.readReg r)) := by
  intro delivered
  refine ⟨fun hoff => ?_, fun hon P hP hload => ?_⟩
  · simp only [delivered, hoff, forward_off]
  · simp only [delivered, hon, hP]
    exact forward_behind_load hload s.slotWB

/-- Settles O56: both operands are what the mux delivers for a value read in ID. -/
theorem staleOperandsAreDeterministic : Obligations.StaleOperandsAreDeterministic := by
  refine fun s L _ => ⟨fun hA => ?_, fun hB => ?_⟩
  · rw [deliveredA, hA]
    exact forward_stale s (rsField L.word)
  · rw [deliveredB, hB]
    exact forward_stale s (rtField L.word)

/-! ### The reset state (R49, R360) -/

/-- Every register is 0 but the stack pointer; register 0 reads 0 even when it is the stack pointer. -/
theorem initial_readReg (p : Params) (cfg : Configuration) (prog : List Word) (mode : Mode) (r : Reg) :
    (State.initial p cfg prog mode).readReg r =
      if r = 0#5 then 0#32 else if r = p.spReg then p.spInit else 0#32 := by
  have hsp : p.spReg.toNat = r.toNat ↔ r = p.spReg := by
    rw [BitVec.toNat_inj, eq_comm]
  simp only [State.readReg, State.initial, resetRegs, Vector.getElem_set, hsp,
    Vector.getElem_replicate]

/-- The predictor counter starts at the end the configuration names (R264). -/
theorem initialCounter_eq (i : InitialPrediction) :
    initialCounter i = if i = .taken then .stronglyTaken else .stronglyNotTaken := by
  cases i <;> rfl

/-- Settles O46: both commands give the reset state with the parameters and configuration of before. -/
theorem resetAndSubmitState : Obligations.ResetAndSubmitState := by
  refine fun s p => ⟨?_, rfl, rfl, rfl, rfl⟩
  intro t ht
  obtain ⟨prog, mode, rfl⟩ : ∃ prog mode, t = State.initial s.params s.cfg prog mode := by
    simp only [List.mem_cons, List.not_mem_nil, or_false] at ht
    rcases ht with rfl | rfl <;> exact ⟨_, _, rfl⟩
  exact ⟨initial_readReg _ _ _ _, fun _ => rfl, rfl, initial_slot _ _ _ _, rfl, rfl, rfl, rfl,
    initialCounter_eq _, rfl, rfl⟩

/-- Settles O47: power-on is the reset state with the default parameters and configuration. -/
theorem powerOnState : Obligations.PowerOnState := by
  refine ⟨fun r => ?_, rfl, rfl, rfl, initial_slot _ _ _ _, rfl, rfl, rfl, rfl, rfl, rfl, rfl, rfl,
    rfl, rfl, rfl, rfl, rfl, rfl, rfl, rfl, rfl⟩
  have hread := initial_readReg Params.default Configuration.powerOn [] .paused r
  by_cases hr : r = 0#5
  · subst hr
    exact hread
  · rw [if_neg hr] at hread
    exact hread

end Sys2Proof.Machine
end

section
/-! PROOFS. Whole runs against the sequential machine (O58): the sequential machine looks at registers,
memory, counter, program and parameters only, each tick makes one of its steps or none, and after
finitely many ticks that make none an instruction is in EX or the run is finished (spec rules R298,
R372). -/

namespace Sys2Proof.Machine

/-! ### What the sequential machine depends on (R372) -/

/-- Equal in everything the sequential machine looks at. -/
structure sameSeq (s t : State) : Prop where
  arch : sameArch s t
  prog : s.prog = t.prog
  params : s.params = t.params

theorem sameSeq.refl (s : State) : sameSeq s s := ⟨⟨rfl, rfl, rfl⟩, rfl, rfl⟩

theorem sameSeq.symm {s t : State} (h : sameSeq s t) : sameSeq t s := by
  obtain ⟨⟨hregs, hmem, hcursor⟩, hprog, hparams⟩ := h
  exact ⟨⟨hregs.symm, hmem.symm, hcursor.symm⟩, hprog.symm, hparams.symm⟩

theorem sameSeq.trans {s t u : State} (h : sameSeq s t) (h' : sameSeq t u) : sameSeq s u := by
  obtain ⟨⟨hregs, hmem, hcursor⟩, hprog, hparams⟩ := h
  obtain ⟨⟨hregs', hmem', hcursor'⟩, hprog', hparams'⟩ := h'
  exact ⟨⟨hregs.trans hregs', hmem.trans hmem', hcursor.trans hcursor'⟩, hprog.trans hprog',
    hparams.trans hparams'⟩

/-- `index_of` and `past_end` depend on the program and the parameters only (R27). -/
theorem indexOf_pastEnd_congr {s t : State} (hprog : s.prog = t.prog) (hparams : s.params = t.params)
    (a : Word) : s.indexOf a = t.indexOf a ∧ s.pastEnd a = t.pastEnd a := by
  unfold State.indexOf State.pastEnd State.programLength
  rw [hprog, hparams]
  exact ⟨rfl, rfl⟩

theorem sameSeq.indexOf {s t : State} (h : sameSeq s t) :
    s.indexOf s.cursor = t.indexOf t.cursor := by
  obtain ⟨⟨-, -, hcursor⟩, hprog, hparams⟩ := h
  rw [hcursor, (indexOf_pastEnd_congr hprog hparams _).1]

theorem sameSeq.pastEnd {s t : State} (h : sameSeq s t) :
    s.pastEnd s.cursor = t.pastEnd t.cursor := by
  obtain ⟨⟨-, -, hcursor⟩, hprog, hparams⟩ := h
  rw [hcursor, (indexOf_pastEnd_congr hprog hparams _).2]

theorem sameSeq.runRule {s t : State} (h : sameSeq s t) (rule : StageRule) (a b : Word) :
    sameSeq (runRule rule a b s) (runRule rule a b t) := by
  obtain ⟨⟨hregs, hmem, hcursor⟩, hprog, hparams⟩ := h
  obtain ⟨hr, hm⟩ := runRule_regs_mem rule a b s
  obtain ⟨hr', hm'⟩ := runRule_regs_mem rule a b t
  have hctl := runRule_sameControl rule a b s
  have hctl' := runRule_sameControl rule a b t
  rw [← hcursor] at hr' hm'
  refine ⟨⟨?_, ?_, by rw [runRule_cursor, runRule_cursor, hcursor]⟩,
    hctl.prog.trans (hprog.trans hctl'.prog.symm),
    hctl.params.trans (hparams.trans hctl'.params.symm)⟩
  · rw [hr, hr', memValue_congr hmem hparams]
    exact writeDest_regs_congr hregs _ _
  · rw [hm, hm']
    exact memAccess_mem_congr hmem hparams _ _ _

/-- The sequential machine's next state, with the word `w` at its counter. -/
def State.seqNext (s : State) (w : Word) : State :=
  runRule (ruleOf (decodeWord w)) (s.readReg (rsField w)) (s.readReg (rtField w)) s

theorem seqStep_of_word {s : State} {k : Nat} {w : Word} (hk : s.indexOf s.cursor = some k)
    (hw : s.prog[k]? = some w) : seqStep s = some (.next (s.seqNext w)) := by
  simp only [seqStep, hk, hw]
  exact congrArg some (exec_decodeWord w s _ _ (fun _ => rfl) fun _ => rfl)

/-- The sequential machine stops where its counter names no entry, and steps everywhere else. -/
theorem seqStep_cases (s : State) :
    s.indexOf s.cursor = none ∧ seqStep s = none ∨
      ∃ k w, s.indexOf s.cursor = some k ∧ s.prog[k]? = some w ∧
        seqStep s = some (.next (s.seqNext w)) := by
  cases hk : s.indexOf s.cursor with
  | none => exact .inl ⟨rfl, by simp [seqStep, hk]⟩
  | some k =>
    obtain ⟨hlt, -⟩ := (indexOf_eq_some s _ k).mp hk
    have hw := List.getElem?_eq_getElem hlt
    exact .inr ⟨k, _, rfl, hw, seqStep_of_word hk hw⟩

/-- Machines equal in what the sequential machine looks at make the same step. -/
theorem seqStep_next_congr {s t u : State} (h : sameSeq s t) (hs : seqStep s = some (.next u)) :
    ∃ v, seqStep t = some (.next v) ∧ sameSeq u v := by
  obtain ⟨-, hnone⟩ | ⟨k, w, hk, hw, hsome⟩ := seqStep_cases s
  · cases hnone.symm.trans hs
  · cases hsome.symm.trans hs
    have hread : ∀ r, s.readReg r = t.readReg r := readReg_congr h.arch.1
    refine ⟨_, seqStep_of_word (h.indexOf.symm.trans hk) (h.prog ▸ hw), ?_⟩
    rw [State.seqNext, State.seqNext, hread, hread]
    exact h.runRule _ _ _

/-- A step writes neither the program nor the parameters. -/
theorem seqStep_inputs {s u : State} (h : seqStep s = some (.next u)) :
    u.prog = s.prog ∧ u.params = s.params := by
  obtain ⟨-, hnone⟩ | ⟨k, w, -, -, hsome⟩ := seqStep_cases s
  · cases hnone.symm.trans h
  · cases hsome.symm.trans h
    have hctl := runRule_sameControl (ruleOf (decodeWord w)) (s.readReg (rsField w))
      (s.readReg (rtField w)) s
    exact ⟨hctl.prog, hctl.params⟩

theorem seqStep_eq_none {s : State} (h : s.indexOf s.cursor = none) : seqStep s = none := by
  obtain ⟨-, hnone⟩ | ⟨k, w, hk, -⟩ := seqStep_cases s
  · exact hnone
  · cases h.symm.trans hk

theorem indexOf_of_seqStep {s u : State} (h : seqStep s = some (.next u)) :
    s.indexOf s.cursor ≠ none := fun hk => by
  cases (seqStep_eq_none hk).symm.trans h

theorem seqRun_of_step {a v : State} (h : seqStep a = some (.next v)) (m : Nat) :
    seqRun (m + 1) a = seqRun m v := by
  simp [seqRun, h]

/-- A run of at least one step begins with a step. -/
theorem seqStep_of_seqRun {m : Nat} {a u : State} (h : seqRun (m + 1) a = some u) :
    ∃ v, seqStep a = some (.next v) ∧ seqRun m v = some u := by
  obtain ⟨-, hnone⟩ | ⟨k, w, -, -, hsome⟩ := seqStep_cases a
  · simp [seqRun, hnone] at h
  · exact ⟨_, hsome, (seqRun_of_step hsome m).symm.trans h⟩

/-! ### Ticks against steps -/

theorem ticks_add (n k : Nat) (s : State) : ticks (n + k) s = ticks k (ticks n s) := by
  induction n generalizing s with
  | zero => rw [Nat.zero_add]; rfl
  | succ n ih =>
    rw [Nat.succ_add]
    exact ih (tick s)

theorem tick_of_not_running {s : State} (h : s.mode ≠ .running) : tick s = s :=
  Host.Outcome.next.inj (step_not_running h)

theorem tick_inputs (s : State) :
    (tick s).prog = s.prog ∧ (tick s).cfg = s.cfg ∧ (tick s).params = s.params := by
  obtain ⟨t, ht, -, hinputs⟩ := stepAnswersNextAndKeepsTheInputs s
  cases ht
  exact hinputs

/-- A tick of a running machine leaves it running or finished. -/
theorem tick_mode {s : State} (hrun : s.mode = .running) :
    (tick s).mode = .finished ∨ (tick s).mode = .running := by
  obtain ⟨-, -, hcount⟩ := finishRule s (tick s) hrun rfl
  by_cases hf : (tick s).mode = .finished
  · exact .inl hf
  · exact .inr (hcount hf).1

@[simp] theorem arch_prog (s : State) : s.arch.prog = s.prog := by simp [State.arch, State.drain]

@[simp] theorem arch_params (s : State) : s.arch.params = s.params := by
  simp [State.arch, State.drain]

theorem tick_seqInv {s : State} (h : s.SeqInv) : (tick s).SeqInv := by
  by_cases hrun : s.mode = .running
  · exact (stepRefinesTheSequentialMachine s (tick s) h hrun rfl).1
  · rwa [tick_of_not_running hrun]

section
variable {s a : State} (h : s.SeqInv) (hrun : s.mode = .running) (ha : sameSeq s.arch a)
include h hrun ha

/-- With EX empty a tick makes no step of the sequential machine. -/
theorem tick_sameSeq_of_empty_EX (hEX : s.slotEX = none) : sameSeq (tick s).arch a := by
  obtain ⟨-, hstay, -⟩ := stepRefinesTheSequentialMachine s (tick s) h hrun rfl
  obtain ⟨hprog, -, hparams⟩ := tick_inputs s
  exact sameSeq.trans ⟨hstay hEX, by simpa using hprog, by simpa using hparams⟩ ha

/-- With an instruction in EX a tick makes one step of the sequential machine. -/
theorem tick_sameSeq_of_occupied (hEX : s.slotEX ≠ none) :
    ∃ v, seqStep a = some (.next v) ∧ sameSeq (tick s).arch v := by
  obtain ⟨-, -, hmove⟩ := stepRefinesTheSequentialMachine s (tick s) h hrun rfl
  obtain ⟨hprog, -, hparams⟩ := tick_inputs s
  obtain ⟨u, hu, hsame⟩ := hmove hEX
  obtain ⟨hprog', hparams'⟩ := seqStep_inputs hu
  obtain ⟨v, hv, huv⟩ := seqStep_next_congr ha hu
  refine ⟨v, hv, sameSeq.trans ⟨hsame, ?_, ?_⟩ huv⟩
  · rw [hprog', arch_prog, arch_prog, hprog]
  · rw [hparams', arch_params, arch_params, hparams]

end

/-- Any number of ticks makes some number of steps of the sequential machine. -/
theorem ticks_sameSeq {s a : State} (h : s.SeqInv) (ha : sameSeq s.arch a) (n : Nat) :
    (ticks n s).SeqInv ∧ ∃ m u, seqRun m a = some u ∧ sameSeq (ticks n s).arch u := by
  induction n generalizing s a with
  | zero => exact ⟨h, 0, a, rfl, ha⟩
  | succ n ih =>
    have h' := tick_seqInv h
    by_cases hrun : s.mode = .running
    · by_cases hEX : s.slotEX = none
      · exact ih h' (tick_sameSeq_of_empty_EX h hrun ha hEX)
      · obtain ⟨v, hv, hsame⟩ := tick_sameSeq_of_occupied h hrun ha hEX
        obtain ⟨hinv, m, u, hm, hu⟩ := ih h' hsame
        exact ⟨hinv, m + 1, u, (seqRun_of_step hv m).trans hm, hu⟩
    · exact ih h' (by rwa [tick_of_not_running hrun])

/-- With an empty pipeline the sequential machine's view is the state itself. -/
theorem arch_of_empty {s : State} (h : s.empty = true) : s.arch = s := by
  have hslot := (empty_iff s).mp h
  have hIF : s.slotIF = none := hslot .IF
  have hID : s.slotID = none := hslot .ID
  have hEX : s.slotEX = none := hslot .EX
  have hMEM : s.slotMEM = none := hslot .MEM
  have hWB : s.slotWB = none := hslot .WB
  have hdrain : s.drain = s := by
    rw [State.drain, doWB_empty hWB, doMEM_empty hMEM, doWB_empty hWB]
  have hpc : s.archPc = s.cursor := by rw [archPc_eq, hEX, pcBehindEX_eq, hID, hIF]
  rw [State.arch, hdrain, hpc]

/-- When the pipeline is finished, the sequential machine it agrees with has stopped past the end. -/
theorem seqStep_none_of_finished {s a : State} (h : s.SeqInv) (hfin : s.mode = .finished)
    (ha : sameSeq s.arch a) :
    seqStep a = none ∧ a.pastEnd a.cursor = true ∧ sameArch s a := by
  obtain ⟨hempty, hpast⟩ := h.inv.finished hfin
  rw [arch_of_empty hempty] at ha
  rw [ha.pastEnd] at hpast
  exact ⟨seqStep_eq_none (indexOf_of_pastEnd hpast), hpast, ha.arch⟩

/-! ### An instruction reaches EX, or the run finishes -/

/-- A bound on the ticks until an instruction is in EX or the run is finished, with EX empty: the data
stall of the instruction in ID; the largest one for an instruction in IF; with neither, the
misprediction stall and the stages that can hold up the fetch. -/
def State.distance (s : State) : Nat :=
  match s.slotID, s.slotIF with
  | some _, _ => s.dataStall + 1
  | none, some _ => 4
  | none, none =>
    5 + s.mispStall + (if s.slotMEM.isSome then 2 else 0) + (if s.slotWB.isSome then 1 else 0)

theorem distance_of_ID {s : State} {L : Latch} (h : s.slotID = some L) :
    s.distance = s.dataStall + 1 := by
  simp [State.distance, h]

theorem distance_of_IF {s : State} {L : Latch} (hID : s.slotID = none) (hIF : s.slotIF = some L) :
    s.distance = 4 := by
  simp [State.distance, hID, hIF]

theorem distance_of_empty {s : State} (hID : s.slotID = none) (hIF : s.slotIF = none) :
    s.distance = 5 + s.mispStall + (if s.slotMEM.isSome then 2 else 0) +
      (if s.slotWB.isSome then 1 else 0) := by
  simp [State.distance, hID, hIF]

/-- Slots with equal items are occupied alike. -/
theorem isSome_of_map_eq {α : Type} {f : Latch → α} {o o' : Option Latch}
    (h : o'.map f = o.map f) : o'.isSome = o.isSome := by
  simpa using congrArg Option.isSome h

/-- A misprediction-stall tick comes nearer: the count goes down and the pipeline drains. -/
theorem distance_lt_of_mispStall {s : State} (h : s.Inv) (hrun : s.mode = .running)
    (hm : 0 < s.mispStall) :
    (tick s).distance < s.distance := by
  obtain ⟨-, hIF, hID, -⟩ := h.mispStall_active hm
  obtain ⟨hmisp, -, hIF', hID', -, hMEM, hWB⟩ := mispredictionStallTick s (tick s) h hrun hm rfl
  rw [distance_of_empty hID hIF, distance_of_empty hID' hIF', hmisp, hMEM, isSome_of_map_eq hWB,
    Option.isSome_none]
  grind

/-- With EX and ID empty there is nothing that could redirect. -/
theorem no_redirect_of_empty {s : State} (hEX : s.slotEX = none) (hID : s.slotID = none) :
    (doID (backEnd s.slotMEM s.slotWB s)).2 = false := by
  have hquiet := backEnd_of_empty_EX hEX s.slotMEM s.slotWB
  obtain ⟨-, ⟨-, -, hID', -⟩ | ⟨hw, -⟩⟩ := backEnd_cases s s.slotMEM s.slotWB
  · rwa [doID_empty (hID'.trans hID)]
  · cases hw.symm.trans hquiet

section
variable {s : State} (hrun : s.mode = .running) (hEX : s.slotEX = none)
include hrun hEX

/-- A data-stall tick comes nearer: the count goes down. -/
theorem distance_lt_of_dataStall (h : s.Inv) (hd : 0 < s.dataStall) :
    (tick s).distance < s.distance := by
  obtain ⟨-, -, -, hquiet, -⟩ := dataStallTick s (tick s) hrun hd rfl
  obtain ⟨-, hID, -, hdata⟩ := hquiet
    (backEnd_of_empty_EX (s := { s with dataStall := s.dataStall - 1 }) hEX _ _)
  obtain ⟨-, hsome⟩ := h.dataStall_active hd
  obtain ⟨L, hL⟩ := Option.isSome_iff_exists.mp hsome
  rw [distance_of_ID hL, distance_of_ID (hID.trans hL), hdata]
  omega

section
variable (hd : s.dataStall = 0) (hm : s.mispStall = 0)
include hd hm

/-- In a full tick the instruction in ID goes on to EX, redirect or not. -/
theorem tick_slotEX_of_ID {L : Latch} (hID : s.slotID = some L) : (tick s).slotEX ≠ none := by
  have hquiet := backEnd_of_empty_EX hEX s.slotMEM s.slotWB
  obtain ⟨-, ⟨-, -, hID', -⟩ | ⟨hw, -⟩⟩ := backEnd_cases s s.slotMEM s.slotWB
  · have htick : tick s = conclude (advance s) := Host.Outcome.next.inj (step_running hrun)
    rw [htick, conclude_slotEX, advance_full hd hm, doIF_slotEX, doID_slotEX (hID'.trans hID)]
    exact Option.some_ne_none _
  · cases hw.symm.trans hquiet

section
variable (hID : s.slotID = none)
include hID

/-- The instruction in IF enters ID, with the data stall at most 2. -/
theorem distance_lt_of_IF {L : Latch} (hIF : s.slotIF = some L) :
    (tick s).distance < s.distance := by
  obtain ⟨-, -, -, tID, tdata, -⟩ :=
    fullTickMovesEveryStage s (tick s) hrun hd hm rfl (no_redirect_of_empty hEX hID)
  obtain ⟨M, hM, -⟩ := Option.map_eq_some_iff.mp (tID.trans (congrArg _ hIF))
  rw [distance_of_ID hM, distance_of_IF hID hIF, tdata L hIF]
  have := hazard_stall_le s L.idx
  omega

section
variable (hIF : s.slotIF = none)
include hIF

/-- With the young half empty an instruction in MEM goes on to WB, whether one is fetched or not. -/
theorem distance_lt_of_MEM {P : Latch} (hMEM : s.slotMEM = some P) :
    (tick s).distance < s.distance := by
  obtain ⟨-, tMEM, -, tID, -, -, tmisp, -⟩ :=
    fullTickMovesEveryStage s (tick s) hrun hd hm rfl (no_redirect_of_empty hEX hID)
  simp only [hIF, hEX, Option.map_none, Option.map_eq_none_iff] at tID tMEM
  rw [distance_of_empty hID hIF, hMEM, Option.isSome_some]
  cases hIF' : (tick s).slotIF with
  | some M => rw [distance_of_IF tID hIF']; omega
  | none =>
    rw [distance_of_empty tID hIF', tmisp, tMEM, Option.isSome_none]
    grind

/-- With MEM empty too nothing is left behind IF after the tick: past the end the run finishes, and an
entry the cursor names is fetched. -/
theorem full_tick_ends_or_fetches (hMEM : s.slotMEM = none)
    (hpc : s.indexOf s.cursor ≠ none ∨ s.pastEnd s.cursor = true) :
    (tick s).mode = .finished ∨ (tick s).distance < s.distance := by
  obtain ⟨tWB, tMEM, tEX, tID, -, -, -, tfetch, tblocked⟩ :=
    fullTickMovesEveryStage s (tick s) hrun hd hm rfl (no_redirect_of_empty hEX hID)
  simp only [hIF, hID, hEX, hMEM, Option.map_none, Option.map_eq_none_iff] at tID tEX tMEM tWB
  have hbehind : ∀ S, S ≠ .IF → (tick s).slot S = none := by
    intro S hS
    cases S with
    | IF => exact absurd rfl hS
    | ID => exact tID
    | EX => exact tEX
    | MEM => exact tMEM
    | WB => exact tWB
  rcases hpc with hentry | hpast
  · obtain ⟨k, hk⟩ := Option.ne_none_iff_exists'.mp hentry
    obtain ⟨hlt, hk⟩ := (indexOf_eq_some s _ k).mp hk
    obtain ⟨hfetched, -⟩ := tfetch k _ (List.getElem?_eq_getElem hlt) hk
      fun S L hS hL => by cases (hbehind S hS).symm.trans hL
    obtain ⟨M, hM, -⟩ := Option.map_eq_some_iff.mp hfetched
    rw [distance_of_IF tID hM, distance_of_empty hID hIF]
    exact .inr (by omega)
  · have hnone := indexOf_of_pastEnd hpast
    obtain ⟨tIF, tcursor⟩ := tblocked fun k hlt hk => by
      cases hnone.symm.trans ((indexOf_eq_some s _ k).mpr ⟨hlt, hk⟩)
    obtain ⟨hprog, -, hparams⟩ := tick_inputs s
    refine .inl ((finishRule s (tick s) hrun rfl).1.mpr ⟨fun S => ?_, ?_⟩)
    · by_cases hS : S = .IF
      · subst hS; exact tIF
      · exact hbehind S hS
    · rw [hprog, hparams, tcursor]
      exact (pastEnd_iff s _).mp hpast

end

/-- A full tick with EX and ID empty finishes the run or comes nearer to an instruction in EX. -/
theorem full_tick_progress (hpc : s.indexOf s.archPc ≠ none ∨ s.pastEnd s.archPc = true) :
    (tick s).mode = .finished ∨ (tick s).distance < s.distance := by
  cases hIF : s.slotIF with
  | some L => exact .inr (distance_lt_of_IF hrun hEX hd hm hID hIF)
  | none =>
    cases hMEM : s.slotMEM with
    | some P => exact .inr (distance_lt_of_MEM hrun hEX hd hm hID hIF hMEM)
    | none =>
      have hcursor : s.archPc = s.cursor := by rw [archPc_eq, hEX, pcBehindEX_eq, hID, hIF]
      rw [hcursor] at hpc
      exact full_tick_ends_or_fetches hrun hEX hd hm hID hIF hMEM hpc

end

end

/-- A tick with EX empty finishes the run, fills EX, or comes nearer to one of the two, when the next
instruction to execute is an entry of the program or past its end. -/
theorem tick_progress (h : s.Inv)
    (hpc : s.indexOf s.archPc ≠ none ∨ s.pastEnd s.archPc = true) :
    (tick s).mode = .finished ∨ (tick s).slotEX ≠ none ∨ (tick s).distance < s.distance := by
  rcases Nat.eq_zero_or_pos s.dataStall with hd | hd
  · rcases Nat.eq_zero_or_pos s.mispStall with hm | hm
    · cases hID : s.slotID with
      | none => exact (full_tick_progress hrun hEX hd hm hID hpc).imp_right .inr
      | some L => exact .inr (.inl (tick_slotEX_of_ID hrun hEX hd hm hID))
    · exact .inr (.inr (distance_lt_of_mispStall h hrun hm))
  · exact .inr (.inr (distance_lt_of_dataStall hrun hEX h hd))

end

/-- After finitely many ticks that make no step of the sequential machine the run is finished or an
instruction is in EX. -/
theorem reaches_EX_or_end {s a : State} (h : s.SeqInv) (hmode : s.mode = .finished ∨ s.mode = .running)
    (ha : sameSeq s.arch a) (hpc : a.indexOf a.cursor ≠ none ∨ a.pastEnd a.cursor = true) :
    ∃ n, (ticks n s).SeqInv ∧ sameSeq (ticks n s).arch a ∧
      ((ticks n s).mode = .finished ∨ (ticks n s).mode = .running ∧ (ticks n s).slotEX ≠ none) := by
  induction hk : s.distance using Nat.strong_induction_on generalizing s with
  | _ d ih =>
    rcases hmode with hfin | hrun
    · exact ⟨0, h, ha, .inl hfin⟩
    by_cases hEX : s.slotEX = none
    · have h' := tick_seqInv h
      have ha' := tick_sameSeq_of_empty_EX h hrun ha hEX
      have hmode' := tick_mode hrun
      have hpc' : s.indexOf s.archPc ≠ none ∨ s.pastEnd s.archPc = true := by
        obtain ⟨hi, hp⟩ := indexOf_pastEnd_congr (arch_prog s) (arch_params s) s.archPc
        rw [← hi, ← hp]
        rwa [← ha.indexOf, ← ha.pastEnd] at hpc
      rcases tick_progress hrun hEX h.inv hpc' with hfin | hfull | hnear
      · exact ⟨1, h', ha', .inl hfin⟩
      · exact ⟨1, h', ha', hmode'.imp_right fun hr => ⟨hr, hfull⟩⟩
      · obtain ⟨n, hn⟩ := ih _ (hk ▸ hnear) h' hmode' ha' rfl
        exact ⟨n + 1, hn⟩
    · exact ⟨0, h, ha, .inr ⟨hrun, hEX⟩⟩

/-- When the sequential machine stops past the end, the pipeline finishes with the same registers and
memory. -/
theorem ticks_reach_end {m : Nat} {s a u : State} (h : s.SeqInv)
    (hmode : s.mode = .finished ∨ s.mode = .running) (ha : sameSeq s.arch a)
    (hrun : seqRun m a = some u) (hstop : seqStep u = none) (hpast : u.pastEnd u.cursor = true) :
    ∃ n, (ticks n s).mode = .finished ∧ sameArch (ticks n s) u := by
  induction m generalizing s a with
  | zero =>
    cases hrun
    obtain ⟨n, h', ha', hfin | ⟨hrun', hEX⟩⟩ := reaches_EX_or_end h hmode ha (.inr hpast)
    · obtain ⟨-, -, hsame⟩ := seqStep_none_of_finished h' hfin ha'
      exact ⟨n, hfin, hsame⟩
    · obtain ⟨v, hv, -⟩ := tick_sameSeq_of_occupied h' hrun' ha' hEX
      cases hstop.symm.trans hv
  | succ m ih =>
    obtain ⟨v, hv, hrest⟩ := seqStep_of_seqRun hrun
    obtain ⟨n, h', ha', hfin | ⟨hrun', hEX⟩⟩ :=
      reaches_EX_or_end h hmode ha (.inl (indexOf_of_seqStep hv))
    · obtain ⟨hnone, -⟩ := seqStep_none_of_finished h' hfin ha'
      cases hnone.symm.trans hv
    · obtain ⟨v', hv', hsame⟩ := tick_sameSeq_of_occupied h' hrun' ha' hEX
      cases hv.symm.trans hv'
      obtain ⟨k, hk⟩ := ih (tick_seqInv h') (tick_mode hrun') hsame hrest
      exact ⟨n + (k + 1), by rw [ticks_add]; exact hk⟩

/-- Settles O58: the ticks of a run make steps of the sequential machine only, and every step is made
after finitely many ticks. -/
theorem finishedRunEqualsSequentialRun : Obligations.FinishedRunEqualsSequentialRun := by
  intro s p hstalls hfits
  have hinv : (s.submitProgram p).SeqInv := initial_seqInv _ _ _ (by decide) hstalls hfits
  have harch : sameSeq (s.submitProgram p).arch (s.submitProgram p) := by
    rw [arch_of_empty rfl]
    exact sameSeq.refl _
  refine ⟨fun n hfin => ?_, fun m u hrun hstop hpast =>
    ticks_reach_end hinv (.inr rfl) harch hrun hstop hpast⟩
  obtain ⟨hinv', m, u, hrun, hsame⟩ := ticks_sameSeq hinv harch n
  obtain ⟨hstop, hpast, harch'⟩ := seqStep_none_of_finished hinv' hfin hsame
  exact ⟨m, u, hrun, hstop, hpast, harch'⟩

end Sys2Proof.Machine
end

section
/-! PROOFS. The throughput of straight code (O59): after `n` ticks the stage at depth `d` holds entry
`n - d`, as long as there is such an entry (spec rules R282, R298, R381). -/

namespace Sys2Proof.Machine

/-! ### Straight code -/

/-- A program below the top of the address space, without control transfers and without stalls. -/
structure State.Straight (s : State) : Prop where
  fits : s.programFits
  noStall : ∀ k < s.prog.length, (s.hazard k).stall = 0
  noControl : ∀ w ∈ s.prog, (kindOf (decodeWord w)).isControl = false

/-- Straight code is a matter of the inputs. -/
theorem tick_straight {s : State} (h : s.Straight) : (tick s).Straight := by
  obtain ⟨hprog, hcfg, hparams⟩ := tick_inputs s
  obtain ⟨hfits, hstall, hcontrol⟩ := h
  refine ⟨?_, fun k => ?_, ?_⟩
  · rwa [State.programFits, hparams, hprog]
  · rw [hprog, hazard_congr hprog hcfg hparams]
    exact hstall k
  · rwa [hprog]

/-- A record carries a word of the program, so it is no control transfer. -/
theorem isControl_of_straight {s : State} (h : s.Straight) {L : Latch} (hL : s.recordOk L) :
    L.desc.kind.isControl = false :=
  h.noControl L.word (List.mem_of_getElem? hL.word)

/-- Straight code never redirects, in EX or in ID. -/
theorem no_redirect_of_straight {s : State} (h : s.Straight) (hinv : s.Inv) :
    (doID (backEnd s.slotMEM s.slotWB s)).2 = false := by
  have hback : (backEnd s.slotMEM s.slotWB s).2 = false := by
    cases hEX : s.slotEX with
    | none => exact backEnd_of_empty_EX hEX _ _
    | some L =>
      have hsteer : (exOut s s.slotMEM s.slotWB L).steer = .fallThrough :=
        ruleOf_steer_fallThrough L.instr (isControl_of_straight h (hinv.records .EX L hEX)) _ _ _
      rw [backEnd_occupied hEX, hsteer]
      rfl
  cases hID : (backEnd s.slotMEM s.slotWB s).1.slotID with
  | none => rwa [doID_empty hID]
  | some L =>
    have hcontrol := isControl_of_straight h (hinv.records .ID L (slotID_of_backEnd hID))
    rw [isControl_eq_isBranch_or_isJump, Bool.or_eq_false_iff] at hcontrol
    rwa [doID_of_not_predicted_taken hID (.inl hcontrol.1)]

/-! ### Which entry stands where -/

/-- How many ticks after the start the first entry reaches a stage. -/
def Stage.depth : Stage → Nat
  | .IF => 1
  | .ID => 2
  | .EX => 3
  | .MEM => 4
  | .WB => 5

/-- The entry at depth `d` after `n` ticks of `N` entries without stalls. -/
def entryAt (N n d : Nat) : Option Nat :=
  if d ≤ n ∧ n < d + N then some (n - d) else none

/-- Every occupant moves one stage a tick. -/
theorem entryAt_succ (N n d : Nat) : entryAt N (n + 1) (d + 1) = entryAt N n d := by
  simp only [entryAt, Nat.add_le_add_iff_right, Nat.add_sub_add_right, Nat.add_right_comm d 1 N,
    Nat.add_lt_add_iff_right]

theorem entryAt_eq_some {N n d k : Nat} (h : entryAt N n d = some k) : n = k + d ∧ k < N := by
  unfold entryAt at h
  split at h
  · cases h
    omega
  · cases h

/-- The last entry leaves WB four ticks after it was fetched. -/
theorem entryAt_eq_none {N n : Nat} (h : N = 0 ∨ N + 5 ≤ n) (S : Stage) :
    entryAt N n S.depth = none := by
  have hS : S.depth ≤ 5 := by cases S <;> decide
  exact if_neg (by omega)

/-- Until then some stage is occupied. -/
theorem exists_entryAt {N n : Nat} (hN : 0 < N) (hpos : 0 < n) (hn : n ≤ N + 4) :
    ∃ S : Stage, entryAt N n S.depth ≠ none := by
  have hsome : ∀ d, d ≤ n → n < d + N → entryAt N n d ≠ none := fun d h1 h2 => by
    simp [entryAt, h1, h2]
  obtain h | rfl | rfl | rfl | rfl : n ≤ N ∨ n = N + 1 ∨ n = N + 2 ∨ n = N + 3 ∨ n = N + 4 := by
    omega
  · exact ⟨.IF, hsome 1 (by omega) (by omega)⟩
  · exact ⟨.ID, hsome 2 (by omega) (by omega)⟩
  · exact ⟨.EX, hsome 3 (by omega) (by omega)⟩
  · exact ⟨.MEM, hsome 4 (by omega) (by omega)⟩
  · exact ⟨.WB, hsome 5 (by omega) (by omega)⟩

/-! ### The stream of entries -/

/-- The state `n` ticks into straight code, but for mode and cycle. -/
structure State.Streams (s : State) (n : Nat) : Prop where
  straight : s.Straight
  inv : s.Inv
  dataStall : s.dataStall = 0
  mispStall : s.mispStall = 0
  cursor : s.cursor.toNat = s.params.programBase.toNat + 4 * min n s.prog.length
  slots : ∀ S, (s.slot S).map (·.idx) = entryAt s.prog.length n S.depth

/-- Equal entries have equal program indices. -/
theorem map_idx_of_map_entry {o' o : Option Latch} (h : o'.map Latch.entry = o.map Latch.entry) :
    o'.map (·.idx) = o.map (·.idx) := by
  have h := congrArg (Option.map Prod.fst) h
  rwa [Option.map_map, Option.map_map] at h

theorem initial_streams (p : Params) (cfg : Configuration) (prog : List Word) {mode : Mode}
    (hmode : mode ≠ .finished) (h : (State.initial p cfg prog mode).Straight) :
    (State.initial p cfg prog mode).Streams 0 where
  straight := h
  inv := initial_inv p cfg prog hmode
  dataStall := rfl
  mispStall := rfl
  cursor := by simp [State.initial]
  slots := fun S => by
    rw [initial_slot]
    cases S <;> rfl

/-- What a tick fetches: the next entry, while there is one. -/
theorem tick_fetches {s : State} {n : Nat} (h : s.Streams n) (hrun : s.mode = .running)
    (hbehind : ∀ S, S ≠ .IF →
      ((tick s).slot S).map (·.idx) = entryAt s.prog.length (n + 1) S.depth) :
    (tick s).slotIF.map (·.idx) = entryAt s.prog.length (n + 1) 1 ∧
      (tick s).cursor.toNat = s.params.programBase.toNat + 4 * min (n + 1) s.prog.length := by
  obtain ⟨-, -, -, -, -, -, -, tfetch, tblocked⟩ := fullTickMovesEveryStage s (tick s) hrun h.dataStall
    h.mispStall rfl (no_redirect_of_straight h.straight h.inv)
  have hcursor := h.cursor
  have hfits := h.straight.fits
  rcases Nat.lt_or_ge n s.prog.length with hn | hn
  · rw [Nat.min_eq_left hn.le] at hcursor
    obtain ⟨hIF, hnext⟩ := tfetch n _ (List.getElem?_eq_getElem hn) hcursor fun S L hS hL hk => by
      have hidx := hbehind S hS
      rw [hL, Option.map_some] at hidx
      obtain ⟨hd, -⟩ := entryAt_eq_some hidx.symm
      cases S
      case IF => exact hS rfl
      all_goals simp only [Stage.depth] at hd; omega
    obtain ⟨M, hM, hentry⟩ := Option.map_eq_some_iff.mp hIF
    refine ⟨?_, ?_⟩
    · rw [hM, Option.map_some, show M.idx = n from congrArg Prod.fst hentry]
      exact (if_pos ⟨by omega, by omega⟩).symm
    · rw [hnext, BitVec.toNat_add, hcursor, Nat.min_eq_left hn]
      unfold State.programFits at hfits
      simp only [BitVec.toNat_ofNat]
      omega
  · rw [Nat.min_eq_right hn] at hcursor
    obtain ⟨hIF, hsame⟩ := tblocked fun k hk he => by omega
    refine ⟨?_, ?_⟩
    · rw [hIF]
      exact (if_neg (by omega)).symm
    · rw [hsame, hcursor, Nat.min_eq_right (by omega)]

/-- A tick moves the stream on by one entry. -/
theorem tick_streams {s : State} {n : Nat} (h : s.Streams n) (hrun : s.mode = .running) :
    (tick s).Streams (n + 1) := by
  obtain ⟨tWB, tMEM, tEX, tID, tstall, tnone, tmisp, -⟩ := fullTickMovesEveryStage s (tick s) hrun
    h.dataStall h.mispStall rfl (no_redirect_of_straight h.straight h.inv)
  obtain ⟨hprog, -, hparams⟩ := tick_inputs s
  have hbehind : ∀ S, S ≠ .IF →
      ((tick s).slot S).map (·.idx) = entryAt s.prog.length (n + 1) S.depth := by
    intro S hS
    cases S with
    | IF => exact absurd rfl hS
    | ID => exact ((map_idx_of_map_entry tID).trans (h.slots .IF)).trans (entryAt_succ _ n 1).symm
    | EX => exact ((map_idx_of_map_entry tEX).trans (h.slots .ID)).trans (entryAt_succ _ n 2).symm
    | MEM => exact ((map_idx_of_map_entry tMEM).trans (h.slots .EX)).trans (entryAt_succ _ n 3).symm
    | WB => exact ((map_idx_of_map_entry tWB).trans (h.slots .MEM)).trans (entryAt_succ _ n 4).symm
  obtain ⟨hIF, hcursor⟩ := tick_fetches h hrun hbehind
  refine ⟨tick_straight h.straight, tick_inv h.inv, ?_, tmisp, by rwa [hparams, hprog], fun S => ?_⟩
  · cases hs : s.slotIF with
    | none => exact tnone hs
    | some L =>
      rw [tstall L hs]
      exact h.straight.noStall _ (List.getElem?_eq_some_iff.mp (h.inv.records .IF L hs).word).1
  · rw [hprog]
    by_cases hS : S = .IF
    · subst hS; exact hIF
    · exact hbehind S hS

/-! ### When the run finishes -/

section
variable {s : State} {n : Nat} (h : s.Streams n) (hrun : s.mode = .running)
include h hrun

/-- While some entry is on its way the run goes on, and the tick is counted. -/
theorem tick_continues (hN : 0 < s.prog.length) (hn : n < s.prog.length + 4) :
    (tick s).mode = .running ∧ (tick s).cycle = s.cycle + 1 := by
  obtain ⟨hfinish, -, hcount⟩ := finishRule s (tick s) hrun rfl
  refine hcount fun hfin => ?_
  obtain ⟨hempty, -⟩ := hfinish.mp hfin
  obtain ⟨S, hS⟩ := exists_entryAt hN (Nat.succ_pos n) hn
  obtain ⟨hprog, -⟩ := tick_inputs s
  have hslot := (tick_streams h hrun).slots S
  rw [hempty, hprog] at hslot
  exact hS hslot.symm

/-- When the last entry leaves WB the run finishes, and the tick is not counted. -/
theorem tick_finishes (hn : s.prog.length = 0 ∨ s.prog.length + 4 ≤ n) :
    (tick s).mode = .finished ∧ (tick s).cycle = s.cycle := by
  obtain ⟨hfinish, huncounted, -⟩ := finishRule s (tick s) hrun rfl
  obtain ⟨hprog, -⟩ := tick_inputs s
  have h' := tick_streams h hrun
  have hfin : (tick s).mode = .finished := by
    refine hfinish.mpr ⟨fun S => ?_, ?_⟩
    · rw [← Option.map_eq_none_iff (f := (·.idx)), h'.slots S, hprog]
      exact entryAt_eq_none (by omega) S
    · rw [h'.cursor, hprog]
      omega
  exact ⟨hfin, huncounted hfin⟩

end

/-- `n` ticks into straight code, before the last entry has left WB. -/
theorem ticks_stream {s : State} (h : s.Streams 0) (hrun : s.mode = .running) (hcycle : s.cycle = 0)
    (hN : 0 < s.prog.length) {n : Nat} (hn : n ≤ s.prog.length + 4) :
    (ticks n s).Streams n ∧ (ticks n s).mode = .running ∧ (ticks n s).cycle = n ∧
      (ticks n s).prog = s.prog := by
  induction n with
  | zero => exact ⟨h, hrun, hcycle, rfl⟩
  | succ n ih =>
    obtain ⟨h', hrun', hcycle', hprog'⟩ := ih (by omega)
    rw [ticks_add n 1 s]
    obtain ⟨hmode, hcount⟩ := tick_continues h' hrun' (by rwa [hprog']) (by rw [hprog']; omega)
    exact ⟨tick_streams h' hrun', hmode, hcount.trans (congrArg (· + 1) hcycle'),
      (tick_inputs _).1.trans hprog'⟩

/-- Settles O59: the stream runs until its last entry has left WB, in the tick after cycle `N + 4`. -/
theorem throughputBaseline : Obligations.ThroughputBaseline := by
  intro s p hfits hstall hcontrol
  have h : (s.submitProgram p).Streams 0 :=
    initial_streams s.params s.cfg p (by decide) ⟨hfits, hstall, hcontrol⟩
  refine ⟨fun hne => ?_, ?_⟩
  · obtain ⟨h', hrun', hcycle', hprog'⟩ :=
      ticks_stream h rfl rfl (List.length_pos_iff.mpr hne) (n := p.length + 4) (Nat.le_refl _)
    obtain ⟨hfin, hcount⟩ := tick_finishes h' hrun' (.inr (by rw [hprog']; exact Nat.le_refl _))
    have hlast : ticks (p.length + 5) (s.submitProgram p) =
        tick (ticks (p.length + 4) (s.submitProgram p)) := ticks_add (p.length + 4) 1 _
    rw [hlast]
    exact ⟨hfin, hcount.trans hcycle', hrun'⟩
  · rintro rfl
    exact tick_finishes h rfl (.inl rfl)

end Sys2Proof.Machine
end
